-- ==== Sys2Proof/Word.lean ====
section
/-! DEFINITION. The widths of the block (spec/00_scope.md R6, R8): a byte, the 32-bit select mask, the 16-bit frame. -/

namespace Sys2Proof

/-- A segment byte or a select byte (30_encoding.md R87, R88). -/
abbrev Byte := BitVec 8

/-- The `digit_select_mask` operand, a `u32` (30_encoding.md R81, format P). -/
abbrev Mask := BitVec 32

/-- The 16 bits one transaction commits: segment byte above select byte (30_encoding.md R90). -/
abbrev Frame := BitVec 16

/-- `a : b`, the frame `SSMM` (00_scope.md R6, 30_encoding.md R90). -/
abbrev frameOf (seg sel : Byte) : Frame := seg ++ sel

end Sys2Proof
end

