-- ==== Sys2Proof/Syntax.lean ====
section
/-! DEFINITION. The operations of the block, one constructor for each row of spec/opcode_table.json
(30_encoding.md R80 to R82), and the operations a TEST_SCRIPT may hold (45_test.md R220). -/

namespace Sys2Proof

/-- A pin identifier supplied by the host: an opaque name with decidable equality (10_state.md R21).
DESIGN CHOICE (log 10), safe: the names are the natural numbers. -/
abbrev PinId := Nat

/-- The three lines of the block, numbered 0, 1, 2 in formats W and G (30_encoding.md R81, R89). -/
inductive Pin where
  | data
  | clock
  | latch
  deriving DecidableEq, Repr

/-- The operations, by level (30_encoding.md R80): host operations, internal primitives, pin
micro-operations, pure functions. Operands carry the types of the formats of R81. -/
inductive Instr where
  | construct (dataPin clockPin latchPin : PinId) (numDisplays : Int)
  | render (sequence : List Char) (redrawCount : Nat) (clearAfter : Bool) (startAt : Nat)
  | clear
  | test
  | sendByte (value : Byte)
  | setPort (segmentByte : Byte) (digitSelectMask : Mask)
  | dataWr (b : Bool)
  | clkLo
  | clkHi
  | latLo
  | latHi
  | cfgOut (pin : Pin)
  | encodeChar (c : Char)
  | dpOn (b : Byte)
  | onehot (p : Nat)
  | phys (n i : Nat)
  | buildBuffer (sequence : List Char) (startAt numDisplays : Nat)
  deriving DecidableEq, Repr

/-- The level of an operation (30_encoding.md R80, R82). -/
def Instr.level : Instr → Nat
  | .construct .. | .render .. | .clear | .test => 3
  | .sendByte .. | .setPort .. => 2
  | .dataWr .. | .clkLo | .clkHi | .latLo | .latHi | .cfgOut .. => 1
  | .encodeChar .. | .dpOn .. | .onehot .. | .phys .. | .buildBuffer .. => 0

/-- Who issues an operation (30_encoding.md R80, last column). -/
inductive Issuer where
  | host
  | controller
  deriving DecidableEq, Repr

/-- The operations TEST's script is made of: "q is a SET_PORT, a CLEAR or a RENDER" (45_test.md R220). -/
inductive ScriptOp where
  | setPort (segmentByte : Byte) (digitSelectMask : Mask)
  | clear
  | render (sequence : List Char) (redrawCount : Nat) (clearAfter : Bool) (startAt : Nat)
  deriving DecidableEq, Repr

/-- TEST_SCRIPT for one N: its operations in the five phases of the outline, in their order (45_test.md R221, D13). -/
structure Machine.ScriptPhases where
  eachDigit : List ScriptOp
  allAtOnce : List ScriptOp
  halfAndHalf : List ScriptOp
  counter : List ScriptOp
  doneMessage : List ScriptOp
  deriving DecidableEq, Repr

/-- The operations of all phases, as TEST performs them (45_test.md R220). -/
def Machine.ScriptPhases.all (ph : ScriptPhases) : List ScriptOp :=
  ph.eachDigit ++ ph.allAtOnce ++ ph.halfAndHalf ++ ph.counter ++ ph.doneMessage

/-- The operation a script entry calls. -/
def ScriptOp.toInstr : ScriptOp → Instr
  | .setPort a m => .setPort a m
  | .clear => .clear
  | .render q rc ca st => .render q rc ca st

end Sys2Proof
end

