-- ==== Sys2Proof/Config.lean ====
section
/-! DEFINITION. What is fixed for one machine (00_scope.md R4) and the values the spec leaves open.
Every open value is an opaque constant with no body: no proof can see what it is. -/

namespace Sys2Proof.Config

/-- At most eight digits: option (a) of the source's open question (43_digit_select.md R184). -/
def maxDigits : Nat := 8

/-- Defaults of RENDER's optional operands (30_encoding.md R83). -/
def defaultRedrawCount : Nat := 100

/-- Default of `clear_after` (30_encoding.md R83). -/
def defaultClearAfter : Bool := true

/-- Default of `start_at` (30_encoding.md R83). -/
def defaultStartAt : Nat := 0

/-- "All segments off", the byte of CLEAR and of the `start_at` pad: BLANK = ENC(' ') = 0xFF
(42_char_lookup.md R156). -/
def blank : Byte := 0xFF#8

/-- The level found on an unspecified line, drawn afresh at each use: INIT_DATA, INIT_CLK, INIT_LAT of
00_scope.md R4. The number is the count of draws made before it (log 6, safe). -/
opaque freeLevel : Pin → Nat → Bool

/-- INIT_SR (00_scope.md R4, 10_state.md R36; log 8). -/
opaque initSr : BitVec 16

/-- INIT_OUT (00_scope.md R4, 10_state.md R36; log 8). -/
opaque initOut : BitVec 16

/-- What the three handle registers hold before CONSTRUCT (10_state.md R36; log 9). -/
opaque initPinId : Pin → PinId

/-- What NUM_DISPLAYS holds before CONSTRUCT (10_state.md R36; log 9). -/
opaque initNumDisplays : Nat

/-- TEST_SCRIPT, as far as it is instantiated: pairs of N and the script for N digits. Only the pairs that meet
45_test.md R221 are instantiations (log 5). -/
opaque testScripts : List (Nat × Machine.ScriptPhases)

/-- ONEHOT p for p >= 32, where `1 << p` is no `u32` value: its upper 24 bits (log 15). -/
opaque onehotBeyond : Nat → BitVec 24

/-- PHYS n i for i >= n, where `n - 1 - i` is no natural number (log 16). -/
opaque physBeyond : Nat → Nat → Nat

/-! The table ENC: which characters have an entry, and which segments an entry lights. Letters are numbered 0 to 25,
'O' is 14, and the letters of "done" are 3, 14, 13 and 4. -/

/-- The seven segments of an entry, by code point (log 4). -/
opaque encSegments : Nat → BitVec 7

/-- Whether a symbol has an entry, by code point (log 4). -/
opaque encSymbol : Nat → Bool

/-- Whether a letter has an entry in upper case and in lower case, as far as E2 and E5 leave it open (log 4). -/
opaque encLetter : Nat → Bool × Bool

/-- A letter that maps in both cases: there is one (E2). -/
opaque bothCasesLetter : Fin 26

/-- How far from it a letter that maps in one case only stands: there is one (E2). -/
opaque oneCaseDistance : Fin 25

/-- Whether that letter maps in upper case. -/
opaque oneCaseIsUpper : Bool

/-- The letter that maps in one case only. -/
def oneCaseLetter : Nat := (bothCasesLetter.val + 1 + oneCaseDistance.val) % 26

/-- Whether letter `k` has an entry in upper case and in lower case (42_char_lookup.md R151, E2, E5): 'O' has one, and so
has every letter of "done" in some case. -/
def letterForms (k : Nat) : Bool × Bool :=
  if k = bothCasesLetter.val then (true, true)
  else if k = oneCaseLetter then if k = 14 || oneCaseIsUpper then (true, false) else (false, true)
  else if k = 14 then (true, (encLetter k).2)
  else if k ∈ [3, 13, 4] ∧ encLetter k = (false, false) then (false, true)
  else encLetter k

/-- Whether a printable ASCII character has an entry: space (E3), the digits (E6, E7), letters (E2, E5), symbols. -/
def encHas (a : Nat) : Bool :=
  if a = 0x20 ∨ 0x30 ≤ a ∧ a ≤ 0x39 then true
  else if 0x41 ≤ a ∧ a ≤ 0x5A then (letterForms (a - 0x41)).1
  else if 0x61 ≤ a ∧ a ≤ 0x7A then (letterForms (a - 0x61)).2
  else encSymbol a

/-- The entry of a character that has one: the space is 0xFF (E4), 'O' is '0' (E5), bit 7 is 1 (E8). -/
def encEntry (a : Nat) : Byte :=
  if a = 0x20 then blank else BitVec.cons true (encSegments (if a = 0x4F then 0x30 else a))

/-- ENC as a read-only memory: the cells (code point, byte) of the characters that have an entry, in rising order
(20_memory.md R50). Letters, digits and symbols are printable ASCII, 0x20 to 0x7E (E1; log 4). -/
def encTable : List Host.Cell :=
  ((List.range' 0x20 95).filter encHas).map fun a => (a, encEntry a)

end Sys2Proof.Config
end

