-- ==== Sys2Proof/WellFormed.lean ====
section
/-! DEFINITION. The documented domain of every operand (00_scope.md R4, 10_state.md R28, opcode_table.json's
operand notes). What an operation does outside it stands in Machine/: an error, a refusal or a free value. -/

namespace Sys2Proof

/-- The three pin identifiers name three different pins (40_construct_and_pins.md R119 (a)). -/
abbrev pairwiseDistinct (d c l : PinId) : Prop := d ≠ c ∧ d ≠ l ∧ c ≠ l

/-- Operands within their documented domain (log 29). -/
def Instr.wellFormed : Instr → Bool
  | .construct d c l _ => decide (pairwiseDistinct d c l)
  | .render _ redrawCount _ _ => decide (1 ≤ redrawCount)
  | .encodeChar c => decide (c ≠ '.')
  | .onehot p => decide (p < Config.maxDigits)
  | .phys n i => decide (n ≤ Config.maxDigits ∧ i < n)
  | .buildBuffer _ _ n => decide (1 ≤ n ∧ n ≤ Config.maxDigits)
  | .clear | .test | .sendByte _ | .setPort _ _ | .dataWr _ | .clkLo | .clkHi | .latLo | .latHi | .cfgOut _
  | .dpOn _ => true

end Sys2Proof
end

