-- ==== Sys2Proof/Decode.lean ====
section
/-! DEFINITION. The wire forms of an operation: a record of an opcode byte and typed operands that are not
packed into bits (30_encoding.md R81), the opcode map (R82), the decoder, total on every record, and the
encoder. The opcode numbers are the spec's own labels (log 3). -/

namespace Sys2Proof

/-- One operand field, of one of the types of R81. -/
inductive Operand where
  | pin (p : PinId)
  | int (n : Int)
  | text (q : List Char)
  | nat (n : Nat)
  | flag (b : Bool)
  | byte (v : Byte)
  | mask (m : Mask)
  | char (c : Char)
  deriving DecidableEq, Repr

/-- A format record: `op[7:0]` followed by its operand fields (30_encoding.md R81). -/
structure Record where
  op : Byte
  operands : List Operand
  deriving DecidableEq, Repr

/-- An operation as the host or the controller presents it. -/
structure Request where
  issuer : Issuer
  record : Record
  deriving DecidableEq, Repr

/-- The rows of the opcode table, by name. -/
inductive Kind where
  | construct | render | clear | test
  | sendByte | setPort
  | dataWr | clkLo | clkHi | latLo | latHi | cfgOut
  | encodeChar | dpOn | onehot | phys | buildBuffer
  deriving DecidableEq, Repr

/-- The row an operation belongs to. -/
def Instr.kind : Instr → Kind
  | .construct .. => .construct
  | .render .. => .render
  | .clear => .clear
  | .test => .test
  | .sendByte _ => .sendByte
  | .setPort .. => .setPort
  | .dataWr _ => .dataWr
  | .clkLo => .clkLo
  | .clkHi => .clkHi
  | .latLo => .latLo
  | .latHi => .latHi
  | .cfgOut _ => .cfgOut
  | .encodeChar _ => .encodeChar
  | .dpOn _ => .dpOn
  | .onehot _ => .onehot
  | .phys .. => .phys
  | .buildBuffer .. => .buildBuffer

/-- One row of spec/opcode_table.json: the bits that are fixed and their value. -/
structure OpcodeRow where
  kind : Kind
  mask : Byte
  value : Byte
  deriving DecidableEq, Repr

/-- The opcode map (30_encoding.md R82, spec/opcode_table.json). -/
def opcodeTable : List OpcodeRow :=
  [⟨.construct, 0xFF, 0x01⟩, ⟨.render, 0xFF, 0x02⟩, ⟨.clear, 0xFF, 0x03⟩, ⟨.test, 0xFF, 0x04⟩,
   ⟨.sendByte, 0xFF, 0x10⟩, ⟨.setPort, 0xFF, 0x11⟩,
   ⟨.dataWr, 0xFE, 0x20⟩, ⟨.clkLo, 0xFF, 0x22⟩, ⟨.clkHi, 0xFF, 0x23⟩, ⟨.latLo, 0xFF, 0x24⟩,
   ⟨.latHi, 0xFF, 0x25⟩, ⟨.cfgOut, 0xFC, 0x28⟩,
   ⟨.encodeChar, 0xFF, 0x30⟩, ⟨.dpOn, 0xFF, 0x31⟩, ⟨.onehot, 0xFF, 0x32⟩, ⟨.phys, 0xFF, 0x33⟩,
   ⟨.buildBuffer, 0xFF, 0x34⟩]

/-- Why a record is no operation. -/
inductive DecodeError where
  /-- "any `op` value not in rule R82: unassigned" (30_encoding.md R91), 0x2B among them. -/
  | unassigned (op : Byte)
  /-- The opcode is assigned, its operand fields are not those of its format (R81). -/
  | operandShape (op : Byte)
  deriving DecidableEq, Repr

/-- The row an opcode byte matches. -/
def kindOf (op : Byte) : Option Kind :=
  (opcodeTable.find? fun r => op &&& r.mask == r.value).map OpcodeRow.kind

/-- `pin[1:0]`: 0 data, 1 clock, 2 latch; 3 is unassigned (30_encoding.md R81). -/
def pinOfBits (b : BitVec 2) : Option Pin :=
  match b.toNat with
  | 0 => some .data
  | 1 => some .clock
  | 2 => some .latch
  | _ => none

/-- The two bits of a pin (30_encoding.md R89). -/
def Pin.bits : Pin → BitVec 2
  | .data => 0
  | .clock => 1
  | .latch => 2

/-- Format G: the pin is in the opcode, and `pp = 11` (0x2B) is not an operation (30_encoding.md R81,
opcode_table.json). -/
def decodeCfgOut (op : Byte) (args : List Operand) : Except DecodeError Instr :=
  match pinOfBits (op.extractLsb' 0 2) with
  | none => .error (.unassigned op)
  | some p => if args = [] then .ok (.cfgOut p) else .error (.operandShape op)

/-- The operand fields of each format (30_encoding.md R81); formats W and G take theirs from the opcode. -/
def decodeOperands (k : Kind) (op : Byte) (args : List Operand) : Except DecodeError Instr :=
  match k, args with
  | .construct, [.pin d, .pin c, .pin l, .int n] => .ok (.construct d c l n)
  | .render, [.text q, .nat rc, .flag ca, .nat st] => .ok (.render q rc ca st)
  | .clear, [] => .ok .clear
  | .test, [] => .ok .test
  | .sendByte, [.byte v] => .ok (.sendByte v)
  | .setPort, [.byte a, .mask m] => .ok (.setPort a m)
  | .dataWr, [] => .ok (.dataWr (op.getLsbD 0))
  | .clkLo, [] => .ok .clkLo
  | .clkHi, [] => .ok .clkHi
  | .latLo, [] => .ok .latLo
  | .latHi, [] => .ok .latHi
  | .cfgOut, _ => decodeCfgOut op args
  | .encodeChar, [.char c] => .ok (.encodeChar c)
  | .dpOn, [.byte b] => .ok (.dpOn b)
  | .onehot, [.nat p] => .ok (.onehot p)
  | .phys, [.nat n, .nat i] => .ok (.phys n i)
  | .buildBuffer, [.text q, .nat st, .nat n] => .ok (.buildBuffer q st n)
  | _, _ => .error (.operandShape op)

/-- The decoder: total on every record. -/
def decode (r : Record) : Except DecodeError Instr :=
  match kindOf r.op with
  | some k => decodeOperands k r.op r.operands
  | none => .error (.unassigned r.op)

/-- `op = 0b00100 : pin[1:0] : level` (30_encoding.md R81, format W). -/
def opW (p : Pin) (level : Bool) : Byte := 0b00100#5 ++ p.bits ++ BitVec.ofBool level

/-- `op = 0b001010 : pin[1:0]` (30_encoding.md R81, format G). -/
def opG (p : Pin) : Byte := 0b001010#6 ++ p.bits

/-- The record of an operation (30_encoding.md R81, R82). -/
def encode : Instr → Record
  | .construct d c l n => ⟨0x01, [.pin d, .pin c, .pin l, .int n]⟩
  | .render q rc ca st => ⟨0x02, [.text q, .nat rc, .flag ca, .nat st]⟩
  | .clear => ⟨0x03, []⟩
  | .test => ⟨0x04, []⟩
  | .sendByte v => ⟨0x10, [.byte v]⟩
  | .setPort a m => ⟨0x11, [.byte a, .mask m]⟩
  | .dataWr b => ⟨opW .data b, []⟩
  | .clkLo => ⟨opW .clock false, []⟩
  | .clkHi => ⟨opW .clock true, []⟩
  | .latLo => ⟨opW .latch false, []⟩
  | .latHi => ⟨opW .latch true, []⟩
  | .cfgOut p => ⟨opG p, []⟩
  | .encodeChar c => ⟨0x30, [.char c]⟩
  | .dpOn b => ⟨0x31, [.byte b]⟩
  | .onehot p => ⟨0x32, [.nat p]⟩
  | .phys n i => ⟨0x33, [.nat n, .nat i]⟩
  | .buildBuffer q st n => ⟨0x34, [.text q, .nat st, .nat n]⟩

/-- Operand fields that are all zero: pin 0, number 0, the empty text, false, character code 0. -/
def zeroOperands : Kind → List Operand
  | .construct => [.pin 0, .pin 0, .pin 0, .int 0]
  | .render => [.text [], .nat 0, .flag false, .nat 0]
  | .sendByte | .dpOn => [.byte 0]
  | .setPort => [.byte 0, .mask 0]
  | .encodeChar => [.char (Char.ofNat 0)]
  | .onehot => [.nat 0]
  | .phys => [.nat 0, .nat 0]
  | .buildBuffer => [.text [], .nat 0, .nat 0]
  | .clear | .test | .dataWr | .clkLo | .clkHi | .latLo | .latHi | .cfgOut => []

/-- The record whose opcode byte is the word of an opcode-table row and whose operands are zero (log 3). -/
def tableRecord (nbits w : Nat) : Record :=
  let op : Byte := BitVec.ofNat 8 (w % 2 ^ nbits)
  ⟨op, match kindOf op with
    | some k => zeroOperands k
    | none => []⟩

/-- The instruction the decoder reads from a word of the opcode table. -/
def decodeTableWord (nbits w : Nat) : Option Instr :=
  (decode (tableRecord nbits w)).toOption

/-- A request that its issuer may make: level 3 is the host's, the levels below are the controller's own
(30_encoding.md R80); who issues the word of a table row (log 2). -/
def tableRequest (nbits w : Nat) : Request :=
  let r := tableRecord nbits w
  let issuer :=
    match decode r with
    | .ok i => if i.level = 3 then Issuer.host else .controller
    | .error _ => .host
  ⟨issuer, r⟩

/-- RENDER as the host calls it, the optional operands left out or given by name (30_encoding.md R83, R92). -/
structure RenderCall where
  sequence : List Char
  redrawCount : Option Nat := none
  clearAfter : Option Bool := none
  startAt : Option Nat := none
  deriving DecidableEq, Repr

/-- The host interface fills in the defaults; the record always carries all four fields (30_encoding.md R83). -/
def RenderCall.toInstr (c : RenderCall) : Instr :=
  .render c.sequence (c.redrawCount.getD Config.defaultRedrawCount)
    (c.clearAfter.getD Config.defaultClearAfter) (c.startAt.getD Config.defaultStartAt)

/-- The variant of the driver without `start_at` always supplies 0 (00_scope.md R5, 30_encoding.md R93). -/
def renderWithoutStartAt (q : List Char) (redrawCount : Nat) (clearAfter : Bool) : Instr :=
  .render q redrawCount clearAfter 0

end Sys2Proof
end

