-- ==== Sys2Proof/Machine/Operands.lean ====
section
/-! DEFINITION. How operands are assembled and looked up: ENC (spec/42_char_lookup.md), the point, the one-hot select
mask and the index reversal (43_digit_select.md), the buffer build and the errors it raises. All of it is pure. -/

namespace Sys2Proof.Machine

/-- The errors an operation can raise and what they carry (60_exceptions.md R230). -/
inductive Error where
  | unsupportedCharacter (j : Nat) (c : Char)
  | displayOverflow (len n : Nat)
  | invalidConfiguration (n : Int)
  | dotWithoutDigit (j : Nat)
  deriving DecidableEq, Repr

/-- The codes of the errors (60_exceptions.md R230). -/
def Error.code : Error → Nat
  | .unsupportedCharacter .. => 1
  | .displayOverflow .. => 2
  | .invalidConfiguration _ => 3
  | .dotWithoutDigit _ => 4

/-- A read-only memory of cells (address, byte), in rising order of address; an address that is not listed has
no entry (20_memory.md R50). -/
abbrev Memory := List Host.Cell

/-- MemRead(ENC:a, 1): the byte of the entry at `a`, or no entry (20_memory.md R50). -/
def Memory.read : Memory → Nat → Option Byte
  | [], _ => none
  | (a, b) :: m, x => if a = x then some b else Memory.read m x

/-- The canonical form: addresses strictly rising. -/
def Memory.wf : Memory → Bool
  | [] => true
  | [_] => true
  | (a, _) :: (a', b') :: m => decide (a < a') && Memory.wf ((a', b') :: m)

/-- ENCODE c (42_char_lookup.md R150): lookup by code point, no case folding (R153). -/
def encodeOf (enc : Memory) (c : Char) : Option Byte := Memory.read enc c.toNat

/-- DP_ON b: `b & 0x7F` (42_char_lookup.md R155). -/
def pointOn (b : Byte) : Byte := b &&& 0x7F#8

/-- ONEHOT p: `1 << p` as a `u32` (43_digit_select.md R180). Where that is no `u32` its low byte is still 0x00 (R183), and
the rest is a free value (log 15). -/
def selectMask (p : Nat) : Mask := if p < 32 then 1#32 <<< p else Config.onehotBeyond p ++ 0#8

/-- PHYS n i: `n - 1 - i` (43_digit_select.md R181); a free value where that is negative (log 16). -/
def position (n i : Nat) : Nat := if i < n then n - 1 - i else Config.physBeyond n i

/-- `digit_select_mask[7:0]`, the part that is sent; the other 24 bits are dropped without error (20_memory.md R52,
43_digit_select.md R183). -/
def lowByte (m : Mask) : Byte := m.extractLsb' 0 8

/-- The select byte that names position p (30_encoding.md R85, R88). -/
def selectByte (p : Nat) : Byte := lowByte (selectMask p)

/-- `f[15:8]`, the segment byte of a frame (30_encoding.md R90). -/
def segOf (f : Frame) : Byte := f.extractLsb' 8 8

/-- `f[7:0]`, the select byte of a frame (30_encoding.md R90). -/
def selOf (f : Frame) : Byte := f.extractLsb' 0 8

/-- MemWrite(BUF:a, 1, v): at LEN it appends, below LEN it replaces (42_char_lookup.md R157). -/
def bufWrite (buf : List Byte) (a : Nat) (v : Byte) : List Byte :=
  if a = buf.length then buf ++ [v] else buf.set a v

/-- `append(v)` (42_char_lookup.md R157). -/
def bufAppend (buf : List Byte) (v : Byte) : List Byte := bufWrite buf buf.length v

/-- The point acts on the most recently appended byte, when there is one (42_char_lookup.md R158). -/
def pointLast (buf : List Byte) : Option (List Byte) :=
  (buf[buf.length - 1]?).map fun b => bufWrite buf (buf.length - 1) (pointOn b)

/-- The scan of the text, left to right, at text index `j` (42_char_lookup.md R157): a point at index 0 is
skipped (R159), a later one lights the point of the last byte (R158) or finds none (R160); any other character
must have an entry (R161). -/
def scan (enc : Memory) : Nat → List Char → List Byte → Except Error (List Byte)
  | _, [], buf => .ok buf
  | j, c :: cs, buf =>
    if c = '.' then
      if j = 0 then scan enc (j + 1) cs buf
      else
        match pointLast buf with
        | none => .error (.dotWithoutDigit j)
        | some buf' => scan enc (j + 1) cs buf'
    else
      match encodeOf enc c with
      | none => .error (.unsupportedCharacter j c)
      | some e => scan enc (j + 1) cs (bufAppend buf e)

/-- The `start_at` pad: that many blank bytes (42_char_lookup.md R156, R157; log 27). -/
def padding (startAt : Nat) : List Byte := List.replicate startAt Config.blank

/-- BUILD_BUFFER (42_char_lookup.md R157): pad, scan, then one test of the finished length (R162). -/
def build (enc : Memory) (sequence : List Char) (startAt n : Nat) : Except Error (List Byte) :=
  match scan enc 0 sequence (padding startAt) with
  | .error e => .error e
  | .ok buf => if n < buf.length then .error (.displayOverflow buf.length n) else .ok buf

end Sys2Proof.Machine
end

