-- ==== Sys2Proof/Machine/Script.lean ====
section
/-! DEFINITION. The frames each operation puts out (spec/44_refresh_scheduler.md), and TEST_SCRIPT (45_test.md R220,
R221): what is asked of an instantiation, and the script TEST performs. All of it is pure. -/

namespace Sys2Proof.Machine

/-- The frames of CLEAR (44_refresh_scheduler.md R190). -/
def clearFrames (n : Nat) : List Frame := (List.range n).map fun i => frameOf Config.blank (selectByte i)

/-- The frames of one refresh pass (44_refresh_scheduler.md R193). -/
def passFrames (n : Nat) (buf : List Byte) : List Frame :=
  buf.zipIdx.map fun bi => frameOf bi.1 (selectByte (position n bi.2))

/-- The frames of a RENDER that built `buf` (44_refresh_scheduler.md R194, R195). -/
def renderFrames (n redrawCount : Nat) (clearAfter : Bool) (buf : List Byte) : List Frame :=
  (List.replicate redrawCount (passFrames n buf)).flatten ++ if clearAfter then clearFrames n else []

/-- The frames of one script operation, none when its build fails (45_test.md R220). -/
def opFrames (enc : Memory) (n : Nat) : ScriptOp → List Frame
  | .setPort a m => [frameOf a (lowByte m)]
  | .clear => clearFrames n
  | .render q rc ca st =>
    match build enc q st n with
    | .error _ => []
    | .ok buf => renderFrames n rc ca buf

/-- A segment byte the block itself issues (30_encoding.md R86): 0xFF or the entry of a character other than the point,
with or without its point. -/
def issuedSegment (enc : Memory) (v : Byte) : Bool :=
  (Config.blank :: (enc.filter fun e => e.1 != 0x2E).map Prod.snd).any fun b => v == b || v == pointOn b

/-- A select mask the block itself issues (30_encoding.md R85, R88): ONEHOT(p) of a position p < n. -/
def issuedMask (n : Nat) (m : Mask) : Bool := (List.range n).any fun p => m == selectMask p

/-- A script entry puts out frames the block itself issues: a host operation sends no others (30_encoding.md R85, R86,
R88; 93_implementation_defined.md U14). CLEAR and RENDER always do. -/
def issuedOp (enc : Memory) (n : Nat) : ScriptOp → Bool
  | .setPort a m => issuedSegment enc a && issuedMask n m
  | .clear | .render .. => true

/-- "Every text in the script uses supported characters and fits in N digits" (45_test.md R221); a redraw count is
positive (44_refresh_scheduler.md R192). -/
def opErrorFree (enc : Memory) (n : Nat) : ScriptOp → Bool
  | .setPort .. | .clear => true
  | .render q rc _ st => decide (1 ≤ rc) && (build enc q st n).toOption.isSome

/-- Adjacent equal entries taken as one. -/
def collapse : List Byte → List Byte
  | [] => []
  | [a] => [a]
  | a :: b :: l => if a = b then collapse (b :: l) else a :: collapse (b :: l)

/-- ENC('8'). -/
def eightOf (enc : Memory) : Byte := (encodeOf enc '8').getD Config.blank

/-- The frames of a phase that light something, each of which must show '8' (45_test.md R221 (1), (2)), or nothing. -/
def eightFrames (enc : Memory) (n : Nat) (ops : List ScriptOp) : Option (List Byte) :=
  let fs := (ops.flatMap (opFrames enc n)).filter fun f => segOf f != Config.blank
  if fs.all fun f => segOf f == eightOf enc then some (fs.map selOf) else none

/-- The select bytes name each of the n digits once. DESIGN CHOICE (log 33): in any order. -/
def eachOnce (n : Nat) (sels : List Byte) : Bool := sels.isPerm ((List.range n).map selectByte)

/-- 45_test.md R221 (1): each of the N digits in turn is the only one lit and shows '8'. DESIGN CHOICE (log 33): the
digits come in any order, each for any number of frames, and dark frames may stand between. -/
def showsEachDigit (enc : Memory) (n : Nat) (ops : List ScriptOp) : Bool :=
  match eightFrames enc n ops with
  | some sels => eachOnce n (collapse sels)
  | none => false

/-- 45_test.md R221 (2): all N digits show '8', by passes that select each digit once. DESIGN CHOICE (log 33): a pass in
any order of the digits, by SET_PORTs or by a RENDER, is an equivalent refresh pass, and dark frames may stand between. -/
def showsAllAtOnce (enc : Memory) (n : Nat) (ops : List ScriptOp) : Bool :=
  match eightFrames enc n ops with
  | some sels =>
    !sels.isEmpty && sels.length % n == 0 &&
      (List.range (sels.length / n)).all fun k => eachOnce n ((sels.drop (k * n)).take n)
  | none => false

/-- The entry lights nothing: a CLEAR, or a SET_PORT of 0xFF. -/
def blanks : ScriptOp → Bool
  | .clear => true
  | .setPort a _ => a == Config.blank
  | .render .. => false

/-- The entries of a phase that count for 45_test.md R221 (3) to (5). DESIGN CHOICE (log 36): entries that light nothing may
stand before, between and after the RENDERs of these phases, and all the others must be RENDERs. -/
def showing (ops : List ScriptOp) : List ScriptOp := ops.filter fun op => !blanks op

/-- The one segment pattern all the bytes are, if they are. -/
def onePattern : List Byte → Option Byte
  | [] => none
  | v :: l => if l.all (· == v) then some v else none

/-- The first `k` bytes are one pattern and the others another. -/
def splitsAt (buf : List Byte) (k : Nat) : Bool :=
  match onePattern (buf.take k), onePattern (buf.drop k) with
  | some a, some b => a != b
  | _, _ => false

/-- 45_test.md R221 (3): a RENDER of a text whose one half is one pattern and whose other half another. DESIGN CHOICE
(log 34): a half is one pattern when its digits all show one segment byte; the middle digit of an odd number may go with
either half; with N = 1, where there are no halves, a text of one digit will do. -/
def isHalfAndHalf (enc : Memory) (n : Nat) : ScriptOp → Bool
  | .render q _ _ _ =>
    match build enc q 0 n with
    | .ok buf =>
      splitsAt buf (buf.length / 2) || splitsAt buf (buf.length - buf.length / 2) || (n == 1 && buf.length == 1)
    | .error _ => false
  | .setPort .. | .clear => false

/-- A text without the blanks before it. -/
def dropBlanks (q : List Char) : List Char := q.dropWhile (· == ' ')

/-- The value of a text of decimal digits. -/
def counterValue (q : List Char) : Option Nat :=
  if q ≠ [] ∧ q.all (fun c => decide (48 ≤ c.toNat ∧ c.toNat ≤ 57)) then
    some (q.foldl (fun v c => 10 * v + (c.toNat - 48)) 0)
  else none

/-- A counter value on the display: where its first digit stands, as a buffer index, and how many digits it has. -/
structure CounterShow where
  value : Nat
  first : Nat
  digits : Nat
  deriving DecidableEq, Repr

/-- The counter value a RENDER shows. DESIGN CHOICE (log 35): decimal digits, with blanks before and after. -/
def counterShow : ScriptOp → Option CounterShow
  | .render q _ _ st =>
    let r := dropBlanks q
    let d := (dropBlanks r.reverse).reverse
    (counterValue d).map fun v => ⟨v, st + (q.length - r.length), d.length⟩
  | .setPort .. | .clear => none

/-- The values are successive. DESIGN CHOICE (log 35): they go up or down by one fixed step, at least once, and a value
may be shown again before the next. -/
def isCounting (vs : List Nat) : Bool :=
  let steps := (vs.zipWith (fun v w => (w : Int) - v) vs.tail).filter (· != 0)
  !steps.isEmpty && steps.all fun d => steps.head? == some d

/-- The values are shifted through the digit positions. DESIGN CHOICE (log 35): either every value ends at the last
buffer index, its digits moving on as it grows, as in V20 of 95_test_vectors.md; or the place changes, and every one of
the N digits shows a digit of some value. -/
def isShifted (n : Nat) (shows : List CounterShow) : Bool :=
  shows.all (fun c => c.first + c.digits == n) ||
    (shows.any (fun c => shows.any fun d => c.first != d.first) &&
      (List.range n).all fun i => shows.any fun c => decide (c.first ≤ i ∧ i < c.first + c.digits))

/-- 45_test.md R221 (4): RENDERs of successive counter values, shifted through the digit positions. -/
def isCounter (n : Nat) (ops : List ScriptOp) : Bool :=
  let shows := ops.filterMap counterShow
  shows.length == ops.length && isCounting (shows.map CounterShow.value) && isShifted n shows

/-- 45_test.md R221 (5): a RENDER of the word "done", in any case. DESIGN CHOICE (log 32): with N < 4, where the word does
not fit, of its first N letters, as in V20 of 95_test_vectors.md. -/
def isDone (n : Nat) : List ScriptOp → Bool
  | [.render q _ _ _] => q.map Char.toLower == ['d', 'o', 'n', 'e'].take n
  | _ => false

/-- What 45_test.md R221 asks of a script for `n` digits: no operation raises, every frame is one the block issues, and the
five phases show what the outline says. DESIGN CHOICES, where the outline leaves its form open: logs 32 to 36, the CLEARs
and dark SET_PORTs among the RENDERs of phases (3) to (5) in log 36. -/
def ScriptPhases.conforms (ph : ScriptPhases) (enc : Memory) (n : Nat) : Bool :=
  ph.all.all (fun op => opErrorFree enc n op && issuedOp enc n op)
    && showsEachDigit enc n ph.eachDigit
    && showsAllAtOnce enc n ph.allAtOnce
    && !(showing ph.halfAndHalf).isEmpty && (showing ph.halfAndHalf).all (isHalfAndHalf enc n)
    && isCounter n (showing ph.counter)
    && isDone n (showing ph.doneMessage)

/-- A script of the outline of 45_test.md R221. -/
def ConformingScript (enc : Memory) (n : Nat) (ops : List ScriptOp) : Prop :=
  ∃ ph : ScriptPhases, ph.conforms enc n = true ∧ ops = ph.all

/-- TEST_SCRIPT(n), where it is instantiated: a list with a frame the block never issues is no TEST_SCRIPT (30_encoding.md
R85, R86; log 5). -/
def scriptFor (enc : Memory) (scripts : List (Nat × ScriptPhases)) (n : Nat) : Option (List ScriptOp) :=
  (scripts.find? fun e => e.1 == n).bind fun e => if e.2.all.all (issuedOp enc n) then some e.2.all else none

end Sys2Proof.Machine
end

