-- ==== Sys2Proof/Machine/State.lean ====
section
/-! DEFINITION. The architectural state (spec/10_state.md), its reset value (R36), and the ways a step stops. -/

namespace Sys2Proof.Machine

/-- The level of one of the three lines (10_state.md R24, R36). `undriven` is "not outputs yet; level outside
the block's control", before the pin is configured; `unsettled` is `U`, configured and never written since. -/
inductive Level where
  | undriven
  | unsettled
  | low
  | high
  deriving DecidableEq, Repr

/-- One pin write (00_scope.md R9, 30_encoding.md R89). -/
structure PinEvent where
  pin : Pin
  level : Bool
  deriving DecidableEq, Repr

/-- SEQPOS, the position within the operation in progress (10_state.md R30). PASS and DIGIT are present in the
phases that give them a meaning. -/
inductive SeqPos where
  | idle
  | build
  | refresh (pass digit step : Nat)
  | clearing (digit step : Nat)
  deriving DecidableEq, Repr

/-- The registers that exist from the acceptance of one RENDER to its end (10_state.md R27, R28). LEN is the
length of `buf`. -/
structure RenderRegs where
  seq : List Char
  redrawCount : Nat
  clearAfter : Bool
  startAt : Nat
  buf : List Byte
  deriving DecidableEq, Repr

/-- What the last operation handed to its caller (60_exceptions.md R238, R242): completion, an error, or the
value of a level 0 function. It is the model's channel to the caller, no register of the block: nothing reads
it (10_state.md R35; log 11). -/
inductive Result where
  | nothing
  | done
  | raised (e : Error)
  | entry (e : Option Byte)
  | byte (b : Byte)
  | mask (m : Mask)
  | position (p : Nat)
  | buffer (bs : List Byte)
  deriving DecidableEq, Repr

/-- The state of the block and its load, and the host's side of the interface. -/
structure State where
  /-- CONSTRUCTED (10_state.md R23). -/
  constructed : Bool
  /-- DATA_PIN (10_state.md R21). -/
  dataPin : PinId
  /-- CLOCK_PIN (10_state.md R21). -/
  clockPin : PinId
  /-- LATCH_PIN (10_state.md R21). -/
  latchPin : PinId
  /-- NUM_DISPLAYS, written N (10_state.md R22). -/
  numDisplays : Nat
  /-- DATA (10_state.md R24). -/
  data : Level
  /-- CLK (10_state.md R24). -/
  clk : Level
  /-- LAT (10_state.md R24). -/
  lat : Level
  /-- SEQ, REDRAW_COUNT, CLEAR_AFTER, START_AT, BUF, LEN; absent outside a RENDER (10_state.md R27, R28). -/
  render : Option RenderRegs
  /-- SEQPOS (10_state.md R30). -/
  seqpos : SeqPos
  /-- SR, the bits shifted in and not committed (10_state.md R33). -/
  sr : BitVec 16
  /-- OUT, what the digits see (10_state.md R34). -/
  out : Frame
  /-- TRACE, the pin writes performed so far, oldest first (00_scope.md R9, 40_construct_and_pins.md R111). -/
  trace : List PinEvent
  /-- ENC, the CharacterEncoding ROM by code point (20_memory.md R50; log 4). -/
  enc : Memory
  /-- TEST_SCRIPT as far as it is instantiated, by N (45_test.md R221; log 5). -/
  scripts : List (Nat × ScriptPhases)
  /-- The model's own: the operations still to be issued, next first (log 2). -/
  pending : List Request
  /-- The model's own: what the last operation returned (log 11). -/
  result : Result
  /-- The model's own: how many unspecified levels have been drawn (log 6). -/
  draws : Nat
  deriving DecidableEq, Repr

/-- LEN, the length of the DisplayBuffer while it exists (10_state.md R27). -/
def State.len (s : State) : Option Nat := s.render.map fun r => r.buf.length

/-- After power-on (10_state.md R36, 70_reset_and_hazards.md R260): unconstructed, IDLE, no pin an output, no
operation-lifetime register; every unspecified register at an opaque draw (logs 8 and 9); of the open scripts, those
that meet 45_test.md R221 (log 5). -/
def State.reset : State where
  constructed := false
  dataPin := Config.initPinId .data
  clockPin := Config.initPinId .clock
  latchPin := Config.initPinId .latch
  numDisplays := Config.initNumDisplays
  data := .undriven
  clk := .undriven
  lat := .undriven
  render := none
  seqpos := .idle
  sr := Config.initSr
  out := Config.initOut
  trace := []
  enc := Config.encTable
  scripts := Config.testScripts.filter fun e => e.2.conforms Config.encTable e.1
  pending := []
  result := .nothing
  draws := 0

/-- Ways the machine stops with a fault. -/
inductive Fault where
  /-- A stuck state: SEQPOS names no pin write of the operation in progress. "An out-of-range access cannot be
  expressed" (20_memory.md R55), so no run reaches it. Raised by `step` (log 20). Safe. -/
  | noSuchPosition
  deriving DecidableEq, Repr

/-- Inputs the spec gives no meaning: "a refusal is not an outcome of the hardware" (60_exceptions.md R235). -/
inductive Refusal where
  /-- An operation of the opcode table that has no meaning in this model yet. Raised by `exec`. Safe. -/
  | notModelled (mnemonic : String)
  /-- A host operation offered while SEQPOS is not IDLE (10_state.md R32; log 18). Raised by CONSTRUCT, RENDER,
  CLEAR and TEST. Safe. -/
  | notIdle
  /-- RENDER, CLEAR or TEST while CONSTRUCTED = 0 (10_state.md R23). Safe. -/
  | notConstructed
  /-- CONSTRUCT while CONSTRUCTED = 1 (10_state.md R23). Safe. -/
  | alreadyConstructed
  /-- CONSTRUCT whose pins are not pairwise distinct (40_construct_and_pins.md R119). Safe. -/
  | pinsNotDistinct
  /-- RENDER with `redraw_count = 0` (44_refresh_scheduler.md R192). Raised by RENDER and by TEST's script. Safe. -/
  | zeroRedrawCount
  /-- TEST while TEST_SCRIPT has no script for N, or one with a SET_PORT the block never issues (45_test.md R221;
  30_encoding.md R85, R86; log 5). Safe. -/
  | scriptUninstantiated
  /-- A level 2, 1 or 0 operation presented by the host (30_encoding.md R91). Raised by `step`. Safe. -/
  | notPublic
  /-- A host operation that the controller presents as its own (log 31). Raised by `step`. Safe. -/
  | hostOnly
  /-- A record with an unassigned opcode (30_encoding.md R91). Raised by `step`. Safe. -/
  | unassignedOpcode (op : Byte)
  /-- A record whose operand fields are not those of its format (30_encoding.md R81). Raised by `step`. Safe. -/
  | operandShape (op : Byte)
  deriving DecidableEq, Repr

end Sys2Proof.Machine
end

