-- ==== Sys2Proof/Machine/Flags.lean ====
section
/-! DEFINITION. The block has no flags (spec/10_state.md R35). What a pin write computes from the level before
it is whether it is an edge (40_construct_and_pins.md R111): that stands here. -/

namespace Sys2Proof.Machine

/-- The level a write of `b` leaves. -/
def Level.ofBool (b : Bool) : Level := if b then .high else .low

/-- The level when it is a written one, or nothing when it is unspecified (10_state.md R24). -/
def Level.settled? : Level → Option Bool
  | .low => some false
  | .high => some true
  | .unsettled | .undriven => none

/-- LEVEL[pin] (40_construct_and_pins.md R110). -/
def State.level (s : State) : Pin → Level
  | .data => s.data
  | .clock => s.clk
  | .latch => s.lat

/-- The level that is on a line: the one written, or a fresh draw when none was (10_state.md R24; log 6). -/
def State.onLine (s : State) (p : Pin) : Bool :=
  ((s.level p).settled?).getD (Config.freeLevel p s.draws)

/-- How many draws reading the line takes. -/
def State.drawsOf (s : State) (p : Pin) : Nat :=
  if (s.level p).settled?.isSome then 0 else 1

/-- A write of `l` is a rising edge when `l = 1` and the level before it is 0; with `old = U`, exactly when the
drawn level is 0 (40_construct_and_pins.md R111). -/
def risingEdge (was l : Bool) : Bool := l && !was

end Sys2Proof.Machine
end

