-- ==== Sys2Proof/Machine/Ops.lean ====
section
/-! DEFINITION. The shared operations over registers and lines: the pin write with the load's reaction
(spec/40_construct_and_pins.md R111, 60_exceptions.md R245, R246), the advance of SEQPOS (10_state.md R31),
raising an error and ending an operation (60_exceptions.md R238, R239), issuing a request. -/

namespace Sys2Proof.Machine

/-- What every operation answers. -/
abbrev Answer := Host.Outcome State Fault Refusal

/-- LEVEL[pin] <- v. -/
def State.setLevel (s : State) (p : Pin) (v : Level) : State :=
  match p with
  | .data => { s with data := v }
  | .clock => { s with clk := v }
  | .latch => { s with lat := v }

/-- TRACE <- TRACE ++ [(p, l)]. -/
def State.record (s : State) (p : Pin) (l : Bool) : State :=
  { s with trace := s.trace ++ [⟨p, l⟩] }

/-- LOAD_SHIFT: `SR <- SR[14:0] : DATA` (60_exceptions.md R245); with DATA = U the bit is a draw. -/
def State.loadShift (s : State) : State :=
  { s with
    sr := (s.sr.extractLsb' 0 15).concat (s.onLine .data)
    draws := s.draws + s.drawsOf .data }

/-- LOAD_LATCH: `OUT <- SR` (60_exceptions.md R246). -/
def State.loadLatch (s : State) : State := { s with out := s.sr }

/-- A write of 1 to a line the load listens to: it reacts when the write is a rising edge
(40_construct_and_pins.md R111). -/
def State.raiseLine (s : State) (p : Pin) (react : State → State) : State :=
  let s' := ((s.setLevel p .high).record p true)
  let s'' := { s' with draws := s.draws + s.drawsOf p }
  if risingEdge (s.onLine p) true then react s'' else s''

/-- PinWrite(p, l) without its last line: level, trace and load (40_construct_and_pins.md R111). -/
def State.drive (s : State) (p : Pin) (l : Bool) : State :=
  match p, l with
  | .clock, true => s.raiseLine .clock State.loadShift
  | .latch, true => s.raiseLine .latch State.loadLatch
  | _, _ => (s.setLevel p (.ofBool l)).record p l

/-- The end of an operation: IDLE, the operation-lifetime registers cease to exist, the caller is told
(10_state.md R32, 44_refresh_scheduler.md R199). -/
def State.finish (s : State) : State :=
  { s with seqpos := .idle, render := none, result := .done }

/-- Where SEQPOS goes after the last write of a transaction in REFRESH (10_state.md R31). -/
def State.nextInRefresh (s : State) (r : RenderRegs) (pass digit : Nat) : State :=
  if digit + 1 < r.buf.length then { s with seqpos := .refresh pass (digit + 1) 0 }
  else if pass + 1 < r.redrawCount then { s with seqpos := .refresh (pass + 1) 0 0 }
  else if r.clearAfter then { s with seqpos := .clearing 0 0 }
  else s.finish

/-- SEQPOS <- next position, after one pin write (10_state.md R31). -/
def State.advance (s : State) : State :=
  match s.seqpos with
  | .idle | .build => s
  | .refresh pass digit step =>
    if step < 49 then { s with seqpos := .refresh pass digit (step + 1) }
    else
      match s.render with
      | some r => s.nextInRefresh r pass digit
      | none => s.finish
  | .clearing digit step =>
    if step < 49 then { s with seqpos := .clearing digit (step + 1) }
    else if digit + 1 < s.numDisplays then { s with seqpos := .clearing (digit + 1) 0 }
    else s.finish

/-- PinWrite(p, l), the one output primitive (40_construct_and_pins.md R111). -/
def State.pinWrite (s : State) (p : Pin) (l : Bool) : State := (s.drive p l).advance

/-- `raise E(info)`: the operation is abandoned, SEQPOS is IDLE, the operation-lifetime registers cease to
exist, and E goes to the caller; nothing else changes (60_exceptions.md R238). -/
def State.raise (s : State) (e : Error) : State :=
  { s with seqpos := .idle, render := none, result := .raised e }

/-- A value handed to the caller of a level 0 function. -/
def State.give (s : State) (r : Result) : State := { s with result := r }

/-- What every host operation asks first: IDLE (10_state.md R32), and CONSTRUCTED = 1 (R23). -/
def State.whenReady (s : State) (f : State → Answer) : Answer :=
  if s.seqpos ≠ .idle then .refused .notIdle
  else if s.constructed = false then .refused .notConstructed
  else f s

/-- Go on with the next state, if there is one. -/
def andThen (a : Answer) (f : State → Answer) : Answer :=
  match a with
  | .next s => f s
  | .fault r => .fault r
  | .refused r => .refused r

/-- Who may issue an operation (30_encoding.md R80). -/
def mayIssue : Issuer → Instr → Bool
  | .host, i => i.level == 3
  | .controller, i => decide (i.level < 3)

/-- The refusal of an operation whose issuer may not issue it (30_encoding.md R80, R91). -/
def refusalOfIssuer : Issuer → Refusal
  | .host => .notPublic
  | .controller => .hostOnly

/-- The refusal of a record that is no operation (30_encoding.md R91). -/
def refusalOfError : DecodeError → Refusal
  | .unassigned op => .unassignedOpcode op
  | .operandShape op => .operandShape op

/-- A request is decoded and checked before it is performed by `perform`. -/
def issue (perform : Instr → State → Answer) (r : Request) (s : State) : Answer :=
  match decode r.record with
  | .error e => .refused (refusalOfError e)
  | .ok i => if mayIssue r.issuer i then perform i s else .refused (refusalOfIssuer r.issuer)

/-- The block idle and a request placed where the next step takes it (log 2). -/
def State.place (s : State) (r : Request) : State :=
  { s with seqpos := .idle, render := none, pending := r :: s.pending }

end Sys2Proof.Machine
end

