-- ==== Sys2Proof/Machine/Pins.lean ====
section
/-! DEFINITION. The pin micro-operations (spec/40_construct_and_pins.md R110 to R116). -/

namespace Sys2Proof.Machine

/-- `configure_as_output()`: the pin is an output at level U; no event, no edge (40_construct_and_pins.md R110;
log 13). -/
def State.configure (s : State) (p : Pin) : State := s.setLevel p .unsettled

/-- CFG_OUT pin (R110). -/
def execCfgOut (p : Pin) (s : State) : Answer := .next (s.configure p)

/-- DATA_WR b (R112). -/
def execDataWr (b : Bool) (s : State) : Answer := .next (s.pinWrite .data b)

/-- CLK_LO (R113). -/
def execClkLo (s : State) : Answer := .next (s.pinWrite .clock false)

/-- CLK_HI (R114). -/
def execClkHi (s : State) : Answer := .next (s.pinWrite .clock true)

/-- LAT_LO (R115). -/
def execLatLo (s : State) : Answer := .next (s.pinWrite .latch false)

/-- LAT_HI (R116). -/
def execLatHi (s : State) : Answer := .next (s.pinWrite .latch true)

end Sys2Proof.Machine
end

