-- ==== Sys2Proof/Machine/Construct.lean ====
section
/-! DEFINITION. CONSTRUCT (spec/40_construct_and_pins.md R117 to R119). -/

namespace Sys2Proof.Machine

/-- The legal digit counts, 1 to 8 (10_state.md R22, 40_construct_and_pins.md R118). -/
def legalDigits (n : Int) : Bool := decide (1 ≤ n ∧ n ≤ Config.maxDigits)

/-- The registers CONSTRUCT writes, in the order of R117: handles, CFG_OUT of data, clock and latch, digit count,
lifecycle bit. -/
def State.constructWith (s : State) (d c l : PinId) (n : Nat) : State :=
  let s := { s with dataPin := d, clockPin := c, latchPin := l }
  let s := ((s.configure .data).configure .clock).configure .latch
  { s with numDisplays := n, constructed := true }

/-- CONSTRUCT (R117): the checks stand in the order of its pseudocode (log 12). -/
def execConstruct (d c l : PinId) (n : Int) (s : State) : Answer :=
  if s.seqpos ≠ .idle then .refused .notIdle
  else if s.constructed then .refused .alreadyConstructed
  else if legalDigits n = false then .next (s.raise (.invalidConfiguration n))
  else if pairwiseDistinct d c l then .next (s.constructWith d c l n.toNat).finish
  else .refused .pinsNotDistinct

end Sys2Proof.Machine
end

