-- ==== Sys2Proof/Machine/Select.lean ====
section
/-! DEFINITION. The one-hot encoder and the index reversal as operations (spec/43_digit_select.md). -/

namespace Sys2Proof.Machine

/-- ONEHOT p (R180). -/
def execOnehot (p : Nat) (s : State) : Answer := .next (s.give (.mask (selectMask p)))

/-- PHYS n, i (R181). -/
def execPhys (n i : Nat) (s : State) : Answer := .next (s.give (.position (position n i)))

end Sys2Proof.Machine
end

