-- ==== Sys2Proof/Machine/Lookup.lean ====
section
/-! DEFINITION. Character lookup, the point and the buffer build as operations (spec/42_char_lookup.md R150,
R155, R157), and the reference table of R165. -/

namespace Sys2Proof.Machine

/-- ENCODE c (R150): the entry, or "no entry"; a point is looked up like any character (log 17). -/
def execEncodeChar (c : Char) (s : State) : Answer := .next (s.give (.entry (encodeOf s.enc c)))

/-- DP_ON b (R155). -/
def execDpOn (b : Byte) (s : State) : Answer := .next (s.give (.byte (pointOn b)))

/-- BUF <- the bytes built, where the register exists (10_state.md R27). -/
def State.fillBuffer (s : State) (buf : List Byte) : State :=
  { s with render := s.render.map fun r => { r with buf := buf } }

/-- BUILD_BUFFER sequence, start_at, num_displays (R157): the buffer, or the error it raises (log 21). -/
def execBuildBuffer (sequence : List Char) (startAt n : Nat) (s : State) : Answer :=
  match build s.enc sequence startAt n with
  | .error e => .next (s.raise e)
  | .ok buf => .next ((s.fillBuffer buf).give (.buffer buf))

/-- ENC_REF, from general knowledge, for running the vectors of 95_test_vectors.md and for nothing else (R165):
the cells (code point, byte). -/
def encRef : Memory :=
  [(0x20, 0xFF), (0x2D, 0xBF), (0x30, 0xC0), (0x31, 0xF9), (0x32, 0xA4), (0x33, 0xB0), (0x34, 0x99), (0x35, 0x92),
   (0x36, 0x82), (0x37, 0xF8), (0x38, 0x80), (0x39, 0x90), (0x41, 0x88), (0x43, 0xC6), (0x45, 0x86), (0x46, 0x8E)]
  ++ [(0x48, 0x89), (0x4C, 0xC7), (0x4F, 0xC0), (0x50, 0x8C), (0x55, 0xC1), (0x5F, 0xF7), (0x62, 0x83), (0x63, 0xA7),
   (0x64, 0xA1), (0x65, 0x84), (0x6E, 0xAB), (0x6F, 0xA3)]

end Sys2Proof.Machine
end

