-- ==== Sys2Proof/Machine/Serial.lean ====
section
/-! DEFINITION. The serial protocol engine (spec/41_serial_engine.md). -/

namespace Sys2Proof.Machine

/-- The protocol per bit: data, clock low, clock high (41_serial_engine.md R130). -/
def State.sendBit (s : State) (b : Bool) : State :=
  ((s.pinWrite .data b).pinWrite .clock false).pinWrite .clock true

/-- SEND_BYTE: for j in 0 .. 7, bit `k = 7 - j` (R130). -/
def State.sendByte (s : State) (v : Byte) : State :=
  (List.range 8).foldl (fun s j => s.sendBit (v.getLsbD (7 - j))) s

/-- The latch pulse: low, then high (R132). -/
def State.latchPulse (s : State) : State := (s.pinWrite .latch false).pinWrite .latch true

/-- SET_PORT: the segment byte, the low byte of the mask, the latch pulse (R132). -/
def State.setPort (s : State) (seg : Byte) (m : Mask) : State :=
  ((s.sendByte seg).sendByte (lowByte m)).latchPulse

/-- SEND_BYTE value (R130). -/
def execSendByte (v : Byte) (s : State) : Answer := .next (s.sendByte v)

/-- SET_PORT segment_byte, digit_select_mask (R132). -/
def execSetPort (seg : Byte) (m : Mask) (s : State) : Answer := .next (s.setPort seg m)

end Sys2Proof.Machine
end

