-- ==== Sys2Proof/Machine/Refresh.lean ====
section
/-! DEFINITION. The refresh-cycle scheduler (spec/44_refresh_scheduler.md): CLEAR and RENDER, each performed
whole from IDLE to IDLE (R198; log 1). -/

namespace Sys2Proof.Machine

/-- CLEAR's loop: `for i in 0 .. n - 1: call SET_PORT(0xFF, ONEHOT(i))` (R190). -/
def State.clearDigits (s : State) (n : Nat) : State :=
  (List.range n).foldl (fun s i => s.setPort Config.blank (selectMask i)) s

/-- Acceptance of CLEAR (10_state.md R31). -/
def State.acceptClear (s : State) : State := { s with seqpos := .clearing 0 0 }

/-- CLEAR from acceptance to its end (R190). -/
def State.runClear (s : State) : State := (s.acceptClear.clearDigits s.numDisplays).finish

/-- CLEAR (R190). -/
def execClear (s : State) : Answer := s.whenReady fun s => .next s.runClear

/-- REFRESH_PASS: one transaction for each buffer byte, left to right as built (R193). -/
def State.refreshPass (s : State) (n : Nat) (buf : List Byte) : State :=
  buf.zipIdx.foldl (fun s bi => s.setPort bi.1 (selectMask (position n bi.2))) s

/-- `repeat k times` (R194). -/
def State.refreshPasses (s : State) (n : Nat) (buf : List Byte) : Nat → State
  | 0 => s
  | k + 1 => (s.refreshPass n buf).refreshPasses n buf k

/-- Acceptance of RENDER: the operand registers are loaded, BUF is empty, SEQPOS is BUILD (R192; 10_state.md R27,
R31). -/
def State.acceptRender (s : State) (sequence : List Char) (redrawCount : Nat) (clearAfter : Bool)
    (startAt : Nat) : State :=
  { s with render := some ⟨sequence, redrawCount, clearAfter, startAt, []⟩, seqpos := .build }

/-- The end of a successful build (10_state.md R31): REFRESH when LEN > 0; with LEN = 0 the clear or the end. -/
def State.enterRefresh (s : State) (buf : List Byte) (clearAfter : Bool) : State :=
  let s := s.fillBuffer buf
  if buf = [] then
    if clearAfter then { s with seqpos := .clearing 0 0 } else s.finish
  else { s with seqpos := .refresh 0 0 0 }

/-- RENDER from acceptance to its end, or the error of its build (R192). -/
def State.runRender (s : State) (sequence : List Char) (redrawCount : Nat) (clearAfter : Bool)
    (startAt : Nat) : Except Error State :=
  match build s.enc sequence startAt s.numDisplays with
  | .error e => .error e
  | .ok buf =>
    let s₁ := (s.acceptRender sequence redrawCount clearAfter startAt).enterRefresh buf clearAfter
    let s₂ := s₁.refreshPasses s.numDisplays buf redrawCount
    .ok (if clearAfter then s₂.clearDigits s.numDisplays else s₂).finish

/-- RENDER (R192): refusals first, then the build's errors, each before any pin write. -/
def execRender (sequence : List Char) (redrawCount : Nat) (clearAfter : Bool) (startAt : Nat)
    (s : State) : Answer :=
  s.whenReady fun s =>
    if redrawCount = 0 then .refused .zeroRedrawCount
    else
      match s.runRender sequence redrawCount clearAfter startAt with
      | .error e => .next (s.raise e)
      | .ok s' => .next s'

end Sys2Proof.Machine
end

