-- ==== Sys2Proof/Machine/SelfTest.lean ====
section
/-! DEFINITION. The diagnostic operation TEST (spec/45_test.md): a macro over TEST_SCRIPT. -/

namespace Sys2Proof.Machine

/-- The operations of a script, one after the other (R220); an error of one is raised by TEST (log 23). -/
def State.runScript : List ScriptOp → State → Answer
  | [], s => .next s.finish
  | .setPort seg m :: ops, s => State.runScript ops (s.setPort seg m)
  | .clear :: ops, s => State.runScript ops s.runClear
  | .render q rc ca st :: ops, s =>
    if rc = 0 then .refused .zeroRedrawCount
    else
      match s.runRender q rc ca st with
      | .error e => .next (s.raise e)
      | .ok s' => State.runScript ops s'

/-- TEST (R220); refused while TEST_SCRIPT is uninstantiated (R221). -/
def execTest (s : State) : Answer :=
  s.whenReady fun s =>
    match scriptFor s.enc s.scripts s.numDisplays with
    | none => .refused .scriptUninstantiated
    | some ops => State.runScript ops s

end Sys2Proof.Machine
end

