-- ==== Sys2Proof/Machine/Dispatch.lean ====
section
/-! DEFINITION. One arm for each operation (spec/30_encoding.md R82). -/

namespace Sys2Proof.Machine

def exec (i : Instr) (s : State) : Host.Outcome State Fault Refusal :=
  match i with
  | .construct d c l n => Sys2Proof.Machine.execConstruct d c l n s
  | .render q rc ca st => Sys2Proof.Machine.execRender q rc ca st s
  | .clear => Sys2Proof.Machine.execClear s
  | .test => Sys2Proof.Machine.execTest s
  | .sendByte v => Sys2Proof.Machine.execSendByte v s
  | .setPort a m => Sys2Proof.Machine.execSetPort a m s
  | .dataWr b => Sys2Proof.Machine.execDataWr b s
  | .clkLo => Sys2Proof.Machine.execClkLo s
  | .clkHi => Sys2Proof.Machine.execClkHi s
  | .latLo => Sys2Proof.Machine.execLatLo s
  | .latHi => Sys2Proof.Machine.execLatHi s
  | .cfgOut p => Sys2Proof.Machine.execCfgOut p s
  | .encodeChar c => Sys2Proof.Machine.execEncodeChar c s
  | .dpOn b => Sys2Proof.Machine.execDpOn b s
  | .onehot p => Sys2Proof.Machine.execOnehot p s
  | .phys n j => Sys2Proof.Machine.execPhys n j s
  | .buildBuffer q st n => Sys2Proof.Machine.execBuildBuffer q st n s

end Sys2Proof.Machine
end

