-- ==== Sys2Proof/Machine/Sequencer.lean ====
section
/-! DEFINITION. The sequencer of an operation in progress (spec/10_state.md R30, R31): which pin write stands at
SEQPOS, and the end of BUILD. -/

namespace Sys2Proof.Machine

/-- Within a shifted byte, step `t` addresses bit `7 - t / 3`: data write, clock low, clock high (R30). -/
def microOpOfByte (v : Byte) (t : Nat) : Instr :=
  match t % 3 with
  | 0 => .dataWr (v.getLsbD (7 - t / 3))
  | 1 => .clkLo
  | _ => .clkHi

/-- Step `t` of a transaction: 0 to 23 the segment byte, 24 to 47 the select byte, 48 latch low, 49 latch high
(R30). -/
def microOp (seg sel : Byte) (t : Nat) : Option Instr :=
  if t < 24 then some (microOpOfByte seg t)
  else if t < 48 then some (microOpOfByte sel (t - 24))
  else if t = 48 then some .latLo
  else if t = 49 then some .latHi
  else none

/-- The pin micro-operation at SEQPOS, if it names one (R30; 44_refresh_scheduler.md R190, R193). -/
def State.current (s : State) : Option Instr :=
  match s.seqpos, s.render with
  | .refresh _ digit step, some r =>
    (r.buf[digit]?).bind fun seg => microOp seg (selectByte (position s.numDisplays digit)) step
  | .clearing digit step, _ =>
    if digit < s.numDisplays then microOp Config.blank (selectByte digit) step else none
  | _, _ => none

/-- The step out of BUILD (R31): the whole build at once, then REFRESH, or the error it raises (log 26). -/
def State.continueBuild (s : State) : Answer :=
  match s.render with
  | none => .fault .noSuchPosition
  | some r =>
    match build s.enc r.seq r.startAt s.numDisplays with
    | .error e => .next (s.raise e)
    | .ok buf => .next (s.enterRefresh buf r.clearAfter)

end Sys2Proof.Machine
end

