-- ==== Sys2Proof/Machine/Step.lean ====
section
/-! DEFINITION. One step of the controller. IDLE is the only state in which an operation is accepted
(spec/10_state.md R32); an operation in progress goes on by one pin write (R31; log 1). -/

namespace Sys2Proof.Machine

/-- IDLE: the next request is issued, or nothing happens (60_exceptions.md R251; log 19). BUILD: the build.
REFRESH and CLEARING: the pin micro-operation at SEQPOS. -/
def step (s : State) : Host.Outcome State Fault Refusal :=
  match s.seqpos with
  | .idle =>
    match s.pending with
    | [] => .next s
    | r :: rest => issue exec r { s with pending := rest }
  | .build => s.continueBuild
  | .refresh .. | .clearing .. =>
    match s.current with
    | some i => exec i s
    | none => .fault .noSuchPosition

/-- `s` with the word of an opcode-table row placed as the next request (log 2). -/
def State.withFetchWord (s : State) (nbits w : Nat) : State := s.place (tableRequest nbits w)

end Sys2Proof.Machine
end

