-- ==== Sys2Proof/Machine/View.lean ====
section
/-! DEFINITION. What claims are stated over: pin events, frames and the frame list of a trace (spec/00_scope.md R9,
30_encoding.md R89, R90), what is lit and the image (60_exceptions.md R247, R248). The step uses none of it. -/

namespace Sys2Proof.Machine

/-- `pin[1:0] : level`, the three bits of a pin event (30_encoding.md R89). -/
def PinEvent.code (e : PinEvent) : BitVec 3 := e.pin.bits ++ BitVec.ofBool e.level

/-- `D<b> C0 C1` (41_serial_engine.md R130). -/
def bitEvents (b : Bool) : List PinEvent := [⟨.data, b⟩, ⟨.clock, false⟩, ⟨.clock, true⟩]

/-- The 24 events of a byte, most significant bit first (20_memory.md R51). -/
def byteEvents (v : Byte) : List PinEvent := (List.range 8).flatMap fun j => bitEvents (v.getLsbD (7 - j))

/-- The 50 events of a transaction (30_encoding.md R90). -/
def frameEvents (f : Frame) : List PinEvent :=
  byteEvents (segOf f) ++ byteEvents (selOf f) ++ [⟨.latch, false⟩, ⟨.latch, true⟩]

/-- A frame list stands for the pin trace of its transactions (44_refresh_scheduler.md). -/
def framesEvents (fs : List Frame) : List PinEvent := fs.flatMap frameEvents

/-- The load as a stranger at the pins sees it: the three line levels and the chain (00_scope.md R9). -/
structure Probe where
  data : Bool
  clk : Bool
  lat : Bool
  sr : BitVec 16
  deriving DecidableEq, Repr

/-- What one pin write does to the chain at the probe; a rising latch edge commits the chain (60_exceptions.md
R245, R246). -/
def Probe.see (p : Probe) (e : PinEvent) : Probe × Option Frame :=
  match e.pin with
  | .data => ({ p with data := e.level }, none)
  | .clock =>
    ({ p with
        clk := e.level
        sr := if risingEdge p.clk e.level then (p.sr.extractLsb' 0 15).concat p.data else p.sr }, none)
  | .latch => ({ p with lat := e.level }, if risingEdge p.lat e.level then some p.sr else none)

/-- The frame list of a pin trace: the values OUT takes at its latch edges, whatever the lines and the chain held
before (41_serial_engine.md R136). -/
def Probe.frames : Probe → List PinEvent → List Frame
  | _, [] => []
  | p, e :: es =>
    match p.see e with
    | (p', some f) => f :: Probe.frames p' es
    | (p', none) => Probe.frames p' es

/-- Segment `k` (7 the point) of the digit at position `p` is lit (60_exceptions.md R247). -/
def lit (out : Frame) (n p k : Nat) : Bool :=
  decide (p < n) && decide (k < 8) && (selOf out).getLsbD p && !(segOf out).getLsbD k

/-- IMAGE(p), or nothing where the digit is dark for want of a buffer byte (60_exceptions.md R248). -/
def image (n : Nat) (buf : List Byte) (p : Nat) : Option Byte :=
  if p < n ∧ n - buf.length ≤ p then buf[n - 1 - p]? else none

/-- The handle a line goes by (10_state.md R21). -/
def State.handle (s : State) : Pin → PinId
  | .data => s.dataPin
  | .clock => s.clockPin
  | .latch => s.latchPin

/-- The writes as they reach the platform's pins (10_state.md R21). -/
def State.lineTrace (s : State) : List (PinId × Bool) := s.trace.map fun e => (s.handle e.pin, e.level)

/-- The number of transactions of a RENDER, T (44_refresh_scheduler.md R197). -/
def transactions (n redrawCount : Nat) (clearAfter : Bool) (len : Nat) : Nat :=
  redrawCount * len + if clearAfter then n else 0

end Sys2Proof.Machine
end

