-- ==== Sys2Proof/Safety.lean ====
section
/-! DEFINITION. What a good state and a good run are, in the terms the claims use. -/

namespace Sys2Proof.Machine

/-- The constraints E1 to E8 on ENC (spec/42_char_lookup.md R151; E1 as read in log 4), the entries of the letters of
"done" in some case, and the canonical form. -/
structure EncOk (enc : Memory) : Prop where
  canonical : Memory.wf enc = true
  printable : ∀ a b, Memory.read enc a = some b → 0x20 ≤ a ∧ a ≤ 0x7E
  one_case : ∃ k < 26, (Memory.read enc (0x41 + k)).isSome ≠ (Memory.read enc (0x61 + k)).isSome
  both_cases : ∃ k < 26, (Memory.read enc (0x41 + k)).isSome = true ∧ (Memory.read enc (0x61 + k)).isSome = true
  done_letters : ∀ k ∈ [3, 14, 13, 4],
    (Memory.read enc (0x41 + k)).isSome = true ∨ (Memory.read enc (0x61 + k)).isSome = true
  space : encodeOf enc ' ' = some 0xFF#8
  letter_O : encodeOf enc 'O' = encodeOf enc '0'
  digits : ∀ a, 0x30 ≤ a → a ≤ 0x39 → (Memory.read enc a).isSome = true
  point_dark : ∀ a b, Memory.read enc a = some b → b.getLsbD 7 = true

/-- What holds of the configuration registers once CONSTRUCTED (10_state.md R22; 40_construct_and_pins.md R119 (a)):
1 to 8 digits, three different pins, every pin an output. -/
structure ConfigOk (s : State) : Prop where
  some_digits : 1 ≤ s.numDisplays
  at_most_eight : s.numDisplays ≤ 8
  distinct : pairwiseDistinct s.dataPin s.clockPin s.latchPin
  outputs : s.data ≠ .undriven ∧ s.clk ≠ .undriven ∧ s.lat ≠ .undriven

/-- Within a transaction (40_construct_and_pins.md R119 (c)): CLK_HI finds CLK = 0 and a written DATA, LAT_HI finds
LAT = 0. -/
structure LinesOk (s : State) (step : Nat) : Prop where
  in_range : step < 50
  clk_low : step < 48 → step % 3 = 2 → s.clk = .low
  data_written : step < 48 → step % 3 ≠ 0 → s.data.settled?.isSome = true
  lat_low : step = 49 → s.lat = .low

/-- SEQPOS is a position of the operation in progress (10_state.md R30), and the operation-lifetime registers exist
exactly when a RENDER is in progress (R28). -/
def PositionOk (s : State) : Prop :=
  match s.seqpos with
  | .idle => s.render = none
  | .build => s.constructed = true ∧ ∃ r, s.render = some r ∧ r.buf = [] ∧ 1 ≤ r.redrawCount
  | .refresh pass digit step =>
    s.constructed = true ∧ LinesOk s step ∧
      ∃ r, s.render = some r ∧ r.buf.length ≤ s.numDisplays ∧ digit < r.buf.length ∧ pass < r.redrawCount
  | .clearing digit step =>
    s.constructed = true ∧ LinesOk s step ∧ digit < s.numDisplays ∧
      ∀ r, s.render = some r → r.buf.length ≤ s.numDisplays ∧ r.clearAfter = true

/-- The invariant of the machine. -/
structure Inv (s : State) : Prop where
  config : s.constructed = true → ConfigOk s
  enc : EncOk s.enc
  scripts : ∀ e ∈ s.scripts, e.2.conforms s.enc e.1 = true
  position : PositionOk s

/-- The configuration registers, the constant tables and the host's requests are what they were (10_state.md R20,
R26). -/
structure KeepsConfiguration (s t : State) : Prop where
  constructed : t.constructed = s.constructed
  dataPin : t.dataPin = s.dataPin
  clockPin : t.clockPin = s.clockPin
  latchPin : t.latchPin = s.latchPin
  numDisplays : t.numDisplays = s.numDisplays
  enc : t.enc = s.enc
  scripts : t.scripts = s.scripts
  pending : t.pending = s.pending

/-- The lines and the load are what they were (10_state.md R24, R33, R34). -/
structure KeepsLines (s t : State) : Prop where
  data : t.data = s.data
  clk : t.clk = s.clk
  lat : t.lat = s.lat
  sr : t.sr = s.sr
  out : t.out = s.out
  trace : t.trace = s.trace

/-- SEQPOS, the operation-lifetime registers and the outcome are what they were. -/
structure KeepsPosition (s t : State) : Prop where
  seqpos : t.seqpos = s.seqpos
  render : t.render = s.render
  result : t.result = s.result

/-- Nothing but a pin's level is unspecified: a line that was never written (10_state.md R24, R36). -/
def Level.unspecified (v : Level) : Prop := v = .unsettled ∨ v = .undriven

/-- Operations performed one after the other, each through `exec` (20_memory.md R61). -/
def execAll : List Instr → State → Answer
  | [], s => .next s
  | i :: is, s => andThen (exec i s) (execAll is)

/-- The pin micro-operations of a byte, in order (41_serial_engine.md R130). -/
def byteOps (v : Byte) : List Instr :=
  (List.range 8).flatMap fun j => [.dataWr (v.getLsbD (7 - j)), .clkLo, .clkHi]

/-- The pin micro-operations of a transaction, in order (41_serial_engine.md R132). -/
def transactionOps (seg sel : Byte) : List Instr := byteOps seg ++ byteOps sel ++ [.latLo, .latHi]

/-- The lines and the load after the frames `fs`, in order, have been sent (41_serial_engine.md R133, R136). -/
def State.sent (s : State) (fs : List Frame) : State :=
  match fs.getLast? with
  | none => s
  | some f =>
    { s with
      data := .ofBool (f.getLsbD 0)
      clk := .high
      lat := .high
      sr := f
      out := f
      trace := s.trace ++ framesEvents fs }

end Sys2Proof.Machine
end

