-- ==== Sys2Proof/Certificates/Slice0/Obligations.lean ====
section
/-! DEFINITION. What is claimed of the machine. Each statement cites the rules of spec/ it rests on; where it rests on
a decision of the spec or of the model, its docstring says so. -/

open Sys2Proof Sys2Proof.Machine

/-! ## Encoding -/

/-- 30_encoding.md R81, R82 (the opcode numbers are the spec's own labels, D1; log 3): a record decodes to an operation
exactly when it is that operation's record. -/
def Obligations.DecodeIsTheInverseOfEncode : Prop :=
  ∀ (r : Record) (i : Instr), decode r = .ok i ↔ r = encode i

/-- Words of 30_encoding.md R82 read bit by bit: opcode bytes with their operands stand for the operations named there. -/
def Obligations.SpecWordsDecodeToTheirOperations : Prop :=
  decode ⟨0b00000001, [.pin 7, .pin 8, .pin 9, .int 4]⟩ = .ok (.construct 7 8 9 4) ∧
  decode ⟨0b00000010, [.text ['1', '.', '2'], .nat 2, .flag true, .nat 0]⟩ = .ok (.render ['1', '.', '2'] 2 true 0) ∧
  decode ⟨0b00000011, []⟩ = .ok .clear ∧
  decode ⟨0b00010001, [.byte 0xFF, .mask 0x00000001]⟩ = .ok (.setPort 0xFF 0x00000001) ∧
  decode ⟨0b00100001, []⟩ = .ok (.dataWr true) ∧
  decode ⟨0b00100100, []⟩ = .ok .latLo ∧
  decode ⟨0b00101010, []⟩ = .ok (.cfgOut .latch) ∧
  decode ⟨0b00110011, [.nat 4, .nat 3]⟩ = .ok (.phys 4 3)

/-- 30_encoding.md R91, "any `op` value not in rule R82: unassigned" (and 0x2B, opcode_table.json): such a record is no
operation, and a step that meets it refuses it. So is a record with an assigned opcode that is no operation's record: its
operand fields are not those of its format (R81; log 3). -/
def Obligations.UnassignedOpcodesAreRefused : Prop :=
  ∀ (op : Byte) (args : List Operand) (who : Issuer) (rest : List Request) (s : State),
    s.seqpos = .idle → s.pending = ⟨who, ⟨op, args⟩⟩ :: rest →
    (op.toNat ∉ [0x01, 0x02, 0x03, 0x04, 0x10, 0x11, 0x20, 0x21, 0x22, 0x23, 0x24, 0x25, 0x28, 0x29, 0x2A,
        0x30, 0x31, 0x32, 0x33, 0x34] →
      decode ⟨op, args⟩ = .error (.unassigned op) ∧ step s = .refused (.unassignedOpcode op)) ∧
    (op.toNat ∈ [0x01, 0x02, 0x03, 0x04, 0x10, 0x11, 0x20, 0x21, 0x22, 0x23, 0x24, 0x25, 0x28, 0x29, 0x2A,
        0x30, 0x31, 0x32, 0x33, 0x34] → (∀ i, encode i ≠ ⟨op, args⟩) →
      decode ⟨op, args⟩ = .error (.operandShape op) ∧ step s = .refused (.operandShape op))

/-- 30_encoding.md R83: whichever of the three optional operands are left out, each takes its own default. -/
def Obligations.OmittedOperandsTakeTheirDefaults : Prop :=
  (∀ q rc ca st, RenderCall.toInstr { sequence := q, redrawCount := rc, clearAfter := ca, startAt := st } =
      .render q (rc.getD 100) (ca.getD true) (st.getD 0)) ∧
  (∀ q rc ca st, ∃ op, encode (.render q rc ca st) = ⟨op, [.text q, .nat rc, .flag ca, .nat st]⟩) ∧
  ∀ q rc ca, renderWithoutStartAt q rc ca = .render q rc ca 0

/-! ## Reset, invariant, the step -/

/-- 10_state.md R36, both columns of its table (unspecified values are opaque draws, logs 7 to 9; no edge at pin
configuration, log 13; the empty trace, log 30). -/
def Obligations.ResetAndConstructedValues : Prop :=
  (State.reset.dataPin = Config.initPinId .data ∧ State.reset.clockPin = Config.initPinId .clock ∧
    State.reset.latchPin = Config.initPinId .latch ∧ State.reset.numDisplays = Config.initNumDisplays ∧
    State.reset.constructed = false ∧ State.reset.seqpos = .idle ∧ State.reset.render = none ∧
    State.reset.data = .undriven ∧ State.reset.clk = .undriven ∧ State.reset.lat = .undriven ∧
    State.reset.sr = Config.initSr ∧ State.reset.out = Config.initOut ∧ State.reset.trace = [] ∧
    State.reset.enc = Config.encTable) ∧
  ∀ (d c l : PinId) (n : Int), 1 ≤ n → n ≤ 8 → d ≠ c → d ≠ l → c ≠ l →
    ∃ t, exec (.construct d c l n) State.reset = .next t ∧ t.constructed = true ∧ t.dataPin = d ∧ t.clockPin = c ∧
      t.latchPin = l ∧ (t.numDisplays : Int) = n ∧ t.data = .unsettled ∧ t.clk = .unsettled ∧ t.lat = .unsettled ∧
      t.render = none ∧ t.seqpos = .idle ∧ t.sr = Config.initSr ∧ t.out = Config.initOut ∧ t.trace = [] ∧
      t.enc = Config.encTable

/-- The state after reset meets the invariant. -/
def Obligations.ResetMeetsTheInvariant : Prop := Inv State.reset

/-- The invariant (`Inv` in Safety.lean: 1 to 8 digits and three distinct output pins once constructed, the table's
constraints and those of the scripts, SEQPOS a position of the operation in progress, CLK_HI and LAT_HI directly after their low writes) is kept
by every step. 10_state.md R22, R27, R30; 40_construct_and_pins.md R119; 42_char_lookup.md R151; 45_test.md R221. -/
def Obligations.StepKeepsTheInvariant : Prop :=
  ∀ s t : State, Inv s → step s = .next t → Inv t

/-- A machine that meets the invariant never gets stuck, and an operation in progress always goes on (44_refresh_scheduler.md
R198; 70_reset_and_hazards.md R274). -/
def Obligations.OperationInProgressGoesOn : Prop :=
  ∀ s : State, Inv s → (∀ f, step s ≠ .fault f) ∧ (s.seqpos ≠ .idle → ∃ t, step s = .next t)

/-- 30_encoding.md R80: in IDLE, a request whose record decodes and whose issuer may issue it is performed by `exec`, and
taken from the requests (log 2). -/
def Obligations.StepPerformsTheDecodedOperation : Prop :=
  ∀ (s : State) (who : Issuer) (r : Record) (rest : List Request) (i : Instr),
    s.seqpos = .idle → s.pending = ⟨who, r⟩ :: rest → decode r = .ok i →
    ((who = .host ∧ i.level = 3) ∨ (who = .controller ∧ i.level < 3)) →
    step s = exec i { s with pending := rest }

/-- 30_encoding.md R91, 60_exceptions.md R242: a level 2, 1 or 0 operation presented by the host is refused. That a
host operation presented as the controller's own is refused is the model's choice (log 31). -/
def Obligations.OperationsOfTheWrongIssuerAreRefused : Prop :=
  ∀ (s : State) (r : Record) (rest : List Request) (i : Instr), s.seqpos = .idle → decode r = .ok i →
    (s.pending = ⟨.host, r⟩ :: rest → i.level < 3 → step s = .refused .notPublic) ∧
    (s.pending = ⟨.controller, r⟩ :: rest → i.level = 3 → step s = .refused .hostOnly)

/-- 60_exceptions.md R251: between operations the block is idle and everything keeps its value (log 19). -/
def Obligations.IdleBlockKeepsEverything : Prop :=
  ∀ s : State, s.seqpos = .idle → s.pending = [] → step s = .next s

/-- 10_state.md R32: IDLE is the only state in which an operation is accepted, and every host operation ends in it. -/
def Obligations.OperationsStartAndEndIdle : Prop :=
  (∀ s t : State, s.seqpos ≠ .idle → step s = .next t → t.pending = s.pending) ∧
  (∀ (i : Instr) (s : State), i.level = 3 → s.seqpos ≠ .idle → exec i s = .refused .notIdle) ∧
  ∀ (i : Instr) (s t : State), i.level = 3 → exec i s = .next t → t.seqpos = .idle

/-- 10_state.md R20, R21 to R23, R26: once constructed, no operation and no step changes the configuration registers or the
constant tables. -/
def Obligations.ConfigurationIsWrittenOnce : Prop :=
  ∀ (i : Instr) (s t : State), s.constructed = true → (exec i s = .next t ∨ step s = .next t) →
    t.constructed = true ∧ t.dataPin = s.dataPin ∧ t.clockPin = s.clockPin ∧ t.latchPin = s.latchPin ∧
      t.numDisplays = s.numDisplays ∧ t.enc = s.enc ∧ t.scripts = s.scripts

/-- 20_memory.md R56, R61, R63: one step of an operation in progress performs at most one pin write, and OUT changes only
at the write of step 49, to the whole of SR. -/
def Obligations.OutChangesOnlyAtTheLatchWrite : Prop :=
  ∀ s t : State, s.seqpos ≠ .idle → step s = .next t →
    (t.trace = s.trace ∨ ∃ e, t.trace = s.trace ++ [e]) ∧
    (t.out = s.out ∨
      (t.out = s.sr ∧ t.trace = s.trace ++ [⟨.latch, true⟩] ∧
        ((∃ pass digit, s.seqpos = .refresh pass digit 49) ∨ ∃ digit, s.seqpos = .clearing digit 49)))

/-- 10_state.md R30, R31 (the spec's own sequencer, D3): performed pin write by pin write from its acceptance, RENDER or
CLEAR reaches exactly the state `exec` answers, in one step for the build and 50 for each transaction; a RENDER whose
build raises ends after that one step. -/
def Obligations.SequencerPerformsTheWholeOperation : Prop :=
  (∀ s : State, s.seqpos = .idle → s.constructed = true → 1 ≤ s.numDisplays →
    Sys2Proof.core.run (50 * s.numDisplays) s.acceptClear = exec .clear s) ∧
  (∀ (s : State) (q : List Char) (rc st : Nat) (ca : Bool) (buf : List Byte), s.seqpos = .idle → s.constructed = true →
    1 ≤ s.numDisplays → 1 ≤ rc → build s.enc q st s.numDisplays = .ok buf →
    Sys2Proof.core.run (1 + 50 * (rc * buf.length + if ca then s.numDisplays else 0)) (s.acceptRender q rc ca st) =
      exec (.render q rc ca st) s) ∧
  ∀ (s : State) (q : List Char) (rc st : Nat) (ca : Bool) (e : Error), s.seqpos = .idle → s.constructed = true →
    1 ≤ rc → build s.enc q st s.numDisplays = .error e →
    Sys2Proof.core.run 1 (s.acceptRender q rc ca st) = exec (.render q rc ca st) s

/-! ## Pin micro-operations -/

/-- 40_construct_and_pins.md R112, at every state: DATA takes the level, the event is recorded, SEQPOS advances, nothing
else changes; the encoding the rule gives. -/
def Obligations.DataWriteDrivesTheDataLine : Prop :=
  ∀ (b : Bool) (s : State), encode (.dataWr b) = ⟨0x20 + (if b then 1 else 0), []⟩ ∧
    exec (.dataWr b) s = .next (State.advance
      { s with data := if b then .high else .low, trace := s.trace ++ [⟨.data, b⟩] })

/-- 40_construct_and_pins.md R113 and R115, at every state: the line goes low, the event is recorded, SEQPOS advances,
nothing else changes; the encodings the rules give. -/
def Obligations.LowWritesDoNotTouchTheLoad : Prop :=
  encode .clkLo = ⟨0x22, []⟩ ∧ encode .latLo = ⟨0x24, []⟩ ∧ ∀ s : State,
    exec .clkLo s = .next (State.advance { s with clk := .low, trace := s.trace ++ [⟨.clock, false⟩] }) ∧
    exec .latLo s = .next (State.advance { s with lat := .low, trace := s.trace ++ [⟨.latch, false⟩] })

/-- 40_construct_and_pins.md R114: with CLK = 0 and a written DATA, CLK_HI is a rising edge and the load shifts DATA in at
bit 0 (60_exceptions.md R245). -/
def Obligations.ClockHighShiftsTheDataLevelIn : Prop :=
  ∀ (b : Bool) (s : State), s.clk = .low → s.data = (if b then .high else .low) →
    exec .clkHi s = .next (State.advance
      { s with clk := .high, trace := s.trace ++ [⟨.clock, true⟩],
               sr := (s.sr <<< 1) ||| (BitVec.ofBool b).setWidth 16 })

/-- 40_construct_and_pins.md R116: with LAT = 0, LAT_HI is a rising edge and OUT takes the whole of SR (60_exceptions.md
R246). -/
def Obligations.LatchHighCommitsTheChain : Prop :=
  ∀ s : State, s.lat = .low →
    exec .latHi s = .next (State.advance
      { s with lat := .high, trace := s.trace ++ [⟨.latch, true⟩], out := s.sr })

/-- 40_construct_and_pins.md R111: a write of 1 to a line that is 1 is no edge; to a line that was never written it is an
edge exactly when the drawn level is 0, whatever the draw (logs 6 and 7). At a rising clock edge with DATA never written
the bit shifted in is a draw, and the chain shifts all the same (60_exceptions.md R245; log 6). With neither line written,
as right after CONSTRUCT, the clock's draw comes first. -/
def Obligations.HighWritesWithoutAKnownEdge : Prop :=
  ∀ s : State,
    (s.clk = .high → exec .clkHi s = .next (State.advance { s with trace := s.trace ++ [⟨.clock, true⟩] })) ∧
    (s.lat = .high → exec .latHi s = .next (State.advance { s with trace := s.trace ++ [⟨.latch, true⟩] })) ∧
    (∀ b, s.clk.unspecified → s.data = (if b then .high else .low) →
      exec .clkHi s = .next (State.advance
        { s with clk := .high, trace := s.trace ++ [⟨.clock, true⟩], draws := s.draws + 1,
                 sr := if Config.freeLevel .clock s.draws then s.sr
                       else (s.sr <<< 1) ||| (BitVec.ofBool b).setWidth 16 })) ∧
    (s.lat.unspecified →
      exec .latHi s = .next (State.advance
        { s with lat := .high, trace := s.trace ++ [⟨.latch, true⟩], draws := s.draws + 1,
                 out := if Config.freeLevel .latch s.draws then s.out else s.sr })) ∧
    (s.clk = .low → s.data.unspecified →
      exec .clkHi s = .next (State.advance
        { s with clk := .high, trace := s.trace ++ [⟨.clock, true⟩], draws := s.draws + 1,
                 sr := (s.sr <<< 1) ||| (BitVec.ofBool (Config.freeLevel .data s.draws)).setWidth 16 })) ∧
    (s.clk.unspecified → s.data.unspecified →
      exec .clkHi s = .next (State.advance
        { s with clk := .high, trace := s.trace ++ [⟨.clock, true⟩],
                 draws := if Config.freeLevel .clock s.draws then s.draws + 1 else s.draws + 2,
                 sr := if Config.freeLevel .clock s.draws then s.sr
                       else (s.sr <<< 1) ||| (BitVec.ofBool (Config.freeLevel .data (s.draws + 1))).setWidth 16 }))

/-- 40_construct_and_pins.md R110, at every state: the pin is an output at level U, and nothing else changes. -/
def Obligations.ConfiguredPinIsUnsettled : Prop :=
  ∀ s : State,
    exec (.cfgOut .data) s = .next { s with data := .unsettled } ∧
    exec (.cfgOut .clock) s = .next { s with clk := .unsettled } ∧
    exec (.cfgOut .latch) s = .next { s with lat := .unsettled }

/-- 20_memory.md R57, 40_construct_and_pins.md R111: each of the five pin writes completes at every state, its event is
recorded even when the level does not change, and the configuration, the requests and the other lines are untouched. -/
def Obligations.PinWritesCompleteAndAreRecorded : Prop :=
  ∀ s : State, ∀ e : PinEvent, ∃ (i : Instr) (t : State),
    i = (match e.pin, e.level with
      | .data, b => Instr.dataWr b
      | .clock, false => .clkLo
      | .clock, true => .clkHi
      | .latch, false => .latLo
      | .latch, true => .latHi) ∧
    exec i s = .next t ∧ t.trace = s.trace ++ [e] ∧ KeepsConfiguration s t ∧
    (∀ p, t.level p = if p = e.pin then (if e.level then .high else .low) else s.level p) ∧
    (e.pin ≠ .clock → t.sr = s.sr) ∧ (e.pin ≠ .latch → t.out = s.out) ∧
    (s.seqpos = .idle → KeepsPosition s t)

/-- 10_state.md R31 (the spec's own sequencer, D3): where SEQPOS goes after a pin write, and that the operation-lifetime
registers end with the operation (44_refresh_scheduler.md R199). -/
def Obligations.SequencerAdvancesAsTheTableSays : Prop :=
  ∀ (s t : State) (i : Instr), i ∈ [.dataWr false, .dataWr true, .clkLo, .clkHi, .latLo, .latHi] → exec i s = .next t →
    (s.seqpos = .idle → t.seqpos = .idle) ∧
    (∀ pass digit step, s.seqpos = .refresh pass digit step → step < 49 →
      t.seqpos = .refresh pass digit (step + 1) ∧ t.render = s.render) ∧
    (∀ pass digit r, s.seqpos = .refresh pass digit 49 → s.render = some r →
      t.seqpos = (if digit + 1 < r.buf.length then .refresh pass (digit + 1) 0
        else if pass + 1 < r.redrawCount then .refresh (pass + 1) 0 0
        else if r.clearAfter then .clearing 0 0 else .idle) ∧
      (t.seqpos = .idle → t.render = none ∧ t.result = .done)) ∧
    (∀ digit step, s.seqpos = .clearing digit step → step < 49 →
      t.seqpos = .clearing digit (step + 1) ∧ t.render = s.render) ∧
    (∀ digit, s.seqpos = .clearing digit 49 →
      t.seqpos = (if digit + 1 < s.numDisplays then .clearing (digit + 1) 0 else .idle) ∧
      (t.seqpos = .idle → t.render = none ∧ t.result = .done))

/-! ## CONSTRUCT -/

/-- 40_construct_and_pins.md R117: CONSTRUCT of an unconstructed block with three distinct pins and 1 to 8 digits. -/
def Obligations.ConstructStoresTheConfiguration : Prop :=
  ∀ (d c l : PinId) (n : Nat) (s : State), s.seqpos = .idle → s.constructed = false → 1 ≤ n → n ≤ 8 →
    d ≠ c → d ≠ l → c ≠ l →
    exec (.construct d c l n) s = .next
      { s with constructed := true, dataPin := d, clockPin := c, latchPin := l, numDisplays := n,
               data := .unsettled, clk := .unsettled, lat := .unsettled, render := none, result := .done }

/-- 60_exceptions.md R233: InvalidConfiguration, before any pin is configured and any register written (with pins that are
not distinct as well: the order of R117's pseudocode, log 12). -/
def Obligations.IllegalDigitCountRaises : Prop :=
  ∀ (d c l : PinId) (n : Int) (s : State), s.seqpos = .idle → s.constructed = false → s.render = none →
    (n ≤ 0 ∨ 8 < n) →
    exec (.construct d c l n) s = .next { s with result := .raised (.invalidConfiguration n) }

/-! ## The serial engine -/

/-- 41_serial_engine.md R130: SEND_BYTE is eight times DATA_WR, CLK_LO, CLK_HI, from bit 7 down to bit 0, and its pin trace
is their 24 events. -/
def Obligations.SendByteIsEightBitPulses : Prop :=
  ∀ (v : Byte) (s : State), encode (.sendByte v) = ⟨0x10, [.byte v]⟩ ∧
    exec (.sendByte v) s = execAll
      [.dataWr (v.getLsbD 7), .clkLo, .clkHi, .dataWr (v.getLsbD 6), .clkLo, .clkHi,
       .dataWr (v.getLsbD 5), .clkLo, .clkHi, .dataWr (v.getLsbD 4), .clkLo, .clkHi,
       .dataWr (v.getLsbD 3), .clkLo, .clkHi, .dataWr (v.getLsbD 2), .clkLo, .clkHi,
       .dataWr (v.getLsbD 1), .clkLo, .clkHi, .dataWr (v.getLsbD 0), .clkLo, .clkHi] s ∧
    ∃ t, exec (.sendByte v) s = .next t ∧
      t.trace = s.trace ++
        [7, 6, 5, 4, 3, 2, 1, 0].flatMap fun k => [⟨.data, v.getLsbD k⟩, ⟨.clock, false⟩, ⟨.clock, true⟩]

/-- 20_memory.md R51: the data line takes `value[7]` down to `value[0]`, and the source's example. -/
def Obligations.BytesGoOutMostSignificantBitFirst : Prop :=
  (∀ (v : Byte) (s : State), ∃ t, exec (.sendByte v) s = .next t ∧ ∃ ev, t.trace = s.trace ++ ev ∧
    (ev.filter fun e => e.pin == .data).map PinEvent.level =
      [v.getLsbD 7, v.getLsbD 6, v.getLsbD 5, v.getLsbD 4, v.getLsbD 3, v.getLsbD 2, v.getLsbD 1, v.getLsbD 0]) ∧
  ∀ s : State, ∃ t, exec (.sendByte 0b10110000) s = .next t ∧ ∃ ev, t.trace = s.trace ++ ev ∧
    (ev.filter fun e => e.pin == .data).map PinEvent.level = [true, false, true, true, false, false, false, false]

/-- 41_serial_engine.md R131 (derived by the spec): the state after SEND_BYTE, whatever the state before. -/
def Obligations.SendByteLeavesTheByteInTheChain : Prop :=
  ∀ (v : Byte) (s : State), ∃ t, exec (.sendByte v) s = .next t ∧
    t.data = (if v.getLsbD 0 then .high else .low) ∧ t.clk = .high ∧ t.lat = s.lat ∧
    t.sr = (s.sr <<< 8) ||| v.setWidth 16 ∧ t.out = s.out ∧ t.trace = s.trace ++ byteEvents v ∧
    t.draws = s.draws ∧ KeepsConfiguration s t ∧ (s.seqpos = .idle → KeepsPosition s t)

/-- 41_serial_engine.md R132: SET_PORT is two SEND_BYTEs and a latch pulse, 50 pin writes, for every operand pair. -/
def Obligations.SetPortIsTwoBytesAndALatchPulse : Prop :=
  ∀ (a : Byte) (m : Mask) (s : State), encode (.setPort a m) = ⟨0x11, [.byte a, .mask m]⟩ ∧
    exec (.setPort a m) s = execAll [.sendByte a, .sendByte (m.setWidth 8), .latLo, .latHi] s ∧
    ∃ t, exec (.setPort a m) s = .next t ∧
      t.trace = s.trace ++ (byteEvents a ++ byteEvents (m.setWidth 8) ++ [⟨.latch, false⟩, ⟨.latch, true⟩]) ∧
      t.trace.length = s.trace.length + 50

/-- 41_serial_engine.md R133, R136 (derived by the spec): the state after SET_PORT, whatever the state before. -/
def Obligations.SetPortSpecifiesTheWholeLoad : Prop :=
  ∀ (a : Byte) (m : Mask) (s : State), ∃ t, exec (.setPort a m) s = .next t ∧
    t.data = (if m.getLsbD 0 then .high else .low) ∧ t.clk = .high ∧ t.lat = .high ∧
    t.sr = (a.setWidth 16 <<< 8) ||| (m.setWidth 8).setWidth 16 ∧ t.out = t.sr ∧ t.draws = s.draws ∧
    t.trace = s.trace ++ frameEvents t.out ∧ KeepsConfiguration s t ∧ (s.seqpos = .idle → KeepsPosition s t)

/-- 20_memory.md R52: segment byte first, then the low byte of the mask; bits 31 to 8 make no difference. -/
def Obligations.OnlyTheLowMaskByteTravels : Prop :=
  ∀ (a : Byte) (m m' : Mask) (s : State), (∀ k, k < 8 → m.getLsbD k = m'.getLsbD k) →
    exec (.setPort a m) s = exec (.setPort a m') s ∧
    ∃ t, exec (.setPort a m) s = .next t ∧ ∃ ev, t.trace = s.trace ++ ev ∧
      (ev.filter fun e => e.pin == .data).map PinEvent.level =
        [a.getLsbD 7, a.getLsbD 6, a.getLsbD 5, a.getLsbD 4, a.getLsbD 3, a.getLsbD 2, a.getLsbD 1, a.getLsbD 0,
         m.getLsbD 7, m.getLsbD 6, m.getLsbD 5, m.getLsbD 4, m.getLsbD 3, m.getLsbD 2, m.getLsbD 1, m.getLsbD 0]

/-- 41_serial_engine.md R134 (derived by the spec): during the first 49 pin writes of a transaction OUT keeps the frame
before it; all 50 are the transaction. -/
def Obligations.NoMixedFrameIsVisible : Prop :=
  ∀ (a : Byte) (m : Mask) (s : State),
    (∀ k, k < 50 → ∃ t, execAll ((transactionOps a (m.setWidth 8)).take k) s = .next t ∧ t.out = s.out) ∧
    execAll (transactionOps a (m.setWidth 8)) s = exec (.setPort a m) s

/-- 40_construct_and_pins.md R119 (c) (derived by the spec): in what a host operation, SEND_BYTE or SET_PORT writes, each
CLK_HI directly follows a CLK_LO and each LAT_HI a LAT_LO. -/
def Obligations.EveryHighWriteFollowsItsLowWrite : Prop :=
  ∀ (i : Instr) (s t : State), 2 ≤ i.level → exec i s = .next t → ∃ ev, t.trace = s.trace ++ ev ∧
    ∀ (front back : List PinEvent) (p : Pin), p ≠ .data → ev = front ++ ⟨p, true⟩ :: back →
      front.getLast? = some ⟨p, false⟩

/-! ## Character lookup and the buffer -/

/-- 42_char_lookup.md R150: ENCODE completes at every state, whatever the table is, with the entry of the character or with
no entry, whatever the position; nothing else changes. That a point is looked up like any other character is log 17. -/
def Obligations.EncodeAnswersTheEntry : Prop :=
  ∀ (c : Char) (s : State), encode (.encodeChar c) = ⟨0x30, [.char c]⟩ ∧
    (∃ e, exec (.encodeChar c) s = .next { s with result := .entry e } ∧ ∀ b, e = some b → (c.toNat, b) ∈ s.enc) ∧
    (∀ b, (c.toNat, b) ∈ s.enc → Memory.wf s.enc = true →
      exec (.encodeChar c) s = .next { s with result := .entry (some b) }) ∧
    ((∀ b, (c.toNat, b) ∉ s.enc) → exec (.encodeChar c) s = .next { s with result := .entry none })

/-- 42_char_lookup.md R151 (E1 as read in log 4, E2 to E8; D14, D15), R152, R153: under the constraints on ENC, 'O' and '0'
encode alike, the space is 0xFF, a digit has an entry, every entry is dark at the point, only printable ASCII characters
have entries, some letter has one in one case only and some letter in both, and the letters of "done" have one in some
case. -/
def Obligations.TableConstraintsShowInEncode : Prop :=
  ∀ s : State, EncOk s.enc →
    (∀ r, exec (.encodeChar 'O') s = .next { s with result := r } ↔ exec (.encodeChar '0') s = .next { s with result := r }) ∧
    exec (.encodeChar ' ') s = .next { s with result := .entry (some 0xFF#8) } ∧
    (∀ c : Char, c.toNat ∈ [48, 49, 50, 51, 52, 53, 54, 55, 56, 57] →
      ∃ b, exec (.encodeChar c) s = .next { s with result := .entry (some b) }) ∧
    (∀ (c : Char) (b : Byte), exec (.encodeChar c) s = .next { s with result := .entry (some b) } →
      b.getLsbD 7 = true) ∧
    (∀ c : Char, c.toNat < 32 ∨ 126 < c.toNat → exec (.encodeChar c) s = .next { s with result := .entry none }) ∧
    (∃ (upper lower : Char) (b : Byte), upper.toNat ∈ List.range' 65 26 ∧ lower.toNat = upper.toNat + 32 ∧
      ((exec (.encodeChar upper) s = .next { s with result := .entry (some b) } ∧
          exec (.encodeChar lower) s = .next { s with result := .entry none }) ∨
        (exec (.encodeChar upper) s = .next { s with result := .entry none } ∧
          exec (.encodeChar lower) s = .next { s with result := .entry (some b) }))) ∧
    (∃ (upper lower : Char) (b b' : Byte), upper.toNat ∈ List.range' 65 26 ∧ lower.toNat = upper.toNat + 32 ∧
      exec (.encodeChar upper) s = .next { s with result := .entry (some b) } ∧
      exec (.encodeChar lower) s = .next { s with result := .entry (some b') }) ∧
    ∀ upper lower : Char, (upper, lower) ∈ [('D', 'd'), ('O', 'o'), ('N', 'n'), ('E', 'e')] →
      ∃ b, exec (.encodeChar upper) s = .next { s with result := .entry (some b) } ∨
        exec (.encodeChar lower) s = .next { s with result := .entry (some b) }

/-- 42_char_lookup.md R155: bit 7 cleared, bits 6 to 0 untouched, idempotent. -/
def Obligations.PointOnClearsBitSevenOnly : Prop :=
  ∀ (b : Byte) (s : State), encode (.dpOn b) = ⟨0x31, [.byte b]⟩ ∧ ∃ v : Byte,
    exec (.dpOn b) s = .next { s with result := .byte v } ∧ v.getLsbD 7 = false ∧
    (∀ k, k < 7 → v.getLsbD k = b.getLsbD k) ∧ exec (.dpOn v) s = .next { s with result := .byte v }

/-- 42_char_lookup.md R157 to R159 (the position test for the leading point is decision D6): the successful builds, by the
last character of the text. -/
def Obligations.BufferGrowsByTheLastCharacter : Prop :=
  ∀ (enc : Memory) (q : List Char) (st n : Nat) (buf : List Byte),
    (build enc [] st n = .ok buf ↔ buf = List.replicate st 0xFF#8 ∧ st ≤ n) ∧
    (∀ c, c ≠ '.' → (build enc (q ++ [c]) st n = .ok buf ↔
      ∃ old b, build enc q st n = .ok old ∧ encodeOf enc c = some b ∧ buf = old ++ [b] ∧ buf.length ≤ n)) ∧
    (build enc (q ++ ['.']) st n = .ok buf ↔
      ∃ old, build enc q st n = .ok old ∧
        ((q = [] ∧ buf = old) ∨ (q ≠ [] ∧ ∃ f b, old = f ++ [b] ∧ buf = f ++ [b &&& 0x7F#8])))

/-- 42_char_lookup.md R157, R163: BUILD_BUFFER completes at every state and hands over a buffer of START_AT bytes and one
for each character other than a point, at most num_displays, or an error; lines, load, trace and configuration are
untouched, and BUF, where it exists, holds the bytes. -/
def Obligations.BuildBufferHandsOverTheBuffer : Prop :=
  ∀ (q : List Char) (st n : Nat) (s : State), ∃ t, exec (.buildBuffer q st n) s = .next t ∧
    KeepsConfiguration s t ∧ KeepsLines s t ∧ t.draws = s.draws ∧
    ((∃ buf, build s.enc q st n = .ok buf ∧ t.result = .buffer buf ∧ t.seqpos = s.seqpos ∧
        buf.length = st + (q.filter fun c => c ≠ '.').length ∧ buf.length ≤ n ∧
        t.render = s.render.map fun r => { r with buf := buf }) ∨
      ∃ e, build s.enc q st n = .error e ∧ t.result = .raised e ∧ t.seqpos = .idle ∧ t.render = none)

/-- 42_char_lookup.md R160 (D7): the build raises DotWithoutDigit exactly on a text that opens with two points with no pad,
at index 1. -/
def Obligations.DotWithoutDigitIsRaisedExactlyHere : Prop :=
  ∀ (enc : Memory) (q : List Char) (st n j : Nat),
    build enc q st n = .error (.dotWithoutDigit j) ↔ st = 0 ∧ j = 1 ∧ ∃ q', q = '.' :: '.' :: q'

/-- 60_exceptions.md R231 (with the spec's payload, D12): UnsupportedCharacter names the first character that is neither a
point nor in ENC, unless two leading points with no pad stopped the scan before (R160, R237). -/
def Obligations.FirstUnsupportedCharacterIsRaised : Prop :=
  ∀ (enc : Memory) (q : List Char) (st n j : Nat) (c : Char),
    build enc q st n = .error (.unsupportedCharacter j c) ↔
      q[j]? = some c ∧ c ≠ '.' ∧ encodeOf enc c = none ∧
      (∀ k d, k < j → q[k]? = some d → d = '.' ∨ (encodeOf enc d).isSome = true) ∧
      ¬(st = 0 ∧ ∃ q', q = '.' :: '.' :: q')

/-- 60_exceptions.md R232, 42_char_lookup.md R162 (D8): DisplayOverflow is raised on a text the scan accepts whose buffer is
longer than num_displays. -/
def Obligations.OverflowIsRaisedAfterTheScan : Prop :=
  ∀ (enc : Memory) (q : List Char) (st n len m : Nat),
    build enc q st n = .error (.displayOverflow len m) ↔
      m = n ∧ len = st + (q.filter fun c => c ≠ '.').length ∧ n < len ∧
      (∀ c ∈ q, c = '.' ∨ (encodeOf enc c).isSome = true) ∧ ¬(st = 0 ∧ ∃ q', q = '.' :: '.' :: q')

/-- 30_encoding.md R85, R86, R88 (R86 derived by the spec), 43_digit_select.md R182: every byte of a buffer is an entry of
ENC or the pad (0xFF for every table: log 27), with or without its point; and every frame a host operation commits, seen
at the pins, names one position below N and shows such a byte. For TEST it rests on log 5. -/
def Obligations.BufferBytesComeFromTheTable : Prop :=
  (∀ (enc : Memory) (q : List Char) (st n : Nat) (buf : List Byte), build enc q st n = .ok buf →
    ∀ v ∈ buf, ∃ b : Byte, (v = b ∨ v = b &&& 0x7F#8) ∧
      ((b = 0xFF#8 ∧ 0 < st) ∨ ∃ c ∈ q, c ≠ '.' ∧ encodeOf enc c = some b)) ∧
  ∀ (i : Instr) (s t : State) (p : Probe), i.level = 3 → s.numDisplays ≤ 8 → exec i s = .next t →
    ∃ ev, t.trace = s.trace ++ ev ∧ ∀ f ∈ p.frames ev, (∃ k, k < s.numDisplays ∧ selOf f = 1#8 <<< k) ∧
      ∃ b : Byte, (segOf f = b ∨ segOf f = b &&& 0x7F#8) ∧ (b = 0xFF#8 ∨ ∃ a, a ≠ 0x2E ∧ (a, b) ∈ s.enc)

/-! ## The one-hot encoder and the index reversal -/

/-- 43_digit_select.md R180: the mask of a position 0 to 7 has exactly that bit set; nothing else changes. -/
def Obligations.OnehotSelectsOnePosition : Prop :=
  ∀ (p : Nat) (s : State), p < 8 → encode (.onehot p) = ⟨0x32, [.nat p]⟩ ∧ ∃ m : Mask,
    exec (.onehot p) s = .next { s with result := .mask m } ∧ m.toNat = 2 ^ p ∧ ∀ k, m.getLsbD k = decide (k = p)

/-- 43_digit_select.md R181: `N - 1 - i`, in range and its own inverse; nothing else changes. -/
def Obligations.PhysReversesTheIndex : Prop :=
  ∀ (n i : Nat) (s : State), i < n → encode (.phys n i) = ⟨0x33, [.nat n, .nat i]⟩ ∧ ∃ p,
    exec (.phys n i) s = .next { s with result := .position p } ∧ p + 1 + i = n ∧ p < n ∧
    exec (.phys n p) s = .next { s with result := .position i }

/-- Outside their domains ONEHOT and PHYS complete all the same, with a value nothing is claimed of where the spec states
none (logs 15 and 16); the low byte of the mask is 0x00 for every position from 8 on (43_digit_select.md R183). -/
def Obligations.SelectFunctionsAlwaysComplete : Prop :=
  (∀ (p : Nat) (s : State), ∃ m, exec (.onehot p) s = .next { s with result := .mask m } ∧
    (8 ≤ p → m.setWidth 8 = 0#8)) ∧
  ∀ (n i : Nat) (s : State), ∃ p, exec (.phys n i) s = .next { s with result := .position p }

/-! ## The refresh-cycle scheduler -/

/-- 44_refresh_scheduler.md R190, R191 (ascending order: D9): the frames of CLEAR and the state it leaves; no segment of any
digit is lit. -/
def Obligations.ClearBlanksEveryDigit : Prop :=
  ∀ s : State, s.seqpos = .idle → s.constructed = true → 1 ≤ s.numDisplays → s.numDisplays ≤ 8 →
    ∃ t, exec .clear s = .next t ∧
      t.trace = s.trace ++ framesEvents ((List.range s.numDisplays).map fun i => frameOf 0xFF#8 (1#8 <<< i)) ∧
      t.out = frameOf 0xFF#8 (1#8 <<< (s.numDisplays - 1)) ∧ t.sr = t.out ∧ t.clk = .high ∧ t.lat = .high ∧
      t.data = (if s.numDisplays = 1 then .high else .low) ∧ t.seqpos = .idle ∧ t.render = none ∧ t.result = .done ∧
      t.draws = s.draws ∧ KeepsConfiguration s t ∧ ∀ p k, lit t.out s.numDisplays p k = false

/-- 44_refresh_scheduler.md R191: a second CLEAR ends in the same state, though its trace is not empty. -/
def Obligations.ClearIsIdempotentInItsFinalState : Prop :=
  ∀ s t u : State, 1 ≤ s.numDisplays → exec .clear s = .next t → exec .clear t = .next u →
    u = { t with trace := u.trace } ∧ u.trace ≠ t.trace

/-- 44_refresh_scheduler.md R193 to R195: a RENDER whose build succeeds sends, pass after pass, each buffer byte with the
one-hot byte of position `N - 1 - i`, then CLEAR's frames if `clear_after`; it completes. -/
def Obligations.RenderSendsItsPasses : Prop :=
  ∀ (q : List Char) (rc st : Nat) (ca : Bool) (buf : List Byte) (s : State), s.seqpos = .idle → s.constructed = true →
    s.numDisplays ≤ 8 → 1 ≤ rc → build s.enc q st s.numDisplays = .ok buf →
    ∃ t, exec (.render q rc ca st) s = .next t ∧
      t.trace = s.trace ++ framesEvents
        ((List.replicate rc (buf.mapIdx fun i b => frameOf b (1#8 <<< (s.numDisplays - 1 - i)))).flatten ++
          if ca then (List.range s.numDisplays).map fun i => frameOf 0xFF#8 (1#8 <<< i) else []) ∧
      KeepsConfiguration s t ∧ t.draws = s.draws

/-- 44_refresh_scheduler.md R199 (derived by the spec): the state after a successful RENDER. -/
def Obligations.StateAfterRender : Prop :=
  ∀ (q : List Char) (rc st : Nat) (ca : Bool) (buf : List Byte) (s t : State), s.seqpos = .idle →
    s.constructed = true → 1 ≤ s.numDisplays → s.numDisplays ≤ 8 → build s.enc q st s.numDisplays = .ok buf →
    exec (.render q rc ca st) s = .next t →
    t.seqpos = .idle ∧ t.render = none ∧ t.result = .done ∧
    (ca = true → ∃ u, exec .clear s = .next u ∧ t = { u with trace := t.trace }) ∧
    (∀ f b, ca = false → buf = f ++ [b] →
      t.out = frameOf b (1#8 <<< (s.numDisplays - buf.length)) ∧ t.sr = t.out ∧ t.clk = .high ∧ t.lat = .high ∧
      t.data = if buf.length = s.numDisplays then .high else .low) ∧
    (ca = false → buf = [] → KeepsLines s t)

/-- 60_exceptions.md R238, 42_char_lookup.md R163 (D20): a RENDER whose build raises writes no pin and leaves every register
as it was; the error goes to the caller. -/
def Obligations.FailedRenderLeavesNoTrace : Prop :=
  ∀ (q : List Char) (rc st : Nat) (ca : Bool) (e : Error) (s : State), s.seqpos = .idle → s.constructed = true →
    s.render = none → 1 ≤ rc → build s.enc q st s.numDisplays = .error e →
    exec (.render q rc ca st) s = .next { s with result := .raised e }

/-- 10_state.md R23 (D2), 40_construct_and_pins.md R119 (D5), 44_refresh_scheduler.md R192 (D19), 45_test.md R221 (D13):
refusals of the host operations on an idle block. A script with a frame the block never issues (30_encoding.md R85, R86)
is no script (log 5). -/
def Obligations.HostOperationRefusals : Prop :=
  ∀ (q : List Char) (rc st : Nat) (ca : Bool) (d c l : PinId) (n : Int) (s : State), s.seqpos = .idle →
    (s.constructed = true → exec (.construct d c l n) s = .refused .alreadyConstructed) ∧
    (s.constructed = false → 1 ≤ n → n ≤ 8 → (d = c ∨ d = l ∨ c = l) →
      exec (.construct d c l n) s = .refused .pinsNotDistinct) ∧
    (s.constructed = false → exec (.render q rc ca st) s = .refused .notConstructed ∧
      exec .clear s = .refused .notConstructed ∧ exec .test s = .refused .notConstructed) ∧
    (s.constructed = true → exec (.render q 0 ca st) s = .refused .zeroRedrawCount ∧
      ((∀ e ∈ s.scripts, e.1 = s.numDisplays → ∃ op ∈ e.2.all, issuedOp s.enc s.numDisplays op = false) →
        exec .test s = .refused .scriptUninstantiated))

/-- 44_refresh_scheduler.md R197, 70_reset_and_hazards.md R273 (derived by the spec): the counts of a RENDER. -/
def Obligations.RenderEventCounts : Prop :=
  ∀ (q : List Char) (rc st : Nat) (ca : Bool) (buf : List Byte) (s t : State),
    build s.enc q st s.numDisplays = .ok buf → exec (.render q rc ca st) s = .next t →
    ∃ ev, t.trace = s.trace ++ ev ∧ ev.length = 50 * transactions s.numDisplays rc ca buf.length ∧
      ev.count ⟨.clock, true⟩ = 16 * transactions s.numDisplays rc ca buf.length ∧
      ev.count ⟨.latch, true⟩ = transactions s.numDisplays rc ca buf.length

/-- 43_digit_select.md R186: over one pass of a full buffer the select bytes are ONEHOT(N-1) down to ONEHOT(0), each once;
over one CLEAR they are the same in the opposite order. Seen at the pins, whatever the probe held before. -/
def Obligations.FullPassSelectsEveryDigitOnce : Prop :=
  ∀ (q : List Char) (st : Nat) (buf : List Byte) (s : State) (p : Probe), s.seqpos = .idle → s.constructed = true →
    s.numDisplays ≤ 8 → build s.enc q st s.numDisplays = .ok buf → buf.length = s.numDisplays →
    ∃ t u ev ew, exec (.render q 1 false st) s = .next t ∧ t.trace = s.trace ++ ev ∧
      exec .clear s = .next u ∧ u.trace = s.trace ++ ew ∧
      (p.frames ev).map selOf = ((List.range s.numDisplays).map fun i => 1#8 <<< i).reverse ∧
      (p.frames ew).map selOf = (List.range s.numDisplays).map (fun i => 1#8 <<< i) ∧
      ((p.frames ew).map selOf).Nodup

/-- 41_serial_engine.md R136, 00_scope.md R9 (derived by the spec): the frame list seen at the pins during a RENDER is the
list of its transactions' frames, whatever the lines and the chain held before, and OUT ends at its last frame. -/
def Obligations.FramesAtThePinsAreTheFramesSent : Prop :=
  ∀ (q : List Char) (rc st : Nat) (ca : Bool) (buf : List Byte) (s t : State) (p : Probe),
    build s.enc q st s.numDisplays = .ok buf → exec (.render q rc ca st) s = .next t →
    ∃ ev, t.trace = s.trace ++ ev ∧ p.frames ev = renderFrames s.numDisplays rc ca buf ∧
      (p.frames ev).length = transactions s.numDisplays rc ca buf.length ∧
      ∀ f, (p.frames ev).getLast? = some f → t.out = f

/-- 10_state.md R29 (derived by the spec), 42_char_lookup.md R164: what a host operation writes and reports depends on its
operands, N and the constant tables only, never on earlier operations. -/
def Obligations.OperationsHaveNoHistory : Prop :=
  ∀ (i : Instr) (s s' t t' : State), i.level = 3 → s.numDisplays = s'.numDisplays → s.enc = s'.enc →
    s.scripts = s'.scripts → exec i s = .next t → exec i s' = .next t' →
    t.result = t'.result ∧ ∃ ev, t.trace = s.trace ++ ev ∧ t'.trace = s'.trace ++ ev

/-- 44_refresh_scheduler.md R202: a RENDER without clear followed by a successful RENDER with clear leaves the bus as a
CLEAR does, whatever the texts were. -/
def Obligations.ClearAlwaysWins : Prop :=
  ∀ (q q' : List Char) (rc rc' st st' : Nat) (s t u v : State), 1 ≤ s.numDisplays →
    exec (.render q rc false st) s = .next t → exec (.render q' rc' true st') t = .next u → u.result = .done →
    exec .clear s = .next v →
    u.data = v.data ∧ u.clk = v.clk ∧ u.lat = v.lat ∧ u.sr = v.sr ∧ u.out = v.out

/-- 60_exceptions.md R247 (D22), 70_reset_and_hazards.md R266: after a RENDER without clear, the segments lit are exactly
those of the last buffer byte, at position N - LEN. -/
def Obligations.LastDigitStaysLit : Prop :=
  ∀ (q : List Char) (rc st : Nat) (f : List Byte) (b : Byte) (s t : State), s.numDisplays ≤ 8 →
    build s.enc q st s.numDisplays = .ok (f ++ [b]) → exec (.render q rc false st) s = .next t →
    ∀ p k, lit t.out s.numDisplays p k = true ↔ p = s.numDisplays - (f.length + 1) ∧ k < 8 ∧ b.getLsbD k = false

/-- 60_exceptions.md R248 (derived by the spec): the frames of a pass realise IMAGE: while frame `i` is committed, exactly
the digit at position N - 1 - i is driven, with IMAGE of that position. -/
def Obligations.PassRealisesTheImage : Prop :=
  ∀ (n : Nat) (buf : List Byte), n ≤ 8 → buf.length ≤ n →
    (passFrames n buf).length = buf.length ∧
    (∀ i f, (passFrames n buf)[i]? = some f → ∃ v, image n buf (n - 1 - i) = some v ∧
      ∀ p k, lit f n p k = true ↔ p = n - 1 - i ∧ k < 8 ∧ v.getLsbD k = false) ∧
    ∀ p, p < n - buf.length → image n buf p = none ∧ ∀ f ∈ passFrames n buf, ∀ k, lit f n p k = false

/-! ## TEST -/

/-- 45_test.md R220: TEST performs the operations of its script in order and adds nothing of its own, where they raise
nothing (R221). Where one raises, TEST raises its error, what the operations before it wrote stays (log 23), and a RENDER
with redraw count 0 refuses TEST (44_refresh_scheduler.md R192; log 23). -/
def Obligations.TestPerformsItsScript : Prop :=
  (∀ (s : State) (ops : List ScriptOp), s.seqpos = .idle → s.constructed = true →
    scriptFor s.enc s.scripts s.numDisplays = some ops → (∀ op ∈ ops, opErrorFree s.enc s.numDisplays op = true) →
    ∃ u, execAll (ops.map ScriptOp.toInstr) s = .next u ∧
      exec .test s = .next { u with seqpos := .idle, render := none, result := .done } ∧
      u.trace = s.trace ++ framesEvents (ops.flatMap (opFrames s.enc s.numDisplays))) ∧
  ∀ (s : State) (front back : List ScriptOp) (q : List Char) (rc st : Nat) (ca : Bool), s.seqpos = .idle →
    s.constructed = true →
    scriptFor s.enc s.scripts s.numDisplays = some (front ++ .render q rc ca st :: back) →
    (∀ op ∈ front, opErrorFree s.enc s.numDisplays op = true) →
    ∃ u, execAll (front.map ScriptOp.toInstr) s = .next u ∧
      (rc = 0 → exec .test s = .refused .zeroRedrawCount) ∧
      ∀ e, 1 ≤ rc → build s.enc q st s.numDisplays = .error e →
        exec .test s = .next { u with seqpos := .idle, render := none, result := .raised e }

/-- 45_test.md R220, R221: a script of the outline raises nothing, and TEST leaves the controller idle (R222); from a state
of the invariant that is so of whichever script there is for N. -/
def Obligations.ConformingTestRaisesNothing : Prop :=
  (∀ (s : State) (ops : List ScriptOp), s.seqpos = .idle → s.constructed = true →
    scriptFor s.enc s.scripts s.numDisplays = some ops → ConformingScript s.enc s.numDisplays ops →
    ∃ t, exec .test s = .next t ∧ t.result = .done ∧ t.seqpos = .idle ∧ t.render = none ∧ KeepsConfiguration s t) ∧
  ∀ s : State, Inv s → s.seqpos = .idle → s.constructed = true → (∃ e ∈ s.scripts, e.1 = s.numDisplays) →
    ∃ t, exec .test s = .next t ∧ t.result = .done ∧ t.seqpos = .idle ∧ t.render = none ∧ KeepsConfiguration s t
end

