-- ==== Sys2Proof/Laws/Decode.lean ====
section
/-! SUPPORT. The opcode table and the decoder (spec/30_encoding.md R81, R82). -/

namespace Sys2Proof

/-- No two rows of the table match one opcode byte: what one fixes, the other fixes differently. -/
theorem opcodeTable_disjoint :
    opcodeTable.Pairwise fun r r' => (r.value ^^^ r'.value) &&& (r.mask &&& r'.mask) ≠ 0 := by decide

theorem kindOf_0x01 : kindOf 0x01 = some .construct := by decide
theorem kindOf_0x02 : kindOf 0x02 = some .render := by decide
theorem kindOf_0x03 : kindOf 0x03 = some .clear := by decide
theorem kindOf_0x04 : kindOf 0x04 = some .test := by decide
theorem kindOf_0x10 : kindOf 0x10 = some .sendByte := by decide
theorem kindOf_0x11 : kindOf 0x11 = some .setPort := by decide
theorem kindOf_opW_data (b : Bool) : kindOf (opW .data b) = some .dataWr := by cases b <;> decide
theorem kindOf_clkLo : kindOf (opW .clock false) = some .clkLo := by decide
theorem kindOf_clkHi : kindOf (opW .clock true) = some .clkHi := by decide
theorem kindOf_latLo : kindOf (opW .latch false) = some .latLo := by decide
theorem kindOf_latHi : kindOf (opW .latch true) = some .latHi := by decide
theorem kindOf_opG (p : Pin) : kindOf (opG p) = some .cfgOut := by cases p <;> decide
theorem kindOf_0x30 : kindOf 0x30 = some .encodeChar := by decide
theorem kindOf_0x31 : kindOf 0x31 = some .dpOn := by decide
theorem kindOf_0x32 : kindOf 0x32 = some .onehot := by decide
theorem kindOf_0x33 : kindOf 0x33 = some .phys := by decide
theorem kindOf_0x34 : kindOf 0x34 = some .buildBuffer := by decide

/-- The level is bit 0 of a data write's opcode. -/
theorem opW_level (b : Bool) : (opW .data b).getLsbD 0 = b := by cases b <;> decide

/-- The pin is in the low bits of a configuration's opcode. -/
theorem opG_pin (p : Pin) : pinOfBits ((opG p).extractLsb' 0 2) = some p := by cases p <;> decide

/-- A data write takes its level from the opcode. -/
theorem decodeOperands_dataWr (op : Byte) : decodeOperands .dataWr op [] = .ok (.dataWr (op.getLsbD 0)) := rfl

/-- A configuration takes its pin from the opcode. -/
theorem decodeOperands_cfgOut {op : Byte} {p : Pin} (h : pinOfBits (op.extractLsb' 0 2) = some p) :
    decodeOperands .cfgOut op [] = .ok (.cfgOut p) := by
  change decodeCfgOut op [] = _
  simp [decodeCfgOut, h]

/-- Operand fields are those of the format or they are not (30_encoding.md R81); the configuration's pin is apart. -/
theorem decodeOperands_total {k : Kind} (hk : k ≠ .cfgOut) (op : Byte) (args : List Operand) :
    (∃ i, decodeOperands k op args = .ok i) ∨ decodeOperands k op args = .error (.operandShape op) := by
  cases k
  case cfgOut => exact absurd rfl hk
  all_goals
    rcases args with _ | ⟨a, _ | ⟨b, _ | ⟨c, _ | ⟨d, _ | ⟨e, l⟩⟩⟩⟩⟩ <;>
    first
      | exact .inl ⟨_, rfl⟩
      | exact .inr rfl
      | (cases a <;> first | exact .inl ⟨_, rfl⟩ | exact .inr rfl |
          (cases b <;> first | exact .inl ⟨_, rfl⟩ | exact .inr rfl |
            (cases c <;> first | exact .inl ⟨_, rfl⟩ | exact .inr rfl |
              (cases d <;> first | exact .inl ⟨_, rfl⟩ | exact .inr rfl))))

/-- What an opcode byte is, for each row it can match; a configuration whose pin is assigned has that pin's byte. -/
def opFits (op : Byte) : Kind → Bool
  | .construct => op == 0x01
  | .render => op == 0x02
  | .clear => op == 0x03
  | .test => op == 0x04
  | .sendByte => op == 0x10
  | .setPort => op == 0x11
  | .dataWr => op == opW .data (op.getLsbD 0)
  | .clkLo => op == opW .clock false
  | .clkHi => op == opW .clock true
  | .latLo => op == opW .latch false
  | .latHi => op == opW .latch true
  | .cfgOut => (pinOfBits (op.extractLsb' 0 2)).all fun p => op == opG p
  | .encodeChar => op == 0x30
  | .dpOn => op == 0x31
  | .onehot => op == 0x32
  | .phys => op == 0x33
  | .buildBuffer => op == 0x34

/-- The check of `opFits` on the byte `n`. -/
def fitsAt (n : Nat) : Bool := (kindOf (BitVec.ofNat 8 n)).all (opFits (BitVec.ofNat 8 n))

theorem fitsAt_all : ∀ n < 256, fitsAt n = true := by
  intro n hn
  have h : (List.range 256).all fitsAt = true := by decide +kernel
  exact List.all_eq_true.1 h n (List.mem_range.2 hn)

/-- A row that matches fixes the opcode byte. -/
theorem opFits_of_kindOf {op : Byte} {k : Kind} (h : kindOf op = some k) : opFits op k = true := by
  have hf := fitsAt_all op.toNat op.isLt
  rw [fitsAt, BitVec.ofNat_toNat, BitVec.setWidth_eq, h] at hf
  simpa using hf

end Sys2Proof
end

