-- ==== Sys2Proof/Laws/State.lean ====
section
/-! SUPPORT. One lemma for each field and each update of State, true by definition, so that no later proof
unfolds a record update. -/

namespace Sys2Proof.Machine

section Updates

variable (s : State)

section record
variable (p : Pin) (l : Bool)
@[simp] theorem State.record_constructed : (s.record p l).constructed = s.constructed := rfl
@[simp] theorem State.record_dataPin : (s.record p l).dataPin = s.dataPin := rfl
@[simp] theorem State.record_clockPin : (s.record p l).clockPin = s.clockPin := rfl
@[simp] theorem State.record_latchPin : (s.record p l).latchPin = s.latchPin := rfl
@[simp] theorem State.record_numDisplays : (s.record p l).numDisplays = s.numDisplays := rfl
@[simp] theorem State.record_data : (s.record p l).data = s.data := rfl
@[simp] theorem State.record_clk : (s.record p l).clk = s.clk := rfl
@[simp] theorem State.record_lat : (s.record p l).lat = s.lat := rfl
@[simp] theorem State.record_render : (s.record p l).render = s.render := rfl
@[simp] theorem State.record_seqpos : (s.record p l).seqpos = s.seqpos := rfl
@[simp] theorem State.record_sr : (s.record p l).sr = s.sr := rfl
@[simp] theorem State.record_out : (s.record p l).out = s.out := rfl
@[simp] theorem State.record_trace : (s.record p l).trace = s.trace ++ [⟨p, l⟩] := rfl
@[simp] theorem State.record_enc : (s.record p l).enc = s.enc := rfl
@[simp] theorem State.record_scripts : (s.record p l).scripts = s.scripts := rfl
@[simp] theorem State.record_pending : (s.record p l).pending = s.pending := rfl
@[simp] theorem State.record_result : (s.record p l).result = s.result := rfl
@[simp] theorem State.record_draws : (s.record p l).draws = s.draws := rfl
end record

section loadShift
@[simp] theorem State.loadShift_constructed : (s.loadShift).constructed = s.constructed := rfl
@[simp] theorem State.loadShift_dataPin : (s.loadShift).dataPin = s.dataPin := rfl
@[simp] theorem State.loadShift_clockPin : (s.loadShift).clockPin = s.clockPin := rfl
@[simp] theorem State.loadShift_latchPin : (s.loadShift).latchPin = s.latchPin := rfl
@[simp] theorem State.loadShift_numDisplays : (s.loadShift).numDisplays = s.numDisplays := rfl
@[simp] theorem State.loadShift_data : (s.loadShift).data = s.data := rfl
@[simp] theorem State.loadShift_clk : (s.loadShift).clk = s.clk := rfl
@[simp] theorem State.loadShift_lat : (s.loadShift).lat = s.lat := rfl
@[simp] theorem State.loadShift_render : (s.loadShift).render = s.render := rfl
@[simp] theorem State.loadShift_seqpos : (s.loadShift).seqpos = s.seqpos := rfl
@[simp] theorem State.loadShift_sr : (s.loadShift).sr = (s.sr.extractLsb' 0 15).concat (s.onLine .data) := rfl
@[simp] theorem State.loadShift_out : (s.loadShift).out = s.out := rfl
@[simp] theorem State.loadShift_trace : (s.loadShift).trace = s.trace := rfl
@[simp] theorem State.loadShift_enc : (s.loadShift).enc = s.enc := rfl
@[simp] theorem State.loadShift_scripts : (s.loadShift).scripts = s.scripts := rfl
@[simp] theorem State.loadShift_pending : (s.loadShift).pending = s.pending := rfl
@[simp] theorem State.loadShift_result : (s.loadShift).result = s.result := rfl
@[simp] theorem State.loadShift_draws : (s.loadShift).draws = s.draws + s.drawsOf .data := rfl
end loadShift

section loadLatch
@[simp] theorem State.loadLatch_constructed : (s.loadLatch).constructed = s.constructed := rfl
@[simp] theorem State.loadLatch_dataPin : (s.loadLatch).dataPin = s.dataPin := rfl
@[simp] theorem State.loadLatch_clockPin : (s.loadLatch).clockPin = s.clockPin := rfl
@[simp] theorem State.loadLatch_latchPin : (s.loadLatch).latchPin = s.latchPin := rfl
@[simp] theorem State.loadLatch_numDisplays : (s.loadLatch).numDisplays = s.numDisplays := rfl
@[simp] theorem State.loadLatch_data : (s.loadLatch).data = s.data := rfl
@[simp] theorem State.loadLatch_clk : (s.loadLatch).clk = s.clk := rfl
@[simp] theorem State.loadLatch_lat : (s.loadLatch).lat = s.lat := rfl
@[simp] theorem State.loadLatch_render : (s.loadLatch).render = s.render := rfl
@[simp] theorem State.loadLatch_seqpos : (s.loadLatch).seqpos = s.seqpos := rfl
@[simp] theorem State.loadLatch_sr : (s.loadLatch).sr = s.sr := rfl
@[simp] theorem State.loadLatch_out : (s.loadLatch).out = s.sr := rfl
@[simp] theorem State.loadLatch_trace : (s.loadLatch).trace = s.trace := rfl
@[simp] theorem State.loadLatch_enc : (s.loadLatch).enc = s.enc := rfl
@[simp] theorem State.loadLatch_scripts : (s.loadLatch).scripts = s.scripts := rfl
@[simp] theorem State.loadLatch_pending : (s.loadLatch).pending = s.pending := rfl
@[simp] theorem State.loadLatch_result : (s.loadLatch).result = s.result := rfl
@[simp] theorem State.loadLatch_draws : (s.loadLatch).draws = s.draws := rfl
end loadLatch

section finish
@[simp] theorem State.finish_constructed : (s.finish).constructed = s.constructed := rfl
@[simp] theorem State.finish_dataPin : (s.finish).dataPin = s.dataPin := rfl
@[simp] theorem State.finish_clockPin : (s.finish).clockPin = s.clockPin := rfl
@[simp] theorem State.finish_latchPin : (s.finish).latchPin = s.latchPin := rfl
@[simp] theorem State.finish_numDisplays : (s.finish).numDisplays = s.numDisplays := rfl
@[simp] theorem State.finish_data : (s.finish).data = s.data := rfl
@[simp] theorem State.finish_clk : (s.finish).clk = s.clk := rfl
@[simp] theorem State.finish_lat : (s.finish).lat = s.lat := rfl
@[simp] theorem State.finish_render : (s.finish).render = none := rfl
@[simp] theorem State.finish_seqpos : (s.finish).seqpos = .idle := rfl
@[simp] theorem State.finish_sr : (s.finish).sr = s.sr := rfl
@[simp] theorem State.finish_out : (s.finish).out = s.out := rfl
@[simp] theorem State.finish_trace : (s.finish).trace = s.trace := rfl
@[simp] theorem State.finish_enc : (s.finish).enc = s.enc := rfl
@[simp] theorem State.finish_scripts : (s.finish).scripts = s.scripts := rfl
@[simp] theorem State.finish_pending : (s.finish).pending = s.pending := rfl
@[simp] theorem State.finish_result : (s.finish).result = .done := rfl
@[simp] theorem State.finish_draws : (s.finish).draws = s.draws := rfl
end finish

section raise
variable (e : Error)
@[simp] theorem State.raise_constructed : (s.raise e).constructed = s.constructed := rfl
@[simp] theorem State.raise_dataPin : (s.raise e).dataPin = s.dataPin := rfl
@[simp] theorem State.raise_clockPin : (s.raise e).clockPin = s.clockPin := rfl
@[simp] theorem State.raise_latchPin : (s.raise e).latchPin = s.latchPin := rfl
@[simp] theorem State.raise_numDisplays : (s.raise e).numDisplays = s.numDisplays := rfl
@[simp] theorem State.raise_data : (s.raise e).data = s.data := rfl
@[simp] theorem State.raise_clk : (s.raise e).clk = s.clk := rfl
@[simp] theorem State.raise_lat : (s.raise e).lat = s.lat := rfl
@[simp] theorem State.raise_render : (s.raise e).render = none := rfl
@[simp] theorem State.raise_seqpos : (s.raise e).seqpos = .idle := rfl
@[simp] theorem State.raise_sr : (s.raise e).sr = s.sr := rfl
@[simp] theorem State.raise_out : (s.raise e).out = s.out := rfl
@[simp] theorem State.raise_trace : (s.raise e).trace = s.trace := rfl
@[simp] theorem State.raise_enc : (s.raise e).enc = s.enc := rfl
@[simp] theorem State.raise_scripts : (s.raise e).scripts = s.scripts := rfl
@[simp] theorem State.raise_pending : (s.raise e).pending = s.pending := rfl
@[simp] theorem State.raise_result : (s.raise e).result = .raised e := rfl
@[simp] theorem State.raise_draws : (s.raise e).draws = s.draws := rfl
end raise

section give
variable (r : Result)
@[simp] theorem State.give_constructed : (s.give r).constructed = s.constructed := rfl
@[simp] theorem State.give_dataPin : (s.give r).dataPin = s.dataPin := rfl
@[simp] theorem State.give_clockPin : (s.give r).clockPin = s.clockPin := rfl
@[simp] theorem State.give_latchPin : (s.give r).latchPin = s.latchPin := rfl
@[simp] theorem State.give_numDisplays : (s.give r).numDisplays = s.numDisplays := rfl
@[simp] theorem State.give_data : (s.give r).data = s.data := rfl
@[simp] theorem State.give_clk : (s.give r).clk = s.clk := rfl
@[simp] theorem State.give_lat : (s.give r).lat = s.lat := rfl
@[simp] theorem State.give_render : (s.give r).render = s.render := rfl
@[simp] theorem State.give_seqpos : (s.give r).seqpos = s.seqpos := rfl
@[simp] theorem State.give_sr : (s.give r).sr = s.sr := rfl
@[simp] theorem State.give_out : (s.give r).out = s.out := rfl
@[simp] theorem State.give_trace : (s.give r).trace = s.trace := rfl
@[simp] theorem State.give_enc : (s.give r).enc = s.enc := rfl
@[simp] theorem State.give_scripts : (s.give r).scripts = s.scripts := rfl
@[simp] theorem State.give_pending : (s.give r).pending = s.pending := rfl
@[simp] theorem State.give_result : (s.give r).result = r := rfl
@[simp] theorem State.give_draws : (s.give r).draws = s.draws := rfl
end give

section fillBuffer
variable (b : List Byte)
@[simp] theorem State.fillBuffer_constructed : (s.fillBuffer b).constructed = s.constructed := rfl
@[simp] theorem State.fillBuffer_dataPin : (s.fillBuffer b).dataPin = s.dataPin := rfl
@[simp] theorem State.fillBuffer_clockPin : (s.fillBuffer b).clockPin = s.clockPin := rfl
@[simp] theorem State.fillBuffer_latchPin : (s.fillBuffer b).latchPin = s.latchPin := rfl
@[simp] theorem State.fillBuffer_numDisplays : (s.fillBuffer b).numDisplays = s.numDisplays := rfl
@[simp] theorem State.fillBuffer_data : (s.fillBuffer b).data = s.data := rfl
@[simp] theorem State.fillBuffer_clk : (s.fillBuffer b).clk = s.clk := rfl
@[simp] theorem State.fillBuffer_lat : (s.fillBuffer b).lat = s.lat := rfl
@[simp] theorem State.fillBuffer_render : (s.fillBuffer b).render = s.render.map fun r => { r with buf := b } := rfl
@[simp] theorem State.fillBuffer_seqpos : (s.fillBuffer b).seqpos = s.seqpos := rfl
@[simp] theorem State.fillBuffer_sr : (s.fillBuffer b).sr = s.sr := rfl
@[simp] theorem State.fillBuffer_out : (s.fillBuffer b).out = s.out := rfl
@[simp] theorem State.fillBuffer_trace : (s.fillBuffer b).trace = s.trace := rfl
@[simp] theorem State.fillBuffer_enc : (s.fillBuffer b).enc = s.enc := rfl
@[simp] theorem State.fillBuffer_scripts : (s.fillBuffer b).scripts = s.scripts := rfl
@[simp] theorem State.fillBuffer_pending : (s.fillBuffer b).pending = s.pending := rfl
@[simp] theorem State.fillBuffer_result : (s.fillBuffer b).result = s.result := rfl
@[simp] theorem State.fillBuffer_draws : (s.fillBuffer b).draws = s.draws := rfl
end fillBuffer

section acceptClear
@[simp] theorem State.acceptClear_constructed : (s.acceptClear).constructed = s.constructed := rfl
@[simp] theorem State.acceptClear_dataPin : (s.acceptClear).dataPin = s.dataPin := rfl
@[simp] theorem State.acceptClear_clockPin : (s.acceptClear).clockPin = s.clockPin := rfl
@[simp] theorem State.acceptClear_latchPin : (s.acceptClear).latchPin = s.latchPin := rfl
@[simp] theorem State.acceptClear_numDisplays : (s.acceptClear).numDisplays = s.numDisplays := rfl
@[simp] theorem State.acceptClear_data : (s.acceptClear).data = s.data := rfl
@[simp] theorem State.acceptClear_clk : (s.acceptClear).clk = s.clk := rfl
@[simp] theorem State.acceptClear_lat : (s.acceptClear).lat = s.lat := rfl
@[simp] theorem State.acceptClear_render : (s.acceptClear).render = s.render := rfl
@[simp] theorem State.acceptClear_seqpos : (s.acceptClear).seqpos = .clearing 0 0 := rfl
@[simp] theorem State.acceptClear_sr : (s.acceptClear).sr = s.sr := rfl
@[simp] theorem State.acceptClear_out : (s.acceptClear).out = s.out := rfl
@[simp] theorem State.acceptClear_trace : (s.acceptClear).trace = s.trace := rfl
@[simp] theorem State.acceptClear_enc : (s.acceptClear).enc = s.enc := rfl
@[simp] theorem State.acceptClear_scripts : (s.acceptClear).scripts = s.scripts := rfl
@[simp] theorem State.acceptClear_pending : (s.acceptClear).pending = s.pending := rfl
@[simp] theorem State.acceptClear_result : (s.acceptClear).result = s.result := rfl
@[simp] theorem State.acceptClear_draws : (s.acceptClear).draws = s.draws := rfl
end acceptClear

section place
variable (r : Request)
@[simp] theorem State.place_constructed : (s.place r).constructed = s.constructed := rfl
@[simp] theorem State.place_dataPin : (s.place r).dataPin = s.dataPin := rfl
@[simp] theorem State.place_clockPin : (s.place r).clockPin = s.clockPin := rfl
@[simp] theorem State.place_latchPin : (s.place r).latchPin = s.latchPin := rfl
@[simp] theorem State.place_numDisplays : (s.place r).numDisplays = s.numDisplays := rfl
@[simp] theorem State.place_data : (s.place r).data = s.data := rfl
@[simp] theorem State.place_clk : (s.place r).clk = s.clk := rfl
@[simp] theorem State.place_lat : (s.place r).lat = s.lat := rfl
@[simp] theorem State.place_render : (s.place r).render = none := rfl
@[simp] theorem State.place_seqpos : (s.place r).seqpos = .idle := rfl
@[simp] theorem State.place_sr : (s.place r).sr = s.sr := rfl
@[simp] theorem State.place_out : (s.place r).out = s.out := rfl
@[simp] theorem State.place_trace : (s.place r).trace = s.trace := rfl
@[simp] theorem State.place_enc : (s.place r).enc = s.enc := rfl
@[simp] theorem State.place_scripts : (s.place r).scripts = s.scripts := rfl
@[simp] theorem State.place_pending : (s.place r).pending = r :: s.pending := rfl
@[simp] theorem State.place_result : (s.place r).result = s.result := rfl
@[simp] theorem State.place_draws : (s.place r).draws = s.draws := rfl
end place

section setLevel
variable (p q : Pin) (v : Level)
@[simp] theorem State.setLevel_constructed : (s.setLevel p v).constructed = s.constructed := by cases p <;> rfl
@[simp] theorem State.setLevel_dataPin : (s.setLevel p v).dataPin = s.dataPin := by cases p <;> rfl
@[simp] theorem State.setLevel_clockPin : (s.setLevel p v).clockPin = s.clockPin := by cases p <;> rfl
@[simp] theorem State.setLevel_latchPin : (s.setLevel p v).latchPin = s.latchPin := by cases p <;> rfl
@[simp] theorem State.setLevel_numDisplays : (s.setLevel p v).numDisplays = s.numDisplays := by cases p <;> rfl
@[simp] theorem State.setLevel_render : (s.setLevel p v).render = s.render := by cases p <;> rfl
@[simp] theorem State.setLevel_seqpos : (s.setLevel p v).seqpos = s.seqpos := by cases p <;> rfl
@[simp] theorem State.setLevel_sr : (s.setLevel p v).sr = s.sr := by cases p <;> rfl
@[simp] theorem State.setLevel_out : (s.setLevel p v).out = s.out := by cases p <;> rfl
@[simp] theorem State.setLevel_trace : (s.setLevel p v).trace = s.trace := by cases p <;> rfl
@[simp] theorem State.setLevel_enc : (s.setLevel p v).enc = s.enc := by cases p <;> rfl
@[simp] theorem State.setLevel_scripts : (s.setLevel p v).scripts = s.scripts := by cases p <;> rfl
@[simp] theorem State.setLevel_pending : (s.setLevel p v).pending = s.pending := by cases p <;> rfl
@[simp] theorem State.setLevel_result : (s.setLevel p v).result = s.result := by cases p <;> rfl
@[simp] theorem State.setLevel_draws : (s.setLevel p v).draws = s.draws := by cases p <;> rfl
@[simp] theorem State.setLevel_level : (s.setLevel p v).level q = if q = p then v else s.level q := by
  cases p <;> cases q <;> rfl
@[simp] theorem State.level_data : s.level .data = s.data := rfl
@[simp] theorem State.level_clock : s.level .clock = s.clk := rfl
@[simp] theorem State.level_latch : s.level .latch = s.lat := rfl
end setLevel

@[simp] theorem Level.settled?_ofBool (b : Bool) : (Level.ofBool b).settled? = some b := by cases b <;> rfl
@[simp] theorem Level.settled?_low : Level.low.settled? = some false := rfl
@[simp] theorem Level.settled?_high : Level.high.settled? = some true := rfl
@[simp] theorem Level.ofBool_true : Level.ofBool true = .high := rfl
@[simp] theorem Level.ofBool_false : Level.ofBool false = .low := rfl
@[simp] theorem risingEdge_true (was : Bool) : risingEdge was true = !was := rfl
@[simp] theorem risingEdge_false (was : Bool) : risingEdge was false = false := rfl

/-- A line whose level was written carries that level. -/
theorem State.onLine_of_settled {s : State} {p : Pin} {b : Bool} (h : (s.level p).settled? = some b) :
    s.onLine p = b := by simp [State.onLine, h]

/-- Reading a line whose level was written takes no draw. -/
theorem State.drawsOf_of_settled {s : State} {p : Pin} {b : Bool} (h : (s.level p).settled? = some b) :
    s.drawsOf p = 0 := by simp [State.drawsOf, h]

end Updates

end Sys2Proof.Machine
end

