-- ==== Sys2Proof/Laws/Lookup.lean ====
section
/-! SUPPORT. The point and the buffer build (spec/42_char_lookup.md R157 to R162): what a scan answers, by its text. -/

namespace Sys2Proof.Machine

@[simp] theorem pointLast_nil : pointLast [] = none := rfl

@[simp] theorem pointLast_concat (f : List Byte) (b : Byte) : pointLast (f ++ [b]) = some (f ++ [pointOn b]) := by
  simp [pointLast, bufWrite]

@[simp] theorem bufAppend_eq (buf : List Byte) (v : Byte) : bufAppend buf v = buf ++ [v] := by
  simp [bufAppend, bufWrite]

/-- A scan of two texts is the scan of the first, then of the second. -/
theorem scan_append (enc : Memory) (j : Nat) (q q' : List Char) (buf : List Byte) :
    scan enc j (q ++ q') buf =
      match scan enc j q buf with
      | .ok buf' => scan enc (j + q.length) q' buf'
      | .error e => .error e := by
  induction q generalizing j buf with
  | nil => rfl
  | cons c q ih =>
    have hl : j + 1 + q.length = j + (c :: q).length := by simp only [List.length_cons]; omega
    simp only [List.cons_append, scan, ih, hl]
    split
    · split
      · rfl
      · split <;> rfl
    · split <;> rfl

/-- One byte for each character that is no point (R162). -/
theorem scan_length {enc : Memory} {j : Nat} {q : List Char} {buf buf' : List Byte} (h : scan enc j q buf = .ok buf') :
    buf'.length = buf.length + (q.filter fun c => c ≠ '.').length := by
  induction q generalizing j buf with
  | nil => cases h; simp
  | cons c q ih =>
    rw [scan] at h
    split at h
    · rename_i hc
      subst hc
      split at h
      · rw [ih h]; simp
      · rcases buf.eq_nil_or_concat with rfl | ⟨f, b, rfl⟩
        · cases h
        · rw [List.concat_eq_append, pointLast_concat] at h
          rw [ih h]; simp
    · rename_i hc
      split at h
      · cases h
      · rw [ih h, bufAppend_eq]; simp [hc]; omega

/-- A build succeeds when the scan does and the buffer fits (R162). -/
theorem build_ok_iff {enc : Memory} {q : List Char} {st n : Nat} {buf : List Byte} :
    build enc q st n = .ok buf ↔ scan enc 0 q (padding st) = .ok buf ∧ buf.length ≤ n := by
  unfold build
  cases scan enc 0 q (padding st) with
  | error e => simp
  | ok b =>
    simp only
    split <;> simp <;> intro h <;> subst h <;> omega

/-- The buffer built fits (R162). -/
theorem build_length {enc : Memory} {q : List Char} {st n : Nat} {buf : List Byte} (h : build enc q st n = .ok buf) :
    buf.length = st + (q.filter fun c => c ≠ '.').length ∧ buf.length ≤ n := by
  have h' := build_ok_iff.1 h
  exact ⟨by rw [scan_length h'.1, padding, List.length_replicate], h'.2⟩

/-- A character a scan goes past. -/
def goodChar (enc : Memory) (c : Char) : Prop := c = '.' ∨ (encodeOf enc c).isSome = true

/-- `q` has its first bad character, `c`, at `i`. -/
def firstBad (enc : Memory) (q : List Char) (i : Nat) (c : Char) : Prop :=
  q[i]? = some c ∧ c ≠ '.' ∧ encodeOf enc c = none ∧ ∀ k d, k < i → q[k]? = some d → goodChar enc d

/-- A scan whose points all find a byte: it answers a buffer, or the first bad character. -/
structure ScansWell (enc : Memory) (j : Nat) (q : List Char) (buf : List Byte) : Prop where
  noPoint : ∀ k, scan enc j q buf ≠ .error (.dotWithoutDigit k)
  ok : (∀ c ∈ q, goodChar enc c) → ∃ b, scan enc j q buf = .ok b
  bad : ∀ k c, scan enc j q buf = .error (.unsupportedCharacter k c) ↔ ∃ i, k = j + i ∧ firstBad enc q i c

theorem ScansWell.nil (enc : Memory) (j : Nat) (buf : List Byte) : ScansWell enc j [] buf :=
  ⟨by simp [scan], fun _ => ⟨buf, rfl⟩, by simp [scan, firstBad]⟩

theorem firstBad_succ {enc : Memory} {a : Char} {q : List Char} {i : Nat} {c : Char} (h : goodChar enc a) :
    firstBad enc (a :: q) (i + 1) c ↔ firstBad enc q i c := by
  constructor
  · rintro ⟨h1, h2, h3, h4⟩
    exact ⟨by simpa using h1, h2, h3, fun k d hk hd => h4 (k + 1) d (by omega) (by simpa using hd)⟩
  · rintro ⟨h1, h2, h3, h4⟩
    refine ⟨by simpa using h1, h2, h3, fun k d hk hd => ?_⟩
    cases k with
    | zero => simp only [List.getElem?_cons_zero, Option.some.injEq] at hd; exact hd ▸ h
    | succ k => exact h4 k d (by omega) (by simpa using hd)

theorem firstBad_zero {enc : Memory} {a : Char} {q : List Char} {c : Char} :
    firstBad enc (a :: q) 0 c ↔ a = c ∧ c ≠ '.' ∧ encodeOf enc c = none := by
  simp [firstBad]

/-- A scan that goes past its first character. -/
theorem ScansWell.cons_good {enc : Memory} {j : Nat} {a : Char} {q : List Char} {buf buf' : List Byte}
    (hs : scan enc j (a :: q) buf = scan enc (j + 1) q buf') (ha : goodChar enc a) (h : ScansWell enc (j + 1) q buf') :
    ScansWell enc j (a :: q) buf where
  noPoint := by rw [hs]; exact h.noPoint
  ok hg := by rw [hs]; exact h.ok fun c hc => hg c (List.mem_cons_of_mem a hc)
  bad k c := by
    rw [hs, h.bad]
    constructor
    · rintro ⟨i, rfl, hb⟩
      exact ⟨i + 1, by omega, (firstBad_succ ha).2 hb⟩
    · rintro ⟨i, rfl, hb⟩
      cases i with
      | zero =>
        obtain ⟨rfl, h2, h3⟩ := firstBad_zero.1 hb
        rcases ha with ha | ha
        · exact absurd ha h2
        · simp [h3] at ha
      | succ i => exact ⟨i, by omega, (firstBad_succ ha).1 hb⟩

/-- A scan that stops at its first character. -/
theorem ScansWell.cons_bad {enc : Memory} {j : Nat} {a : Char} {q : List Char} {buf : List Byte} (ha : a ≠ '.')
    (he : encodeOf enc a = none) : ScansWell enc j (a :: q) buf := by
  have hs : scan enc j (a :: q) buf = .error (.unsupportedCharacter j a) := by rw [scan, if_neg ha, he]
  have hg : ¬goodChar enc a := by rintro (h | h); exacts [ha h, by simp [he] at h]
  refine ⟨by simp [hs], fun h => absurd (h a (by simp)) hg, fun k c => ?_⟩
  rw [hs]
  constructor
  · rintro ⟨⟩
    exact ⟨0, rfl, firstBad_zero.2 ⟨rfl, ha, he⟩⟩
  · rintro ⟨i, rfl, hb⟩
    cases i with
    | zero => obtain ⟨rfl, -, -⟩ := firstBad_zero.1 hb; rfl
    | succ i => exact absurd (hb.2.2.2 0 a (by omega) rfl) hg

/-- Past the first character and with a byte in the buffer, every point finds a byte (R158). -/
theorem ScansWell.of_ne_nil (enc : Memory) (q : List Char) {j : Nat} {buf : List Byte} (hj : j ≠ 0) (hb : buf ≠ []) :
    ScansWell enc j q buf := by
  induction q generalizing j buf with
  | nil => exact .nil enc j buf
  | cons a q ih =>
    by_cases ha : a = '.'
    · obtain rfl | ⟨f, b, rfl⟩ := buf.eq_nil_or_concat
      · exact absurd rfl hb
      · refine .cons_good (buf' := f ++ [pointOn b]) ?_ (.inl ha) (ih (by omega) (by simp))
        rw [scan, if_pos ha, if_neg hj, List.concat_eq_append, pointLast_concat]
    · cases he : encodeOf enc a with
      | none => exact .cons_bad ha he
      | some e =>
        refine .cons_good (buf' := bufAppend buf e) ?_ (.inr (by simp [he])) (ih (by omega) (by simp))
        rw [scan, if_neg ha, he]

/-- Two points with nothing before them (R160). -/
def opensWithTwoPoints (q : List Char) (st : Nat) : Prop := st = 0 ∧ ∃ q', q = '.' :: '.' :: q'

/-- The scan of a whole text: the one text whose point finds no byte, or a scan whose points all do. -/
theorem scan_start (enc : Memory) (q : List Char) (st : Nat) :
    (opensWithTwoPoints q st ∧ scan enc 0 q (padding st) = .error (.dotWithoutDigit 1)) ∨
      (¬opensWithTwoPoints q st ∧ ScansWell enc 0 q (padding st)) := by
  cases q with
  | nil => exact .inr ⟨(by rintro ⟨-, _, h⟩; cases h), .nil enc 0 _⟩
  | cons a q =>
    by_cases ha : a = '.'
    · have hs : scan enc 0 (a :: q) (padding st) = scan enc 1 q (padding st) := by rw [scan, if_pos ha, if_pos rfl]
      by_cases hst : st = 0
      · subst hst ha
        cases q with
        | nil => exact .inr ⟨(by rintro ⟨-, _, h⟩; cases h), .cons_good hs (.inl rfl) (.nil enc 1 _)⟩
        | cons d q =>
          by_cases hd : d = '.'
          · subst hd
            exact .inl ⟨⟨rfl, q, rfl⟩, rfl⟩
          · refine .inr ⟨(by rintro ⟨-, _, h⟩; cases h; exact hd rfl), .cons_good hs (.inl rfl) ?_⟩
            cases he : encodeOf enc d with
            | none => exact .cons_bad hd he
            | some e =>
              refine .cons_good (buf' := [e]) ?_ (.inr (by simp [he])) (.of_ne_nil enc q (by omega) (by simp))
              rw [scan, if_neg hd, he]; rfl
      · refine .inr ⟨fun h => hst h.1, .cons_good hs (.inl ha) (.of_ne_nil enc q (by omega) ?_)⟩
        simp [padding, hst]
    · refine .inr ⟨(by rintro ⟨-, _, h⟩; cases h; exact ha rfl), ?_⟩
      cases he : encodeOf enc a with
      | none => exact .cons_bad ha he
      | some e =>
        refine .cons_good (buf' := bufAppend (padding st) e) ?_ (.inr (by simp [he]))
          (.of_ne_nil enc q (by omega) (by simp))
        rw [scan, if_neg ha, he]

end Sys2Proof.Machine
end

