-- ==== Sys2Proof/Laws/Pins.lean ====
section
/-! SUPPORT. What a pin write does (spec/40_construct_and_pins.md R111): its effect on lines, trace and load, and the
advance of SEQPOS, which commute. -/

namespace Sys2Proof.Machine

/-- A data write: level and trace, never the load. -/
theorem State.drive_data (s : State) (b : Bool) :
    s.drive .data b = { s with data := .ofBool b, trace := s.trace ++ [⟨.data, b⟩] } := by
  cases b <;> rfl

/-- A write of 0 to the clock: level and trace. -/
theorem State.drive_clock_low (s : State) :
    s.drive .clock false = { s with clk := .low, trace := s.trace ++ [⟨.clock, false⟩] } := rfl

/-- A write of 0 to the latch: level and trace. -/
theorem State.drive_latch_low (s : State) :
    s.drive .latch false = { s with lat := .low, trace := s.trace ++ [⟨.latch, false⟩] } := rfl

/-- A rising clock edge with a written DATA shifts that bit in. -/
theorem State.drive_clock_rise {s : State} {b : Bool} (hc : s.clk = .low) (hd : s.data.settled? = some b) :
    s.drive .clock true =
      { s with clk := .high, trace := s.trace ++ [⟨.clock, true⟩], sr := (s.sr.extractLsb' 0 15).concat b } := by
  simp [State.drive, State.raiseLine, State.onLine, State.drawsOf, hc, hd, State.loadShift,
    State.setLevel, State.record]

/-- A write of 1 to a clock that is 1: no edge. -/
theorem State.drive_clock_stay {s : State} (hc : s.clk = .high) :
    s.drive .clock true = { s with clk := .high, trace := s.trace ++ [⟨.clock, true⟩] } := by
  simp [State.drive, State.raiseLine, State.onLine, State.drawsOf, hc, State.setLevel, State.record]

/-- A rising latch edge commits the chain. -/
theorem State.drive_latch_rise {s : State} (hl : s.lat = .low) :
    s.drive .latch true =
      { s with lat := .high, trace := s.trace ++ [⟨.latch, true⟩], out := s.sr } := by
  simp [State.drive, State.raiseLine, State.onLine, State.drawsOf, hl, State.loadLatch,
    State.setLevel, State.record]

/-- A write of 1 to a latch that is 1: no edge. -/
theorem State.drive_latch_stay {s : State} (hl : s.lat = .high) :
    s.drive .latch true = { s with lat := .high, trace := s.trace ++ [⟨.latch, true⟩] } := by
  simp [State.drive, State.raiseLine, State.onLine, State.drawsOf, hl, State.setLevel, State.record]

/-- The part of a state a pin write's effect on lines and load may touch is disjoint from this one. -/
structure SameControl (s t : State) : Prop where
  constructed : t.constructed = s.constructed
  dataPin : t.dataPin = s.dataPin
  clockPin : t.clockPin = s.clockPin
  latchPin : t.latchPin = s.latchPin
  numDisplays : t.numDisplays = s.numDisplays
  render : t.render = s.render
  seqpos : t.seqpos = s.seqpos
  enc : t.enc = s.enc
  scripts : t.scripts = s.scripts
  pending : t.pending = s.pending
  result : t.result = s.result

/-- Driving a line touches lines, trace and load only. -/
theorem State.drive_sameControl (s : State) (p : Pin) (l : Bool) : SameControl s (s.drive p l) := by
  cases p <;> cases l <;> constructor <;>
    simp only [State.drive, State.raiseLine] <;> (try split) <;> simp

/-- The trace grows by the event written, whether or not the level changes (20_memory.md R57). -/
theorem State.drive_trace (s : State) (p : Pin) (l : Bool) : (s.drive p l).trace = s.trace ++ [⟨p, l⟩] := by
  cases p <;> cases l <;> simp only [State.drive, State.raiseLine] <;> (try split) <;> simp

/-- The line is at the level written. -/
theorem State.drive_level (s : State) (p : Pin) (l : Bool) : (s.drive p l).level p = .ofBool l := by
  cases p <;> cases l <;> simp only [State.drive, State.raiseLine] <;> (try split) <;> rfl

/-- The other lines keep their level. -/
theorem State.drive_level_ne (s : State) {p q : Pin} (l : Bool) (h : q ≠ p) :
    (s.drive p l).level q = s.level q := by
  cases p <;> cases l <;> cases q <;> simp only [State.drive, State.raiseLine] <;> (try split) <;>
    first | rfl | exact absurd rfl h

/-- SEQPOS, the operation-lifetime registers and the outcome are all that an advance may change. -/
theorem State.advance_eq (s : State) :
    s.advance = { s with seqpos := s.advance.seqpos, render := s.advance.render, result := s.advance.result } := by
  unfold State.advance State.nextInRefresh
  (repeat' split) <;> rfl

@[simp] theorem State.advance_constructed (s : State) : s.advance.constructed = s.constructed := by rw [s.advance_eq]
@[simp] theorem State.advance_dataPin (s : State) : s.advance.dataPin = s.dataPin := by rw [s.advance_eq]
@[simp] theorem State.advance_clockPin (s : State) : s.advance.clockPin = s.clockPin := by rw [s.advance_eq]
@[simp] theorem State.advance_latchPin (s : State) : s.advance.latchPin = s.latchPin := by rw [s.advance_eq]
@[simp] theorem State.advance_numDisplays (s : State) : s.advance.numDisplays = s.numDisplays := by rw [s.advance_eq]
@[simp] theorem State.advance_data (s : State) : s.advance.data = s.data := by rw [s.advance_eq]
@[simp] theorem State.advance_clk (s : State) : s.advance.clk = s.clk := by rw [s.advance_eq]
@[simp] theorem State.advance_lat (s : State) : s.advance.lat = s.lat := by rw [s.advance_eq]
@[simp] theorem State.advance_sr (s : State) : s.advance.sr = s.sr := by rw [s.advance_eq]
@[simp] theorem State.advance_out (s : State) : s.advance.out = s.out := by rw [s.advance_eq]
@[simp] theorem State.advance_trace (s : State) : s.advance.trace = s.trace := by rw [s.advance_eq]
@[simp] theorem State.advance_enc (s : State) : s.advance.enc = s.enc := by rw [s.advance_eq]
@[simp] theorem State.advance_scripts (s : State) : s.advance.scripts = s.scripts := by rw [s.advance_eq]
@[simp] theorem State.advance_pending (s : State) : s.advance.pending = s.pending := by rw [s.advance_eq]
@[simp] theorem State.advance_draws (s : State) : s.advance.draws = s.draws := by rw [s.advance_eq]

/-- In IDLE there is no position to advance (10_state.md R30). -/
theorem State.advance_idle {s : State} (h : s.seqpos = .idle) : s.advance = s := by simp [State.advance, h]

/-- An operation that ends ends the same way wherever SEQPOS had got to. -/
@[simp] theorem State.advance_finish (s : State) : s.advance.finish = s.finish := by
  rw [s.advance_eq]; rfl

/-- The advance of SEQPOS does not depend on lines, trace or load. -/
theorem State.advance_lines (s : State) (data clk lat : Level) (sr : BitVec 16) (out : Frame) (trace : List PinEvent)
    (draws : Nat) :
    State.advance { s with data := data, clk := clk, lat := lat, sr := sr, out := out, trace := trace,
                           draws := draws } =
      { s.advance with data := data, clk := clk, lat := lat, sr := sr, out := out, trace := trace,
                       draws := draws } := by
  unfold State.advance State.nextInRefresh
  dsimp only
  (repeat' split) <;> rfl

/-- Several advances at once do not depend on lines, trace or load. -/
theorem State.advance_iterate_lines (k : Nat) (s : State) (data clk lat : Level) (sr : BitVec 16) (out : Frame)
    (trace : List PinEvent) (draws : Nat) :
    State.advance^[k] { s with data := data, clk := clk, lat := lat, sr := sr, out := out, trace := trace,
                               draws := draws } =
      { State.advance^[k] s with data := data, clk := clk, lat := lat, sr := sr, out := out, trace := trace,
                                 draws := draws } := by
  induction k generalizing s with
  | zero => rfl
  | succ k ih => rw [Function.iterate_succ_apply, Function.iterate_succ_apply, State.advance_lines, ih]

/-- SEQPOS, the operation-lifetime registers and the outcome are all that advances may change. -/
theorem State.advance_iterate_eq (k : Nat) (s : State) :
    State.advance^[k] s =
      { s with seqpos := (State.advance^[k] s).seqpos, render := (State.advance^[k] s).render,
               result := (State.advance^[k] s).result } := by
  induction k generalizing s with
  | zero => rfl
  | succ k ih => rw [Function.iterate_succ_apply, ih, s.advance_eq]

/-- Whatever SEQPOS is, ending the operation forgets it. -/
@[simp] theorem State.advance_iterate_finish (k : Nat) (s : State) : (State.advance^[k] s).finish = s.finish := by
  induction k generalizing s with
  | zero => rfl
  | succ k ih => rw [Function.iterate_succ_apply, ih, State.advance_finish]

/-- In IDLE several advances do nothing. -/
theorem State.advance_iterate_idle (k : Nat) {s : State} (h : s.seqpos = .idle) : State.advance^[k] s = s := by
  induction k with
  | zero => rfl
  | succ k ih => rw [Function.iterate_succ_apply, State.advance_idle h, ih]

end Sys2Proof.Machine
end

