-- ==== Sys2Proof/Laws/Serial.lean ====
section
/-! SUPPORT. What the serial engine does to a state (spec/41_serial_engine.md R131, R133): the lines and the load end
as the bits sent, whatever they were, and SEQPOS has advanced by the number of pin writes. -/

namespace Sys2Proof.Machine

/-- One bit sent, SEQPOS apart. -/
def State.bitSent (s : State) (b : Bool) : State :=
  { s with
    data := .ofBool b
    clk := .high
    sr := (s.sr.extractLsb' 0 15).concat b
    trace := s.trace ++ bitEvents b }

/-- One byte sent, SEQPOS apart (41_serial_engine.md R131). -/
def State.byteSent (s : State) (v : Byte) : State :=
  { s with
    data := .ofBool (v.getLsbD 0)
    clk := .high
    sr := s.sr.extractLsb' 0 8 ++ v
    trace := s.trace ++ byteEvents v }

/-- The chain shifts in eight bits, most significant first, and holds the byte below its old low byte. -/
theorem shift_byte (x : BitVec 16) (v : Byte) :
    (List.range 8).foldl (fun x j => (x.extractLsb' 0 15).concat (v.getLsbD (7 - j))) x = x.extractLsb' 0 8 ++ v := by
  apply BitVec.eq_of_getLsbD_eq
  intro i hi
  simp only [List.range, List.range.loop, List.foldl]
  rw [BitVec.getLsbD_append]
  interval_cases i <;> simp

/-- The three pin writes of a bit, SEQPOS apart. -/
theorem State.drive_bit (s : State) (b : Bool) :
    ((s.drive .data b).drive .clock false).drive .clock true = s.bitSent b := by
  rw [State.drive_data, State.drive_clock_low, State.drive_clock_rise (b := b) rfl (by simp)]
  simp [State.bitSent, bitEvents]

/-- Lines, trace, load and draws are all that driving a line may change. -/
theorem State.drive_eq (s : State) (p : Pin) (l : Bool) :
    s.drive p l =
      { s with data := (s.drive p l).data, clk := (s.drive p l).clk, lat := (s.drive p l).lat,
               sr := (s.drive p l).sr, out := (s.drive p l).out, trace := (s.drive p l).trace,
               draws := (s.drive p l).draws } := by
  cases p <;> cases l <;> simp only [State.drive, State.raiseLine] <;> (try split) <;> rfl

/-- Driving a line does not depend on SEQPOS, the operation-lifetime registers or the outcome. -/
theorem State.drive_control (s : State) (p : Pin) (l : Bool) (seqpos : SeqPos) (render : Option RenderRegs)
    (result : Result) :
    State.drive { s with seqpos := seqpos, render := render, result := result } p l =
      { s.drive p l with seqpos := seqpos, render := render, result := result } := by
  have e (q : Pin) : State.onLine { s with seqpos := seqpos, render := render, result := result } q = s.onLine q := by
    cases q <;> rfl
  cases p <;> cases l <;> first
    | rfl
    | (simp only [State.drive, State.raiseLine, e]
       split <;> rfl)

/-- A pin write after an advance of SEQPOS. -/
theorem State.drive_advance (s : State) (p : Pin) (l : Bool) : s.advance.drive p l = (s.drive p l).advance := by
  conv_rhs => rw [State.drive_eq, State.advance_lines, State.advance_eq]
  conv_lhs => rw [State.advance_eq, State.drive_control, State.drive_eq]

/-- A pin write after several advances of SEQPOS. -/
theorem State.drive_advance_iterate (k : Nat) (s : State) (p : Pin) (l : Bool) :
    (State.advance^[k] s).drive p l = State.advance^[k] (s.drive p l) := by
  induction k generalizing s with
  | zero => rfl
  | succ k ih => rw [Function.iterate_succ_apply, Function.iterate_succ_apply, ih, State.drive_advance]

/-- A pin write after several advances is one more advance of the write. -/
theorem State.pinWrite_advance_iterate (k : Nat) (s : State) (p : Pin) (l : Bool) :
    (State.advance^[k] s).pinWrite p l = State.advance^[k + 1] (s.drive p l) := by
  rw [State.pinWrite, State.drive_advance_iterate, Function.iterate_succ_apply']

/-- A bit is sent in three pin writes. -/
theorem State.sendBit_eq (k : Nat) (s : State) (b : Bool) :
    (State.advance^[k] s).sendBit b = State.advance^[k + 3] (s.bitSent b) := by
  simp only [State.sendBit, State.pinWrite_advance_iterate, State.drive_bit]

/-- Bits are sent in three pin writes each. -/
theorem State.foldl_sendBit (bs : List Bool) (k : Nat) (s : State) :
    bs.foldl State.sendBit (State.advance^[k] s) =
      State.advance^[k + 3 * bs.length] (bs.foldl State.bitSent s) := by
  induction bs generalizing k s with
  | nil => rfl
  | cons b bs ih => simp only [List.foldl_cons, State.sendBit_eq, ih, List.length_cons]; congr 1; omega

/-- The bits of a byte in the order they go out. -/
def bitsOf (v : Byte) : List Bool := (List.range 8).map fun j => v.getLsbD (7 - j)

/-- Eight bits sent are the byte sent. -/
theorem State.foldl_bitSent (s : State) (v : Byte) : (bitsOf v).foldl State.bitSent s = s.byteSent v := by
  have h := shift_byte s.sr v
  simp only [List.range, List.range.loop, List.foldl] at h
  simp only [bitsOf, List.range, List.range.loop, List.map_cons, List.map_nil, List.foldl, State.bitSent,
    State.byteSent, byteEvents, List.flatMap_cons, List.flatMap_nil, h, List.append_assoc, List.append_nil]

/-- SEND_BYTE: 24 pin writes that leave the byte in the chain (41_serial_engine.md R131). -/
theorem State.sendByte_eq (k : Nat) (s : State) (v : Byte) :
    (State.advance^[k] s).sendByte v = State.advance^[k + 24] (s.byteSent v) := by
  have h := State.foldl_sendBit (bitsOf v) k s
  rw [State.foldl_bitSent, show 3 * (bitsOf v).length = 24 from rfl, bitsOf, List.foldl_map] at h
  exact h

/-- The parts of a frame. -/
@[simp] theorem segOf_frameOf (a b : Byte) : segOf (frameOf a b) = a := by
  apply BitVec.eq_of_getLsbD_eq
  intro i hi
  rw [segOf, frameOf, BitVec.getLsbD_extractLsb', BitVec.getLsbD_append]
  simp [hi]

/-- The parts of a frame. -/
@[simp] theorem selOf_frameOf (a b : Byte) : selOf (frameOf a b) = b := by
  apply BitVec.eq_of_getLsbD_eq
  intro i hi
  rw [selOf, frameOf, BitVec.getLsbD_extractLsb', BitVec.getLsbD_append]
  simp [hi]

/-- No frame sent: nothing changed. -/
@[simp] theorem State.sent_nil (s : State) : s.sent [] = s := rfl

/-- The state after frames whose last one is `f`. -/
theorem State.sent_concat (s : State) (fs : List Frame) (f : Frame) :
    s.sent (fs ++ [f]) =
      { s with data := .ofBool (f.getLsbD 0), clk := .high, lat := .high, sr := f, out := f,
               trace := s.trace ++ framesEvents (fs ++ [f]) } := by
  simp [State.sent]

/-- Frames sent in two lots. -/
theorem State.sent_append (s : State) (fs gs : List Frame) : (s.sent fs).sent gs = s.sent (fs ++ gs) := by
  rcases gs.eq_nil_or_concat with rfl | ⟨gs, g, rfl⟩
  · simp
  · rcases fs.eq_nil_or_concat with rfl | ⟨fs, f, rfl⟩
    · simp
    · rw [List.concat_eq_append, List.concat_eq_append, ← List.append_assoc, State.sent_concat, State.sent_concat, State.sent_concat]
      simp [framesEvents]

/-- SET_PORT: 50 pin writes that commit the frame (41_serial_engine.md R133). -/
theorem State.setPort_eq (k : Nat) (s : State) (a : Byte) (m : Mask) :
    (State.advance^[k] s).setPort a m = State.advance^[k + 50] (s.sent [frameOf a (lowByte m)]) := by
  simp only [State.setPort, State.sendByte_eq, State.latchPulse, State.pinWrite_advance_iterate]
  rw [State.drive_latch_low, State.drive_latch_rise rfl]
  have h : (s.sr.extractLsb' 0 8 ++ a).extractLsb' 0 8 = a := by
    apply BitVec.eq_of_getLsbD_eq
    intro i hi
    rw [BitVec.getLsbD_extractLsb', BitVec.getLsbD_append]
    simp [hi]
  have h0 : (frameOf a (lowByte m)).getLsbD 0 = (lowByte m).getLsbD 0 := by
    rw [frameOf, BitVec.getLsbD_append]
    simp
  simp only [State.byteSent, State.sent, List.getLast?_singleton, framesEvents, List.flatMap_cons, List.flatMap_nil,
    frameEvents, segOf_frameOf, selOf_frameOf, List.append_assoc, List.append_nil, List.cons_append, List.nil_append,
    h, h0]

/-- SET_PORT's state: the frame sent, SEQPOS fifty writes on. -/
theorem State.setPort_spec (s : State) (a : Byte) (m : Mask) :
    s.setPort a m = State.advance^[50] (s.sent [frameOf a (lowByte m)]) := by
  simpa using State.setPort_eq 0 s a m

/-- SEND_BYTE's state: the byte sent, SEQPOS twenty-four writes on. -/
theorem State.sendByte_spec (s : State) (v : Byte) : s.sendByte v = State.advance^[24] (s.byteSent v) := by
  simpa using State.sendByte_eq 0 s v

/-- Sending frames and ending the operation touch different registers. -/
theorem State.finish_sent (s : State) (fs : List Frame) : (s.sent fs).finish = s.finish.sent fs := by
  unfold State.sent
  split <;> rfl

/-- Sending frames keeps SEQPOS. -/
@[simp] theorem State.sent_seqpos (s : State) (fs : List Frame) : (s.sent fs).seqpos = s.seqpos := by
  unfold State.sent; split <;> rfl

/-- The trace of frames sent (44_refresh_scheduler.md). -/
@[simp] theorem State.sent_trace (s : State) (fs : List Frame) : (s.sent fs).trace = s.trace ++ framesEvents fs := by
  unfold State.sent
  split
  · rename_i h
    rw [List.getLast?_eq_none_iff.1 h]
    simp [framesEvents]
  · rfl

end Sys2Proof.Machine
end

