-- ==== Sys2Proof/Laws/Refresh.lean ====
section
/-! SUPPORT. What CLEAR and RENDER do to a state: the frames of spec/44_refresh_scheduler.md R190, R193 to R195 have
been sent and the operation has ended. -/

namespace Sys2Proof.Machine

/-- SET_PORTs one after the other send their frames. -/
theorem State.foldl_setPort {α : Type} (seg : α → Byte) (mask : α → Mask) (l : List α) (k : Nat) (s : State) :
    l.foldl (fun s a => s.setPort (seg a) (mask a)) (State.advance^[k] s) =
      State.advance^[k + 50 * l.length] (s.sent (l.map fun a => frameOf (seg a) (lowByte (mask a)))) := by
  induction l generalizing k s with
  | nil => rfl
  | cons a l ih =>
    rw [List.foldl_cons, State.setPort_eq, ih, State.sent_append, List.length_cons]
    congr 1
    omega

/-- CLEAR's loop sends its frames (R190). -/
theorem State.clearDigits_eq (k : Nat) (s : State) (n : Nat) :
    (State.advance^[k] s).clearDigits n = State.advance^[k + 50 * n] (s.sent (clearFrames n)) := by
  simpa [State.clearDigits, clearFrames, selectByte] using
    State.foldl_setPort (fun _ => Config.blank) selectMask (List.range n) k s

/-- One refresh pass sends its frames (R193). -/
theorem State.refreshPass_eq (k : Nat) (s : State) (n : Nat) (buf : List Byte) :
    (State.advance^[k] s).refreshPass n buf = State.advance^[k + 50 * buf.length] (s.sent (passFrames n buf)) := by
  simpa [State.refreshPass, passFrames, selectByte] using
    State.foldl_setPort (fun bi : Byte × Nat => bi.1) (fun bi => selectMask (position n bi.2)) buf.zipIdx k s

/-- The passes send the pass's frames again and again (R194). -/
theorem State.refreshPasses_eq (k : Nat) (s : State) (n : Nat) (buf : List Byte) (rc : Nat) :
    (State.advance^[k] s).refreshPasses n buf rc =
      State.advance^[k + 50 * (rc * buf.length)] (s.sent (List.replicate rc (passFrames n buf)).flatten) := by
  induction rc generalizing k s with
  | zero => simp [State.refreshPasses]
  | succ rc ih =>
    rw [State.refreshPasses, State.refreshPass_eq, ih, State.sent_append, List.replicate_succ, List.flatten_cons]
    congr 1
    rw [Nat.add_mul]
    omega

/-- CLEAR: its frames sent, the operation ended (R190, R191). -/
theorem State.runClear_eq (s : State) : s.runClear = s.finish.sent (clearFrames s.numDisplays) := by
  have h := State.clearDigits_eq 0 s.acceptClear s.numDisplays
  rw [Function.iterate_zero, id] at h
  rw [State.runClear, h, State.advance_iterate_finish, State.finish_sent]
  rfl

/-- Acceptance and the end of the build leave no mark once the operation has ended. -/
theorem State.enterRefresh_finish (s : State) (q : List Char) (rc st : Nat) (ca : Bool) (buf : List Byte) :
    ((s.acceptRender q rc ca st).enterRefresh buf ca).finish = s.finish := by
  unfold State.enterRefresh
  dsimp only
  (repeat' split) <;> rfl

/-- RENDER whose build gives `buf`: its frames sent, the operation ended (R192 to R195, R199). -/
theorem State.runRender_ok {s : State} {q : List Char} {rc st : Nat} {ca : Bool} {buf : List Byte}
    (h : build s.enc q st s.numDisplays = .ok buf) :
    s.runRender q rc ca st = .ok (s.finish.sent (renderFrames s.numDisplays rc ca buf)) := by
  have hp := State.refreshPasses_eq 0 ((s.acceptRender q rc ca st).enterRefresh buf ca) s.numDisplays buf rc
  rw [Function.iterate_zero, id] at hp
  unfold State.runRender
  rw [h]
  simp only [hp]
  cases ca
  · simp [renderFrames, State.finish_sent, State.enterRefresh_finish]
  · simp only [if_true, State.clearDigits_eq, State.advance_iterate_finish, State.finish_sent, State.sent_append,
      State.enterRefresh_finish, renderFrames]

/-- RENDER whose build raises: nothing but the error (R192; 60_exceptions.md R238). -/
theorem State.runRender_error {s : State} {q : List Char} {rc st : Nat} {ca : Bool} {e : Error}
    (h : build s.enc q st s.numDisplays = .error e) : s.runRender q rc ca st = .error e := by
  unfold State.runRender
  rw [h]

/-- An operation offered to an idle, constructed block goes on. -/
theorem State.whenReady_eq {s : State} (hi : s.seqpos = .idle) (hc : s.constructed = true) (f : State → Answer) :
    s.whenReady f = f s := by
  simp [State.whenReady, hi, hc]

/-- CLEAR on an idle, constructed block (R190). -/
theorem execClear_eq {s : State} (hi : s.seqpos = .idle) (hc : s.constructed = true) :
    execClear s = .next (s.finish.sent (clearFrames s.numDisplays)) := by
  rw [execClear, State.whenReady_eq hi hc, State.runClear_eq]

/-- RENDER on an idle, constructed block, when its build succeeds (R192). -/
theorem execRender_ok {s : State} {q : List Char} {rc st : Nat} {ca : Bool} {buf : List Byte} (hi : s.seqpos = .idle)
    (hc : s.constructed = true) (hr : rc ≠ 0) (h : build s.enc q st s.numDisplays = .ok buf) :
    execRender q rc ca st s = .next (s.finish.sent (renderFrames s.numDisplays rc ca buf)) := by
  rw [execRender, State.whenReady_eq hi hc, if_neg hr, State.runRender_ok h]

/-- RENDER on an idle, constructed block, when its build raises (R192). -/
theorem execRender_error {s : State} {q : List Char} {rc st : Nat} {ca : Bool} {e : Error} (hi : s.seqpos = .idle)
    (hc : s.constructed = true) (hr : rc ≠ 0) (h : build s.enc q st s.numDisplays = .error e) :
    execRender q rc ca st s = .next (s.raise e) := by
  rw [execRender, State.whenReady_eq hi hc, if_neg hr, State.runRender_error h]

end Sys2Proof.Machine
end

