-- ==== Sys2Proof/Laws/SelfTest.lean ====
section
/-! SUPPORT. What TEST does to a state (spec/45_test.md R220): the frames of its script have been sent and the operation
has ended. What every host operation but CONSTRUCT does has one form. -/

namespace Sys2Proof.Machine

/-- An operation has ended with the outcome `r`. -/
def State.ended (s : State) (r : Result) : State := { s with seqpos := .idle, render := none, result := r }

theorem State.ended_done (s : State) : s.ended .done = s.finish := rfl

theorem State.ended_raised (s : State) (e : Error) : s.ended (.raised e) = s.raise e := rfl

/-- How an operation had got to its end is forgotten. -/
theorem State.ended_ended (s : State) (r r' : Result) : (s.ended r).ended r' = s.ended r' := rfl

/-- How far SEQPOS had got is forgotten. -/
theorem State.advance_iterate_ended (k : Nat) (s : State) (r : Result) : (State.advance^[k] s).ended r = s.ended r := by
  rw [State.advance_iterate_eq]; rfl

/-- Sending frames and ending the operation touch different registers. -/
theorem State.ended_sent (s : State) (fs : List Frame) (r : Result) : (s.sent fs).ended r = (s.ended r).sent fs := by
  unfold State.sent
  split <;> rfl

@[simp] theorem State.sent_enc (s : State) (fs : List Frame) : (s.sent fs).enc = s.enc := by
  unfold State.sent; split <;> rfl
@[simp] theorem State.sent_numDisplays (s : State) (fs : List Frame) : (s.sent fs).numDisplays = s.numDisplays := by
  unfold State.sent; split <;> rfl
@[simp] theorem State.sent_render (s : State) (fs : List Frame) : (s.sent fs).render = s.render := by
  unfold State.sent; split <;> rfl
@[simp] theorem State.sent_constructed (s : State) (fs : List Frame) : (s.sent fs).constructed = s.constructed := by
  unfold State.sent; split <;> rfl
@[simp] theorem State.sent_draws (s : State) (fs : List Frame) : (s.sent fs).draws = s.draws := by
  unfold State.sent; split <;> rfl
@[simp] theorem State.sent_scripts (s : State) (fs : List Frame) : (s.sent fs).scripts = s.scripts := by
  unfold State.sent; split <;> rfl

/-- Sending frames keeps the configuration. -/
theorem State.sent_keeps (s : State) (fs : List Frame) : KeepsConfiguration s (s.sent fs) := by
  unfold State.sent; split <;> constructor <;> rfl

/-- The script TEST performs sends frames the block issues, and no others (30_encoding.md R85, R86). -/
theorem scriptFor_issued {enc : Memory} {scripts : List (Nat × ScriptPhases)} {n : Nat} {ops : List ScriptOp}
    (h : scriptFor enc scripts n = some ops) : ∀ op ∈ ops, issuedOp enc n op = true := by
  obtain ⟨e, -, h⟩ := Option.bind_eq_some_iff.1 h
  split at h
  · cases h; exact List.all_eq_true.1 ‹_›
  · cases h

/-- The operations of a script of the outline raise nothing and send frames the block issues (45_test.md R221). -/
theorem ScriptPhases.conforms_ops {ph : ScriptPhases} {enc : Memory} {n : Nat} (h : ph.conforms enc n = true) :
    ∀ op ∈ ph.all, opErrorFree enc n op = true ∧ issuedOp enc n op = true := by
  unfold ScriptPhases.conforms at h
  simp only [Bool.and_eq_true, List.all_eq_true] at h
  exact h.1.1.1.1.1.1

/-- Where every script is of the outline, one there is for N is the one TEST performs. -/
theorem scriptFor_of_conforms {enc : Memory} {scripts : List (Nat × ScriptPhases)} {n : Nat}
    (h : ∀ e ∈ scripts, e.2.conforms enc e.1 = true) (hn : ∃ e ∈ scripts, e.1 = n) :
    ∃ ops, scriptFor enc scripts n = some ops ∧ ConformingScript enc n ops := by
  obtain ⟨x, hx, hxn⟩ := hn
  obtain ⟨e, he⟩ := Option.isSome_iff_exists.1 (List.find?_isSome (p := fun e : Nat × ScriptPhases => e.1 == n) |>.2
    ⟨x, hx, by simpa using hxn⟩)
  have hen : e.1 = n := by simpa using List.find?_some he
  have hc := h e (List.mem_of_find?_eq_some he)
  rw [hen] at hc
  refine ⟨e.2.all, ?_, e.2, hc, rfl⟩
  rw [scriptFor, he]
  exact if_pos (List.all_eq_true.2 fun op ho => (ScriptPhases.conforms_ops hc op ho).2)

/-- The frames a script puts out and what TEST answers, or nothing when it is refused. -/
def scriptOutcome (enc : Memory) (n : Nat) : List ScriptOp → Option (List Frame × Result)
  | [] => some ([], .done)
  | .setPort a m :: ops => (scriptOutcome enc n ops).map fun o => (frameOf a (lowByte m) :: o.1, o.2)
  | .clear :: ops => (scriptOutcome enc n ops).map fun o => (clearFrames n ++ o.1, o.2)
  | .render q rc ca st :: ops =>
    if rc = 0 then none
    else
      match build enc q st n with
      | .error e => some ([], .raised e)
      | .ok buf => (scriptOutcome enc n ops).map fun o => (renderFrames n rc ca buf ++ o.1, o.2)

/-- The state an outcome stands for. -/
def State.answerOf (s : State) : Option (List Frame × Result) → Answer
  | some o => .next ((s.sent o.1).ended o.2)
  | none => .refused .zeroRedrawCount

theorem State.answerOf_map (s t : State) (fs : List Frame) (o : Option (List Frame × Result))
    (h : ∀ r, t.ended r = (s.sent fs).ended r) :
    t.answerOf o = s.answerOf (o.map fun o => (fs ++ o.1, o.2)) := by
  cases o with
  | none => rfl
  | some o =>
    show Host.Outcome.next _ = Host.Outcome.next _
    rw [State.ended_sent, h, ← State.ended_sent, State.sent_append]

/-- TEST's script, all of it (R220). -/
theorem State.runScript_eq (ops : List ScriptOp) (s : State) :
    State.runScript ops s = s.answerOf (scriptOutcome s.enc s.numDisplays ops) := by
  induction ops generalizing s with
  | nil => rfl
  | cons op ops ih =>
    cases op with
    | setPort a m =>
      rw [State.runScript, ih, State.setPort_spec]
      have he : (State.advance^[50] (s.sent [frameOf a (lowByte m)])).enc = s.enc := by
        rw [State.advance_iterate_eq]; exact s.sent_enc _
      have hn : (State.advance^[50] (s.sent [frameOf a (lowByte m)])).numDisplays = s.numDisplays := by
        rw [State.advance_iterate_eq]; exact s.sent_numDisplays _
      rw [he, hn]
      exact State.answerOf_map _ _ _ _ (State.advance_iterate_ended _ _)
    | clear =>
      rw [State.runScript, ih, State.runClear_eq, State.sent_enc, State.sent_numDisplays]
      refine State.answerOf_map _ _ _ _ fun r => ?_
      rw [← State.finish_sent]; rfl
    | render q rc ca st =>
      rw [State.runScript, scriptOutcome]
      by_cases hr : rc = 0
      · rw [if_pos hr, if_pos hr]; rfl
      · rw [if_neg hr, if_neg hr]
        cases hb : build s.enc q st s.numDisplays with
        | error e => rw [State.runRender_error hb]; rfl
        | ok buf =>
          rw [State.runRender_ok hb]
          simp only
          rw [ih, State.sent_enc, State.sent_numDisplays]
          refine State.answerOf_map _ _ _ _ fun r => ?_
          rw [← State.finish_sent]; rfl

/-- A script whose operations raise nothing puts out all their frames. -/
theorem scriptOutcome_errorFree {enc : Memory} {n : Nat} {ops : List ScriptOp}
    (h : ∀ op ∈ ops, opErrorFree enc n op = true) :
    scriptOutcome enc n ops = some (ops.flatMap (opFrames enc n), .done) := by
  induction ops with
  | nil => rfl
  | cons op ops ih =>
    have ih := ih fun op hop => h op (List.mem_cons_of_mem _ hop)
    have h := h op (List.mem_cons_self ..)
    cases op with
    | setPort a m => simp [scriptOutcome, ih, opFrames]
    | clear => simp [scriptOutcome, ih, opFrames]
    | render q rc ca st =>
      simp only [opErrorFree, Bool.and_eq_true, decide_eq_true_eq] at h
      cases hb : build enc q st n with
      | error e => simp [hb, Except.toOption] at h
      | ok buf => simp [scriptOutcome, ih, opFrames, hb, show rc ≠ 0 by omega]

/-- A script whose operations raise nothing up to a RENDER comes to that RENDER after all their frames. -/
theorem scriptOutcome_append {enc : Memory} {n : Nat} {front : List ScriptOp} (back : List ScriptOp)
    (h : ∀ op ∈ front, opErrorFree enc n op = true) : scriptOutcome enc n (front ++ back) =
      (scriptOutcome enc n back).map fun o => (front.flatMap (opFrames enc n) ++ o.1, o.2) := by
  induction front with
  | nil => simp
  | cons op ops ih =>
    have ih := ih fun op hop => h op (List.mem_cons_of_mem _ hop)
    have h := h op (List.mem_cons_self ..)
    cases op with
    | setPort a m => simp [scriptOutcome, ih, opFrames, Function.comp_def]
    | clear => simp [scriptOutcome, ih, opFrames, Function.comp_def]
    | render q rc ca st =>
      simp only [opErrorFree, Bool.and_eq_true, decide_eq_true_eq] at h
      cases hb : build enc q st n with
      | error e => simp [hb, Except.toOption] at h
      | ok buf => simp [scriptOutcome, ih, opFrames, hb, show rc ≠ 0 by omega, Function.comp_def]

/-- What a host operation other than CONSTRUCT puts out and answers, or nothing when it is refused. -/
def hostOutcome (enc : Memory) (n : Nat) (scripts : List (Nat × ScriptPhases)) : Instr → Option (List Frame × Result)
  | .render q rc ca st => scriptOutcome enc n [.render q rc ca st]
  | .clear => scriptOutcome enc n [.clear]
  | .test => (scriptFor enc scripts n).bind (scriptOutcome enc n)
  | _ => none

/-- Every host operation but CONSTRUCT that goes on has sent frames and ended; frames and outcome depend on its operands,
on N and on the constant tables. -/
theorem exec_host {i : Instr} {s t : State} (h3 : i.level = 3) (hc : ∀ d c l n, i ≠ .construct d c l n)
    (h : exec i s = .next t) : s.seqpos = .idle ∧ s.constructed = true ∧ ∃ o,
      hostOutcome s.enc s.numDisplays s.scripts i = some o ∧ t = (s.sent o.1).ended o.2 := by
  have key (f : State → Answer) (h : s.whenReady f = .next t) :
      s.seqpos = .idle ∧ s.constructed = true ∧ f s = .next t := by
    unfold State.whenReady at h
    split at h
    · cases h
    · split at h
      · cases h
      · rename_i h1 h2
        exact ⟨Decidable.not_not.1 h1, by simpa using h2, h⟩
  cases i with
  | construct d c l n => exact absurd rfl (hc d c l n)
  | render q rc ca st =>
    rw [exec, execRender] at h
    obtain ⟨h1, h2, h⟩ := key _ h
    refine ⟨h1, h2, ?_⟩
    split at h
    · cases h
    · rename_i hr
      cases hb : build s.enc q st s.numDisplays with
      | error e =>
        rw [State.runRender_error hb] at h
        cases h
        exact ⟨_, by rw [hostOutcome, scriptOutcome, if_neg hr, hb], rfl⟩
      | ok buf =>
        rw [State.runRender_ok hb] at h
        cases h
        refine ⟨_, by rw [hostOutcome, scriptOutcome, if_neg hr, hb]; rfl, ?_⟩
        rw [State.ended_done, State.finish_sent]
        simp
  | clear =>
    rw [exec, execClear] at h
    obtain ⟨h1, h2, h⟩ := key _ h
    cases h
    refine ⟨h1, h2, _, rfl, ?_⟩
    rw [State.ended_done, State.finish_sent, State.runClear_eq]
    simp
  | test =>
    rw [exec, execTest] at h
    obtain ⟨h1, h2, h⟩ := key _ h
    refine ⟨h1, h2, ?_⟩
    split at h
    · cases h
    · rename_i ops ho
      rw [State.runScript_eq] at h
      cases hs : scriptOutcome s.enc s.numDisplays ops with
      | none => rw [hs] at h; cases h
      | some o =>
        rw [hs] at h
        cases h
        exact ⟨o, by rw [hostOutcome, ho]; exact hs, rfl⟩
  | _ => cases h3

/-- What CONSTRUCT does when it goes on: it raises, or stores the configuration (40_construct_and_pins.md R117). -/
theorem exec_construct {d c l : PinId} {n : Int} {s t : State} (h : exec (.construct d c l n) s = .next t) :
    s.seqpos = .idle ∧ s.constructed = false ∧
      ((legalDigits n = false ∧ t = s.raise (.invalidConfiguration n)) ∨
        (legalDigits n = true ∧ pairwiseDistinct d c l ∧ t = (s.constructWith d c l n.toNat).finish)) := by
  rw [exec, execConstruct] at h
  split at h
  · cases h
  · rename_i h1
    split at h
    · cases h
    · rename_i h2
      refine ⟨Decidable.not_not.1 h1, by simpa using h2, ?_⟩
      split at h
      · cases h; exact .inl ⟨‹_›, rfl⟩
      · rename_i h3
        split at h
        · cases h; exact .inr ⟨by simpa using h3, ‹_›, rfl⟩
        · cases h

/-- No operation writes ENC (10_state.md R26), so its canonical form is kept. -/
theorem exec_enc {i : Instr} {s t : State} (h : exec i s = .next t) : t.enc = s.enc := by
  have hp (p : Pin) (l : Bool) : (s.pinWrite p l).enc = s.enc := by
    rw [State.pinWrite, State.advance_enc, (s.drive_sameControl p l).enc]
  by_cases h3 : i.level = 3
  · by_cases hc : ∀ d c l n, i ≠ .construct d c l n
    · obtain ⟨-, -, o, -, rfl⟩ := exec_host h3 hc h
      exact State.sent_enc s o.1
    · push Not at hc
      obtain ⟨d, c, l, n, rfl⟩ := hc
      obtain ⟨-, -, ⟨-, rfl⟩ | ⟨-, -, rfl⟩⟩ := exec_construct h <;> rfl
  · cases i with
    | construct | render | clear | test => exact absurd rfl h3
    | sendByte v =>
      rw [exec, execSendByte, Host.Outcome.next.injEq] at h
      rw [← h, State.sendByte_spec, State.advance_iterate_eq]
      rfl
    | setPort a m =>
      rw [exec, execSetPort, Host.Outcome.next.injEq] at h
      rw [← h, State.setPort_spec, State.advance_iterate_eq]
      exact State.sent_enc s _
    | dataWr | clkLo | clkHi | latLo | latHi => cases h; exact hp _ _
    | cfgOut p => cases h; exact State.setLevel_enc s p _
    | encodeChar | dpOn | onehot | phys => cases h; rfl
    | buildBuffer q st n =>
      rw [exec, execBuildBuffer] at h
      split at h <;> cases h <;> rfl

end Sys2Proof.Machine
end

