-- ==== Sys2Proof/Laws/Frames.lean ====
section
/-! SUPPORT. Frames: the select byte of a position (spec/43_digit_select.md R180), the frame lists of CLEAR and of a pass
(44_refresh_scheduler.md R190, R193), what a frame lights (60_exceptions.md R247), and what a probe at the pins sees
(41_serial_engine.md R136). -/

namespace Sys2Proof.Machine

theorem selectByte_eq {p : Nat} (h : p < 8) : selectByte p = 1#8 <<< p := by
  interval_cases p <;> decide

theorem frameOf_bit0 (a b : Byte) : (frameOf a b).getLsbD 0 = b.getLsbD 0 := by
  rw [frameOf, BitVec.getLsbD_append]; simp

/-- CLEAR's frames, the select bytes written out (R190). -/
theorem clearFrames_eq {n : Nat} (h : n ≤ 8) :
    clearFrames n = (List.range n).map fun i => frameOf 0xFF#8 (1#8 <<< i) := by
  apply List.map_congr_left
  intro i hi
  rw [selectByte_eq (by have := List.mem_range.1 hi; omega)]
  rfl

/-- A pass's frames, positions and select bytes written out (R193). -/
theorem passFrames_eq {n : Nat} {buf : List Byte} (h : n ≤ 8) (hl : buf.length ≤ n) :
    passFrames n buf = buf.mapIdx fun i b => frameOf b (1#8 <<< (n - 1 - i)) := by
  apply List.ext_getElem
  · simp [passFrames]
  · intro i h1 h2
    simp [passFrames] at h1 ⊢
    rw [position, if_pos (by omega), selectByte_eq (by omega)]

/-- CLEAR's last frame (R191). -/
theorem clearFrames_last {n : Nat} (h : 1 ≤ n) :
    clearFrames n = clearFrames (n - 1) ++ [frameOf Config.blank (selectByte (n - 1))] := by
  obtain ⟨m, rfl⟩ : ∃ m, n = m + 1 := ⟨n - 1, by omega⟩
  rw [clearFrames, List.range_succ, List.map_append]
  rfl

/-- A pass's last frame (R199). -/
theorem passFrames_last (n : Nat) (f : List Byte) (b : Byte) :
    passFrames n (f ++ [b]) = passFrames n f ++ [frameOf b (selectByte (position n f.length))] := by
  simp [passFrames, List.zipIdx_append]

/-- Every byte is one frame. -/
theorem passFrames_length (n : Nat) (buf : List Byte) : (passFrames n buf).length = buf.length := by
  simp [passFrames]

/-- The last frame of repeated lists is the list's (R194). -/
theorem replicate_flatten_last {α : Type} {rc : Nat} (hr : rc ≠ 0) (l : List α) (x : α) :
    ∃ g, (List.replicate rc (l ++ [x])).flatten = g ++ [x] := by
  obtain ⟨m, rfl⟩ : ∃ m, rc = m + 1 := ⟨rc - 1, by omega⟩
  rw [List.replicate_succ', List.flatten_append]
  exact ⟨(List.replicate m (l ++ [x])).flatten ++ l, by simp⟩

/-- The number of frames of a RENDER (R197). -/
theorem renderFrames_length (n rc : Nat) (ca : Bool) (buf : List Byte) :
    (renderFrames n rc ca buf).length = transactions n rc ca buf.length := by
  rw [renderFrames, transactions, List.length_append]
  congr 1
  · simp [passFrames]
  · cases ca <;> simp [clearFrames]

/-- Fifty pin writes a frame (41_serial_engine.md R135). -/
theorem framesEvents_length (fs : List Frame) : (framesEvents fs).length = 50 * fs.length := by
  induction fs with
  | nil => rfl
  | cons f fs ih =>
    rw [framesEvents] at ih
    rw [framesEvents, List.flatMap_cons, List.length_append, ih, List.length_cons,
      show (frameEvents f).length = 50 from rfl]
    omega

/-- What a frame whose select byte names position `q` lights (60_exceptions.md R247). -/
theorem lit_frameOf (a : Byte) {q : Nat} (hq : q < 8) (n p k : Nat) :
    lit (frameOf a (1#8 <<< q)) n p k = (decide (p < n) && decide (p = q) && decide (k < 8) && !a.getLsbD k) := by
  have hp : (1#8 <<< q).getLsbD p = decide (p = q) := by
    by_cases hp : p < 8
    · interval_cases p <;> interval_cases q <;> decide
    · rw [BitVec.getLsbD_of_ge _ _ (by omega)]
      simp
      omega
  rw [lit, selOf_frameOf, segOf_frameOf, hp]
  cases decide (p < n) <;> cases decide (k < 8) <;> cases decide (p = q) <;> rfl

/-- A probe sees a byte go into the chain, whatever it held (41_serial_engine.md R131). -/
theorem Probe.frames_byte (p : Probe) (v : Byte) (es : List PinEvent) :
    p.frames (byteEvents v ++ es) = Probe.frames ⟨v.getLsbD 0, true, p.lat, p.sr.extractLsb' 0 8 ++ v⟩ es := by
  have h (l : List Bool) (p : Probe) (hl : l ≠ []) : p.frames (l.flatMap bitEvents ++ es) =
      Probe.frames ⟨l.getLast hl, true, p.lat, l.foldl (fun x b => (x.extractLsb' 0 15).concat b) p.sr⟩ es := by
    induction l generalizing p with
    | nil => exact absurd rfl hl
    | cons b l ih =>
      have hb (es : List PinEvent) : p.frames (bitEvents b ++ es) =
          Probe.frames ⟨b, true, p.lat, (p.sr.extractLsb' 0 15).concat b⟩ es := rfl
      rw [List.flatMap_cons, List.append_assoc, hb]
      by_cases hl' : l = []
      · subst hl'; rfl
      · rw [ih _ hl', List.getLast_cons hl']; rfl
  have hv : byteEvents v = (bitsOf v).flatMap bitEvents := by rw [byteEvents, bitsOf, List.flatMap_map]
  rw [hv, h _ _ (by simp [bitsOf]), ← shift_byte p.sr v]
  rfl

/-- A probe sees a transaction's frame at its latch edge, whatever it held (41_serial_engine.md R136). -/
theorem Probe.frames_frame (p : Probe) (f : Frame) (es : List PinEvent) :
    ∃ p', p.frames (frameEvents f ++ es) = f :: Probe.frames p' es := by
  rw [frameEvents, List.append_assoc, List.append_assoc, Probe.frames_byte, Probe.frames_byte]
  let z : BitVec 16 := (p.sr.extractLsb' 0 8 ++ segOf f : BitVec 16).extractLsb' 0 8 ++ selOf f
  refine ⟨⟨(selOf f).getLsbD 0, true, true, z⟩, ?_⟩
  show z :: Probe.frames ⟨(selOf f).getLsbD 0, true, true, z⟩ es = _
  congr 1
  show (p.sr.extractLsb' 0 8 ++ segOf f : BitVec 16).extractLsb' 0 8 ++ selOf f = f
  apply BitVec.eq_of_getLsbD_eq
  intro i hi
  rw [BitVec.getLsbD_append]
  by_cases h : i < 8
  · simp [h, selOf]
  · simp only [h, if_false, segOf]
    rw [BitVec.getLsbD_extractLsb', BitVec.getLsbD_append]
    have h8 : i - 8 < 8 := by omega
    simp [h8, show 8 + (i - 8) = i by omega]

/-- The frame list of the events of frames is the frames (41_serial_engine.md R136). -/
theorem Probe.frames_eq (p : Probe) (fs : List Frame) : p.frames (framesEvents fs) = fs := by
  induction fs generalizing p with
  | nil => rfl
  | cons f fs ih =>
    rw [framesEvents, List.flatMap_cons]
    obtain ⟨p', h⟩ := Probe.frames_frame p f (List.flatMap frameEvents fs)
    rw [h, ← framesEvents, ih]

end Sys2Proof.Machine
end

