-- ==== Sys2Proof/Laws/Memory.lean ====
section
/-! SUPPORT. ENC as a read-only memory (spec/20_memory.md R50): its canonical form, reading it, and the table after
reset (42_char_lookup.md R151). No operation writes it. -/

namespace Sys2Proof.Machine

/-- What a read answers is in the list. -/
theorem Memory.mem_of_read {m : Memory} {a : Nat} {b : Byte} (h : Memory.read m a = some b) : (a, b) ∈ m := by
  induction m with
  | nil => cases h
  | cons e m ih =>
    obtain ⟨x, y⟩ := e
    rw [Memory.read] at h
    split at h
    · subst x; cases h; simp
    · simp [ih h]

/-- The canonical form says that the addresses rise, everywhere. -/
theorem Memory.wf_cons {x : Host.Cell} {m : Memory} :
    Memory.wf (x :: m) = true ↔ Memory.wf m = true ∧ ∀ e ∈ m, x.1 < e.1 := by
  induction m generalizing x with
  | nil => simp [Memory.wf]
  | cons y m ih =>
    obtain ⟨a, b⟩ := x
    obtain ⟨a', b'⟩ := y
    simp only [Memory.wf, Bool.and_eq_true, decide_eq_true_eq, List.forall_mem_cons]
    constructor
    · rintro ⟨h, hm⟩
      exact ⟨hm, h, fun e he => Nat.lt_trans h ((ih.1 hm).2 e he)⟩
    · rintro ⟨hm, h, -⟩
      exact ⟨h, hm⟩

/-- In canonical form a listed cell is what a read answers. -/
theorem Memory.read_of_mem {m : Memory} {a : Nat} {b : Byte} (hw : Memory.wf m = true) (h : (a, b) ∈ m) :
    Memory.read m a = some b := by
  induction m with
  | nil => cases h
  | cons e m ih =>
    obtain ⟨x, y⟩ := e
    rw [Memory.read]
    have hw' := Memory.wf_cons.1 hw
    rcases List.mem_cons.1 h with h | h
    · cases h; simp
    · have hlt : x < a := hw'.2 _ h
      rw [if_neg (by omega)]
      exact ih hw'.1 h

/-- Canonical form, as a list that rises. -/
theorem Memory.wf_iff {m : Memory} : Memory.wf m = true ↔ m.Pairwise fun x y => x.1 < y.1 := by
  induction m with
  | nil => simp [Memory.wf]
  | cons x m ih => rw [Memory.wf_cons, List.pairwise_cons, ih, and_comm]

/-- The table after reset is in canonical form. -/
theorem encTable_wf : Memory.wf Config.encTable = true := by
  rw [Memory.wf_iff, Config.encTable, List.pairwise_map]
  exact List.Pairwise.filter _ List.pairwise_lt_range'

/-- The table after reset answers an entry for the printable characters that have one, and nothing else. -/
theorem encTable_read (a : Nat) : Memory.read Config.encTable a =
    if 0x20 ≤ a ∧ a ≤ 0x7E ∧ Config.encHas a = true then some (Config.encEntry a) else none := by
  have hm (b : Byte) : (a, b) ∈ Config.encTable ↔
      (0x20 ≤ a ∧ a ≤ 0x7E ∧ Config.encHas a = true) ∧ Config.encEntry a = b := by
    unfold Config.encTable
    simp only [List.mem_map, List.mem_filter, List.mem_range'_1, Prod.mk.injEq]
    constructor
    · rintro ⟨x, ⟨hx, hh⟩, rfl, rfl⟩; exact ⟨⟨hx.1, by omega, hh⟩, rfl⟩
    · rintro ⟨⟨h1, h2, h3⟩, rfl⟩; exact ⟨a, ⟨⟨h1, by omega⟩, h3⟩, rfl, rfl⟩
  apply Option.ext
  intro b
  constructor
  · intro h
    have := (hm b).1 (Memory.mem_of_read h)
    rw [if_pos this.1, this.2]
  · intro h
    split at h
    · exact Memory.read_of_mem encTable_wf ((hm b).2 ⟨‹_›, Option.some.inj h⟩)
    · cases h

/-- Whether a letter has an entry in upper case and in lower case is what `letterForms` says. -/
theorem encTable_letter {k : Nat} (h : k < 26) :
    (Memory.read Config.encTable (0x41 + k)).isSome = (Config.letterForms k).1 ∧
    (Memory.read Config.encTable (0x61 + k)).isSome = (Config.letterForms k).2 := by
  have hu : Config.encHas (0x41 + k) = (Config.letterForms k).1 := by
    rw [Config.encHas, if_neg (by omega), if_pos (by omega), Nat.add_sub_cancel_left]
  have hl : Config.encHas (0x61 + k) = (Config.letterForms k).2 := by
    rw [Config.encHas, if_neg (by omega), if_neg (by omega), if_pos (by omega), Nat.add_sub_cancel_left]
  rw [encTable_read, encTable_read, hu, hl]
  constructor
  · cases (Config.letterForms k).1 <;> simp; omega
  · cases (Config.letterForms k).2 <;> simp; omega

/-- The two letters of E2 differ. -/
theorem oneCaseLetter_ne : Config.oneCaseLetter ≠ Config.bothCasesLetter.val ∧ Config.oneCaseLetter < 26 := by
  have := Config.bothCasesLetter.isLt
  have := Config.oneCaseDistance.isLt
  unfold Config.oneCaseLetter
  omega

/-- A letter of "done" has an entry in some case (R151). -/
theorem letterForms_done {k : Nat} (h : k ∈ [3, 14, 13, 4]) :
    (Config.letterForms k).1 = true ∨ (Config.letterForms k).2 = true := by
  unfold Config.letterForms
  split
  · simp
  · split
    · split <;> simp
    · split
      · simp
      · rename_i h14
        have h' : k ∈ [3, 13, 4] := by simp at h ⊢; omega
        split
        · simp
        · rename_i hn
          rcases hx : Config.encLetter k with ⟨u, l⟩
          rw [hx] at hn
          cases u <;> cases l <;> simp_all

/-- Bit 7 of every entry of the table after reset is 1 (E8). -/
theorem encEntry_dark (a : Nat) : (Config.encEntry a).getLsbD 7 = true := by
  unfold Config.encEntry
  split
  · rfl
  · simp [BitVec.getLsbD_cons]

/-- The letter 'O' has an upper-case entry (E5). -/
theorem letterForms_O : (Config.letterForms 14).1 = true := by
  unfold Config.letterForms
  split
  · rfl
  · split <;> rfl

/-- The table after reset meets the constraints of R151. -/
theorem encTable_ok : EncOk Config.encTable where
  canonical := encTable_wf
  printable := by
    intro a b h
    rw [encTable_read] at h
    split at h
    · rename_i hp; exact ⟨hp.1, hp.2.1⟩
    · cases h
  one_case := by
    obtain ⟨hne, hlt⟩ := oneCaseLetter_ne
    refine ⟨Config.oneCaseLetter, hlt, ?_⟩
    rw [(encTable_letter hlt).1, (encTable_letter hlt).2, Config.letterForms, if_neg hne, if_pos rfl]
    split <;> simp
  both_cases := by
    refine ⟨Config.bothCasesLetter.val, Config.bothCasesLetter.isLt, ?_⟩
    rw [(encTable_letter Config.bothCasesLetter.isLt).1, (encTable_letter Config.bothCasesLetter.isLt).2,
      Config.letterForms, if_pos rfl]
    exact ⟨rfl, rfl⟩
  done_letters := by
    intro k hk
    have hlt : k < 26 := by simp at hk; omega
    rw [(encTable_letter hlt).1, (encTable_letter hlt).2]
    exact letterForms_done hk
  space := by
    rw [encodeOf, encTable_read]; rfl
  letter_O := by
    have hO : Config.encHas 0x4F = true := by
      rw [Config.encHas, if_neg (by omega), if_pos (by omega)]; exact letterForms_O
    rw [encodeOf, encodeOf, encTable_read, encTable_read, if_pos ⟨by decide, by decide, hO⟩]; rfl
  digits := by
    intro a h1 h2
    rw [encTable_read, if_pos ⟨by omega, by omega, by rw [Config.encHas, if_pos (.inr ⟨h1, h2⟩)]⟩]
    rfl
  point_dark := by
    intro a b h
    rw [encTable_read] at h
    split at h
    · cases h; exact encEntry_dark a
    · cases h

end Sys2Proof.Machine
end

