-- ==== Sys2Proof/Laws/PerInstr.lean ====
section
/-! SUPPORT. Statements about every instruction as syntax, one lemma for each constructor. -/

namespace Sys2Proof.Laws.RoundTrip

/-- The decoder gives back the operation that was encoded, every operand with it (spec/30_encoding.md R81, R82). -/
def Statement (i : Instr) : Prop := decode (encode i) = .ok i

theorem construct (d c l : PinId) (n : Int) : Statement (.construct d c l n) := by
  simp only [Statement, decode, encode, kindOf_0x01]; rfl
theorem render (q : List Char) (rc : Nat) (ca : Bool) (st : Nat) : Statement (.render q rc ca st) := by
  simp only [Statement, decode, encode, kindOf_0x02]; rfl
theorem clear : Statement .clear := by simp only [Statement, decode, encode, kindOf_0x03]; rfl
theorem test : Statement .test := by simp only [Statement, decode, encode, kindOf_0x04]; rfl
theorem sendByte (v : Byte) : Statement (.sendByte v) := by simp only [Statement, decode, encode, kindOf_0x10]; rfl
theorem setPort (a : Byte) (m : Mask) : Statement (.setPort a m) := by
  simp only [Statement, decode, encode, kindOf_0x11]; rfl
theorem dataWr (b : Bool) : Statement (.dataWr b) := by
  simp only [Statement, decode, encode, kindOf_opW_data, decodeOperands_dataWr, opW_level]
theorem clkLo : Statement .clkLo := by simp only [Statement, decode, encode, kindOf_clkLo]; rfl
theorem clkHi : Statement .clkHi := by simp only [Statement, decode, encode, kindOf_clkHi]; rfl
theorem latLo : Statement .latLo := by simp only [Statement, decode, encode, kindOf_latLo]; rfl
theorem latHi : Statement .latHi := by simp only [Statement, decode, encode, kindOf_latHi]; rfl
theorem cfgOut (p : Pin) : Statement (.cfgOut p) := by
  simp only [Statement, decode, encode, kindOf_opG, decodeOperands_cfgOut (opG_pin p)]
theorem encodeChar (c : Char) : Statement (.encodeChar c) := by simp only [Statement, decode, encode, kindOf_0x30]; rfl
theorem dpOn (b : Byte) : Statement (.dpOn b) := by simp only [Statement, decode, encode, kindOf_0x31]; rfl
theorem onehot (p : Nat) : Statement (.onehot p) := by simp only [Statement, decode, encode, kindOf_0x32]; rfl
theorem phys (n i : Nat) : Statement (.phys n i) := by simp only [Statement, decode, encode, kindOf_0x33]; rfl
theorem buildBuffer (q : List Char) (st n : Nat) : Statement (.buildBuffer q st n) := by
  simp only [Statement, decode, encode, kindOf_0x34]; rfl

end Sys2Proof.Laws.RoundTrip
end

