-- ==== Sys2Proof/Laws/Step.lean ====
section
/-! SUPPORT. One step of an operation in progress (spec/10_state.md R30, R31): the pin write it performs, and operations
performed one after the other. -/

namespace Sys2Proof.Machine

/-- The operation that performs a pin write. -/
def PinEvent.toInstr (e : PinEvent) : Instr :=
  match e.pin, e.level with
  | .data, b => .dataWr b
  | .clock, false => .clkLo
  | .clock, true => .clkHi
  | .latch, false => .latLo
  | .latch, true => .latHi

/-- A pin micro-operation is its pin write, whatever the state (40_construct_and_pins.md R111). -/
theorem exec_toInstr (e : PinEvent) (s : State) : exec e.toInstr s = .next (s.pinWrite e.pin e.level) := by
  obtain ⟨p, l⟩ := e
  cases p <;> cases l <;> rfl

/-- The pin write of step `t` of a transaction (10_state.md R30). -/
def eventAt (seg sel : Byte) (t : Nat) : PinEvent :=
  if t < 48 then
    let v := if t < 24 then seg else sel
    match t % 3 with
    | 0 => ⟨.data, v.getLsbD (7 - t % 24 / 3)⟩
    | 1 => ⟨.clock, false⟩
    | _ => ⟨.clock, true⟩
  else ⟨.latch, t != 48⟩

/-- Each of the 50 steps is a pin write, no other is (10_state.md R30). -/
theorem microOp_eq (seg sel : Byte) (t : Nat) :
    microOp seg sel t = if t < 50 then some (eventAt seg sel t).toInstr else none := by
  by_cases h : t < 50
  · rw [if_pos h]
    interval_cases t <;> rfl
  · rw [if_neg h, microOp, if_neg (by omega), if_neg (by omega), if_neg (by omega), if_neg (by omega)]

/-- The events of the 50 steps are the transaction's (30_encoding.md R90). -/
theorem events_eq (seg sel : Byte) : (List.range 50).map (eventAt seg sel) = frameEvents (frameOf seg sel) := by
  rw [frameEvents, segOf_frameOf, selOf_frameOf]
  rfl

/-- What a step of an operation in progress is: the build, or one pin write at a step below 50 (10_state.md R31). -/
theorem step_busy {s t : State} (hi : s.seqpos ≠ .idle) (h : step s = .next t) :
    (s.seqpos = .build ∧ ∃ r, s.render = some r ∧
      ((∃ e, build s.enc r.seq r.startAt s.numDisplays = .error e ∧ t = s.raise e) ∨
        ∃ buf, build s.enc r.seq r.startAt s.numDisplays = .ok buf ∧ t = s.enterRefresh buf r.clearAfter)) ∨
    (∃ pass digit k r seg, s.seqpos = .refresh pass digit k ∧ s.render = some r ∧ r.buf[digit]? = some seg ∧ k < 50 ∧
      t = s.pinWrite (eventAt seg (selectByte (position s.numDisplays digit)) k).pin
        (eventAt seg (selectByte (position s.numDisplays digit)) k).level) ∨
    ∃ digit k, s.seqpos = .clearing digit k ∧ digit < s.numDisplays ∧ k < 50 ∧
      t = s.pinWrite (eventAt Config.blank (selectByte digit) k).pin (eventAt Config.blank (selectByte digit) k).level := by
  unfold step at h
  split at h
  · exact absurd ‹_› hi
  · refine .inl ⟨‹_›, ?_⟩
    unfold State.continueBuild at h
    split at h
    · cases h
    · rename_i r hr
      refine ⟨r, hr, ?_⟩
      split at h
      · rename_i e he
        cases h; exact .inl ⟨e, he, rfl⟩
      · rename_i buf hb
        cases h; exact .inr ⟨buf, hb, rfl⟩
  · rename_i pass digit k hs
    refine .inr (.inl ?_)
    split at h
    · rename_i i hc
      unfold State.current at hc
      rw [hs] at hc
      split at hc
      · rename_i pass' digit' k' r h1 hr
        cases h1
        obtain ⟨seg, hseg, hm⟩ := Option.bind_eq_some_iff.1 hc
        rw [microOp_eq] at hm
        split at hm
        · cases hm
          rw [exec_toInstr] at h
          cases h
          exact ⟨pass, digit, k, r, seg, hs, hr, hseg, ‹_›, rfl⟩
        · cases hm
      · rename_i h1; cases h1
      · cases hc
    · cases h
  · rename_i digit k hs
    refine .inr (.inr ?_)
    split at h
    · rename_i i hc
      simp only [State.current, hs] at hc
      split at hc
      · rw [microOp_eq] at hc
        split at hc
        · cases hc
          rw [exec_toInstr] at h
          cases h
          exact ⟨digit, k, hs, ‹_›, ‹_›, rfl⟩
        · cases hc
      · cases hc
    · cases h

/-- The step in REFRESH, when SEQPOS names a pin write. -/
theorem step_refresh {s : State} {pass digit k : Nat} {r : RenderRegs} {seg : Byte}
    (hs : s.seqpos = .refresh pass digit k) (hr : s.render = some r) (hseg : r.buf[digit]? = some seg) (hk : k < 50) :
    step s = .next (s.pinWrite (eventAt seg (selectByte (position s.numDisplays digit)) k).pin
      (eventAt seg (selectByte (position s.numDisplays digit)) k).level) := by
  simp only [step, hs, State.current, hr, hseg, Option.bind_some, microOp_eq, if_pos hk, exec_toInstr]

/-- The step in CLEARING, when SEQPOS names a pin write. -/
theorem step_clearing {s : State} {digit k : Nat} (hs : s.seqpos = .clearing digit k) (hd : digit < s.numDisplays)
    (hk : k < 50) :
    step s = .next (s.pinWrite (eventAt Config.blank (selectByte digit) k).pin
      (eventAt Config.blank (selectByte digit) k).level) := by
  have hc : s.current = some (eventAt Config.blank (selectByte digit) k).toInstr := by
    unfold State.current
    rw [hs]
    simp only [if_pos hd, microOp_eq, if_pos hk]
  simp only [step, hs, hc, exec_toInstr]

/-- Operations of two lists are the first list's, then the second's. -/
theorem execAll_append (l l' : List Instr) (s : State) : execAll (l ++ l') s = andThen (execAll l s) (execAll l') := by
  induction l generalizing s with
  | nil => rfl
  | cons i l ih =>
    show andThen (exec i s) (execAll (l ++ l')) = andThen (andThen (exec i s) (execAll l)) (execAll l')
    cases exec i s with
    | next t => exact ih t
    | fault r => rfl
    | refused r => rfl

end Sys2Proof.Machine
end

