-- ==== Sys2Proof/Laws/Run.lean ====
section
/-! SUPPORT. Runs of an operation in progress (spec/10_state.md R30, R31): fifty steps from STEP 0 perform the
transaction SEQPOS stands at and go to the next one. -/

namespace Sys2Proof.Machine

/-- `k` steps. -/
def steps : Nat → State → Answer
  | 0, s => .next s
  | k + 1, s => andThen (step s) (steps k)

/-- The host's run is the steps. -/
theorem core_run (k : Nat) (s : State) : Sys2Proof.core.run k s = steps k s := by
  induction k generalizing s with
  | zero => rfl
  | succ k ih =>
    refine (Host.Core.run.eq_2 Sys2Proof.core s k).trans ?_
    rw [steps, show Sys2Proof.core.step s = step s from rfl]
    cases step s with
    | next t => exact ih t
    | fault r => rfl
    | refused r => rfl

theorem andThen_next (s : State) (f : State → Answer) : andThen (.next s) f = f s := rfl

theorem steps_one (s : State) : steps 1 s = step s := by
  rw [steps]
  cases step s <;> rfl

theorem steps_add (a b : Nat) (s : State) : steps (a + b) s = andThen (steps a s) (steps b) := by
  induction a generalizing s with
  | zero => rw [Nat.zero_add]; rfl
  | succ a ih =>
    rw [Nat.add_right_comm, steps, steps]
    cases step s with
    | next t => exact ih t
    | fault f => rfl
    | refused r => rfl

/-- SEQPOS set. -/
def State.goto (s : State) (q : SeqPos) : State := { s with seqpos := q }

theorem State.goto_finish (s : State) (q : SeqPos) : (s.goto q).finish = s.finish := rfl
theorem State.goto_numDisplays (s : State) (q : SeqPos) : (s.goto q).numDisplays = s.numDisplays := rfl
theorem State.goto_render (s : State) (q : SeqPos) : (s.goto q).render = s.render := rfl

/-- Sending frames does not read SEQPOS. -/
theorem State.goto_sent (s : State) (fs : List Frame) (q : SeqPos) : (s.goto q).sent fs = (s.sent fs).goto q := by
  unfold State.sent; split <;> rfl

theorem State.nextInRefresh_eq (s : State) (r : RenderRegs) (pass digit : Nat) :
    s.nextInRefresh r pass digit =
      if digit + 1 < r.buf.length then s.goto (.refresh pass (digit + 1) 0)
      else if pass + 1 < r.redrawCount then s.goto (.refresh (pass + 1) 0 0)
      else if r.clearAfter then s.goto (.clearing 0 0) else s.finish := rfl

/-- Pin writes one after the other. -/
def State.writes (s : State) (es : List PinEvent) : State := es.foldl (fun s e => s.pinWrite e.pin e.level) s

theorem State.writes_append (s : State) (a b : List PinEvent) : s.writes (a ++ b) = (s.writes a).writes b :=
  List.foldl_append

theorem State.sendByte_writes (s : State) (v : Byte) : s.sendByte v = s.writes (byteEvents v) := rfl

/-- SET_PORT is the pin writes of its fifty steps (41_serial_engine.md R132). -/
theorem State.setPort_writes (s : State) (seg : Byte) (m : Mask) :
    s.setPort seg m = s.writes ((List.range 50).map (eventAt seg (lowByte m))) := by
  rw [events_eq, frameEvents, State.writes_append, State.writes_append, segOf_frameOf, selOf_frameOf,
    ← State.sendByte_writes, ← State.sendByte_writes, State.setPort]
  generalize (s.sendByte seg).sendByte (lowByte m) = u
  rfl

/-- Steps that each perform the next of some pin writes perform them all. -/
theorem steps_writes (es : List PinEvent) (s : State)
    (h : ∀ k (hk : k < es.length),
      step (s.writes (es.take k)) = .next ((s.writes (es.take k)).pinWrite es[k].pin es[k].level)) :
    steps es.length s = .next (s.writes es) := by
  induction es generalizing s with
  | nil => rfl
  | cons e es ih =>
    have h0 : step s = .next (s.pinWrite e.pin e.level) := h 0 (Nat.zero_lt_succ _)
    rw [List.length_cons, steps, h0, andThen_next]
    exact ih _ fun k hk => h (k + 1) (Nat.succ_lt_succ hk)

/-- Pin writes leave everything but lines and load as the advances of SEQPOS do. -/
theorem State.writes_control (es : List PinEvent) (s : State) : ∃ data clk lat sr out trace draws,
    s.writes es =
      { State.advance^[es.length] s with data := data, clk := clk, lat := lat, sr := sr, out := out, trace := trace,
                                         draws := draws } := by
  induction es generalizing s with
  | nil => exact ⟨_, _, _, _, _, _, _, rfl⟩
  | cons e es ih =>
    obtain ⟨d, c, l, sr, o, tr, dr, h⟩ := ih (s.pinWrite e.pin e.level)
    refine ⟨d, c, l, sr, o, tr, dr, ?_⟩
    show (s.pinWrite e.pin e.level).writes es = _
    rw [h, State.pinWrite, ← Function.iterate_succ_apply, State.drive_eq, State.advance_iterate_lines]
    rfl

/-- Below step 50 an advance goes to the next step (10_state.md R31). -/
theorem State.advance_clearing {s : State} {digit : Nat} (h : s.seqpos = .clearing digit 0) {k : Nat} (hk : k < 50) :
    State.advance^[k] s = s.goto (.clearing digit k) := by
  induction k with
  | zero => cases s; cases h; rfl
  | succ k ih =>
    rw [Function.iterate_succ_apply', ih (by omega), State.advance]
    simp [State.goto, show k < 49 by omega]

/-- Below step 50 an advance goes to the next step (10_state.md R31). -/
theorem State.advance_refresh {s : State} {pass digit : Nat} (h : s.seqpos = .refresh pass digit 0) {k : Nat}
    (hk : k < 50) : State.advance^[k] s = s.goto (.refresh pass digit k) := by
  induction k with
  | zero => cases s; cases h; rfl
  | succ k ih =>
    rw [Function.iterate_succ_apply', ih (by omega), State.advance]
    simp [State.goto, show k < 49 by omega]

/-- The fiftieth advance apart. -/
theorem State.setPort_last (s : State) (seg : Byte) (m : Mask) :
    s.setPort seg m = (State.advance^[49] (s.sent [frameOf seg (lowByte m)])).advance := by
  rw [State.setPort_spec]
  generalize s.sent _ = u
  exact Function.iterate_succ_apply' _ 49 u

/-- Fifty steps of a digit's clear (10_state.md R31). -/
theorem steps_clearing {s : State} {digit : Nat} (h : s.seqpos = .clearing digit 0) (hd : digit < s.numDisplays) :
    steps 50 s = .next
      (let t := s.sent [frameOf Config.blank (selectByte digit)]
       if digit + 1 < s.numDisplays then t.goto (.clearing (digit + 1) 0) else t.finish) := by
  have hrun : steps 50 s = .next (s.setPort Config.blank (selectMask digit)) := by
    rw [State.setPort_writes]
    generalize hes : (List.range 50).map (eventAt Config.blank (lowByte (selectMask digit))) = es
    have hl : es.length = 50 := by simp [← hes]
    have := steps_writes es s fun k hk => ?_
    · rwa [hl] at this
    · have hk50 : k < 50 := hl ▸ hk
      obtain ⟨d, c, l, sr, o, tr, dr, hw⟩ := State.writes_control (es.take k) s
      rw [show (es.take k).length = k by simp; omega, State.advance_clearing h hk50] at hw
      rw [step_clearing (s := s.writes (es.take k)) (digit := digit) (k := k) (by rw [hw]; rfl) (by rw [hw]; exact hd)
        hk50]
      simp [← hes, selectByte]
  have hlast (t : State) : (t.goto (.clearing digit 49)).advance =
      if digit + 1 < t.numDisplays then t.goto (.clearing (digit + 1) 0) else t.finish := by
    simp only [State.advance, State.goto, lt_irrefl, if_false]; rfl
  rw [hrun, State.setPort_last, State.advance_clearing (digit := digit) (by simpa using h) (by omega), hlast,
    State.sent_numDisplays]
  rfl

/-- Fifty steps of a digit's refresh (10_state.md R31). -/
theorem steps_refresh {s : State} {pass digit : Nat} {r : RenderRegs} {seg : Byte}
    (h : s.seqpos = .refresh pass digit 0) (hr : s.render = some r) (hseg : r.buf[digit]? = some seg) :
    steps 50 s = .next
      ((s.sent [frameOf seg (selectByte (position s.numDisplays digit))]).nextInRefresh r pass digit) := by
  have hrun : steps 50 s = .next (s.setPort seg (selectMask (position s.numDisplays digit))) := by
    rw [State.setPort_writes]
    generalize hes : (List.range 50).map (eventAt seg (lowByte (selectMask (position s.numDisplays digit)))) = es
    have hl : es.length = 50 := by simp [← hes]
    have := steps_writes es s fun k hk => ?_
    · rwa [hl] at this
    · have hk50 : k < 50 := hl ▸ hk
      obtain ⟨d, c, l, sr, o, tr, dr, hw⟩ := State.writes_control (es.take k) s
      rw [show (es.take k).length = k by simp; omega, State.advance_refresh h hk50] at hw
      rw [step_refresh (s := s.writes (es.take k)) (pass := pass) (digit := digit) (k := k) (r := r) (seg := seg)
        (by rw [hw]; rfl) (by rw [hw]; exact hr) hseg hk50,
        show (s.writes (es.take k)).numDisplays = s.numDisplays by rw [hw]; rfl]
      simp [← hes, selectByte]
  have hlast (t : State) (ht : t.render = some r) :
      (t.goto (.refresh pass digit 49)).advance = t.nextInRefresh r pass digit := by
    cases t; cases ht
    simp only [State.advance, State.goto, lt_irrefl, if_false]; rfl
  rw [hrun, State.setPort_last, State.advance_refresh (pass := pass) (digit := digit) (by simpa using h) (by omega),
    hlast _ (by simpa using hr)]
  rfl

/-- The step out of BUILD of a RENDER just accepted (10_state.md R31). -/
theorem step_acceptRender (s : State) (q : List Char) (rc : Nat) (ca : Bool) (st : Nat) :
    step (s.acceptRender q rc ca st) =
      match build s.enc q st s.numDisplays with
      | .error e => .next (s.raise e)
      | .ok buf => .next ((s.acceptRender q rc ca st).enterRefresh buf ca) := by
  show State.continueBuild (s.acceptRender q rc ca st) = _
  unfold State.continueBuild
  show (match build s.enc q st s.numDisplays with | .error e => _ | .ok buf => _) = _
  cases build s.enc q st s.numDisplays <;> rfl

end Sys2Proof.Machine
end

