-- ==== Sys2Proof/Tests/Slice0.lean ====
section
/-! SUPPORT. Tests. Expected values are the spec's (spec/95_test_vectors.md, cited as V<n>, and the examples of the
rules); every test is one operation or one step on a small state. The last part shows, for every obligation with
hypotheses, states and operands that meet them. -/

namespace Sys2Proof.Tests

open Sys2Proof.Machine

/-! ## WellFormed refuses an ill-formed term of each kind -/

theorem test_wellFormed_construct :
    (Instr.construct 1 1 2 4).wellFormed = false ∧ (Instr.construct 1 2 1 4).wellFormed = false ∧
    (Instr.construct 1 2 2 4).wellFormed = false ∧ (Instr.construct 1 2 3 4).wellFormed = true := by decide
theorem test_wellFormed_render :
    (Instr.render ['1'] 0 true 0).wellFormed = false ∧ (Instr.render ['1'] 1 true 0).wellFormed = true := by decide
theorem test_wellFormed_encodeChar :
    (Instr.encodeChar '.').wellFormed = false ∧ (Instr.encodeChar '5').wellFormed = true := by decide
theorem test_wellFormed_onehot :
    (Instr.onehot 8).wellFormed = false ∧ (Instr.onehot 7).wellFormed = true := by decide
theorem test_wellFormed_phys :
    (Instr.phys 9 0).wellFormed = false ∧ (Instr.phys 4 4).wellFormed = false ∧
    (Instr.phys 8 7).wellFormed = true := by decide
theorem test_wellFormed_buildBuffer :
    (Instr.buildBuffer [] 0 0).wellFormed = false ∧ (Instr.buildBuffer [] 0 9).wellFormed = false ∧
    (Instr.buildBuffer [] 0 8).wellFormed = true := by decide
theorem test_wellFormed_everyOperand :
    Instr.clear.wellFormed = true ∧ Instr.test.wellFormed = true ∧ (Instr.sendByte 0xFF).wellFormed = true ∧
    (Instr.setPort 0xFF 0xFFFFFFFF).wellFormed = true ∧ (Instr.dpOn 0).wellFormed = true ∧
    (Instr.cfgOut .latch).wellFormed = true := by decide

/-! ## Decoding, words written out from 30_encoding.md R81 and R82 -/

theorem test_decode_construct :
    decode ⟨0b00000001, [.pin 5, .pin 6, .pin 7, .int (-3)]⟩ = .ok (.construct 5 6 7 (-3)) := by rfl
theorem test_decode_render :
    decode ⟨0b00000010, [.text ['1', 'x'], .nat 50, .flag true, .nat 2]⟩ = .ok (.render ['1', 'x'] 50 true 2) := by rfl
theorem test_decode_clear_test :
    decode ⟨0b00000011, []⟩ = .ok .clear ∧ decode ⟨0b00000100, []⟩ = .ok .test := ⟨rfl, rfl⟩
theorem test_decode_sendByte : decode ⟨0b00010000, [.byte 0xB0]⟩ = .ok (.sendByte 0xB0) := by rfl
theorem test_decode_setPort :
    decode ⟨0b00010001, [.byte 0xA5, .mask 0x102]⟩ = .ok (.setPort 0xA5 0x102) := by rfl
theorem test_decode_dataWr :
    decode ⟨0b00100000, []⟩ = .ok (.dataWr false) ∧ decode ⟨0b00100001, []⟩ = .ok (.dataWr true) := ⟨rfl, rfl⟩
theorem test_decode_clock :
    decode ⟨0b00100010, []⟩ = .ok .clkLo ∧ decode ⟨0b00100011, []⟩ = .ok .clkHi := ⟨rfl, rfl⟩
theorem test_decode_latch :
    decode ⟨0b00100100, []⟩ = .ok .latLo ∧ decode ⟨0b00100101, []⟩ = .ok .latHi := ⟨rfl, rfl⟩
theorem test_decode_cfgOut :
    decode ⟨0b00101000, []⟩ = .ok (.cfgOut .data) ∧ decode ⟨0b00101001, []⟩ = .ok (.cfgOut .clock) ∧
    decode ⟨0b00101010, []⟩ = .ok (.cfgOut .latch) := ⟨rfl, rfl, rfl⟩
theorem test_decode_functions :
    decode ⟨0b00110000, [.char '8']⟩ = .ok (.encodeChar '8') ∧ decode ⟨0b00110001, [.byte 0xF9]⟩ = .ok (.dpOn 0xF9) ∧
    decode ⟨0b00110010, [.nat 3]⟩ = .ok (.onehot 3) ∧ decode ⟨0b00110011, [.nat 4, .nat 0]⟩ = .ok (.phys 4 0) :=
  ⟨rfl, rfl, rfl, rfl⟩
theorem test_decode_buildBuffer :
    decode ⟨0b00110100, [.text ['8'], .nat 1, .nat 4]⟩ = .ok (.buildBuffer ['8'] 1 4) := by rfl
theorem test_decode_refuses :
    decode ⟨0b00101011, []⟩ = .error (.unassigned 0x2B) ∧ decode ⟨0b00000000, []⟩ = .error (.unassigned 0) ∧
    decode ⟨0b00100110, []⟩ = .error (.unassigned 0x26) ∧ decode ⟨0b00000011, [.nat 0]⟩ = .error (.operandShape 3) :=
  ⟨rfl, rfl, rfl, rfl⟩
theorem test_tableWord :
    decodeTableWord 8 0x21 = some (.dataWr true) ∧ decodeTableWord 8 0x2B = none ∧
    decodeTableWord 8 0x11 = some (.setPort 0 0) := ⟨rfl, rfl, rfl⟩

/-! ## One operation -/

/-- A constructed, idle block with ENC_REF (42_char_lookup.md R165). -/
def idle (n : Nat) (sr : BitVec 16) (out : Frame) : State where
  constructed := true
  dataPin := 7
  clockPin := 8
  latchPin := 9
  numDisplays := n
  data := .high
  clk := .high
  lat := .high
  render := none
  seqpos := .idle
  sr := sr
  out := out
  trace := []
  enc := encRef
  scripts := []
  pending := []
  result := .nothing
  draws := 0

/-- The same block before CONSTRUCT. -/
def fresh : State :=
  { idle 0 0x1234 0x5678 with constructed := false, data := .undriven, clk := .undriven, lat := .undriven }

/-- A view of the next state. -/
def look {α : Type} (f : State → α) : Answer → Option α
  | .next s => some (f s)
  | .fault _ | .refused _ => none

/-- Why there is no next state. -/
def why : Answer → Option Refusal
  | .refused r => some r
  | .next _ | .fault _ => none

/-- The lines and the load. -/
structure Load where
  sr : BitVec 16
  out : Frame
  data : Level
  clk : Level
  lat : Level
  deriving DecidableEq, Repr

def loadOf (s : State) : Load := ⟨s.sr, s.out, s.data, s.clk, s.lat⟩

/-- V10, rows 1 and 2. -/
theorem test_dataWr :
    look (fun s => (s.data, s.trace)) (exec (.dataWr true) { idle 4 0 0 with data := .unsettled }) =
      some (.high, [⟨.data, true⟩]) ∧
    look (fun s => (s.data, s.trace, s.sr)) (exec (.dataWr true) (idle 4 0x1234 0)) =
      some (.high, [⟨.data, true⟩], 0x1234) := by decide
/-- V10, rows 3 and 4. -/
theorem test_clkLo :
    look (fun s => (s.clk, s.sr)) (exec .clkLo (idle 4 0x1234 0)) = some (.low, 0x1234) ∧
    look (fun s => (s.clk, s.trace)) (exec .clkLo { idle 4 0 0 with clk := .unsettled }) =
      some (.low, [⟨.clock, false⟩]) := by decide
/-- V10, rows 5 and 6. -/
theorem test_clkHi :
    look (fun s => (s.clk, s.sr)) (exec .clkHi { idle 4 0x0000 0 with clk := .low }) = some (.high, 0x0001) ∧
    look State.sr (exec .clkHi { idle 4 0x8001 0 with clk := .low, data := .low }) = some 0x0002 := by decide
/-- V10, row 7. -/
theorem test_latLo :
    look (fun s => (s.lat, s.out)) (exec .latLo (idle 4 0x1234 0xFFFF)) = some (.low, 0xFFFF) := by decide
/-- V10, row 8. -/
theorem test_latHi :
    look (fun s => (s.lat, s.out, s.sr)) (exec .latHi { idle 4 0x1234 0xFFFF with lat := .low }) =
      some (.high, 0x1234, 0x1234) := by decide
/-- V10, row 9. -/
theorem test_cfgOut :
    look (fun s => (s.data, s.clk, s.lat, s.trace)) (exec (.cfgOut .clock) (idle 4 0 0)) =
      some (.high, .unsettled, .high, []) := by decide
/-- V11, rows 1 and 5. -/
theorem test_construct :
    look (fun s => (s.constructed, s.numDisplays)) (exec (.construct 1 2 3 4) fresh) = some (true, 4) ∧
    look (fun s => [s.dataPin, s.clockPin, s.latchPin]) (exec (.construct 1 2 3 4) fresh) = some [1, 2, 3] ∧
    look (fun s => (loadOf s, s.numDisplays)) (exec (.construct 1 2 3 8) fresh) =
      some (⟨0x1234, 0x5678, .unsettled, .unsettled, .unsettled⟩, 8) := by decide
/-- V11, rows 2 to 4, 6 and 7. -/
theorem test_construct_errors :
    look (fun s => (s.result, s.constructed, s.data)) (exec (.construct 1 2 3 (-3)) fresh) =
      some (.raised (.invalidConfiguration (-3)), false, .undriven) ∧
    look State.result (exec (.construct 1 2 3 9) fresh) = some (.raised (.invalidConfiguration 9)) ∧
    why (exec (.construct 1 1 3 4) fresh) = some .pinsNotDistinct ∧
    why (exec (.construct 1 2 3 4) (idle 4 0 0)) = some .alreadyConstructed := by decide
/-- V8 and V12, row 3. -/
theorem test_sendByte :
    look (fun s => (s.trace.filter fun e => e.pin == .data).map PinEvent.level) (exec (.sendByte 0xB0) (idle 4 0 0)) =
      some [true, false, true, true, false, false, false, false] ∧
    look loadOf (exec (.sendByte 0x5A) (idle 4 0x00FF 0x0101)) = some ⟨0xFF5A, 0x0101, .low, .high, .high⟩ := by
  decide +kernel
/-- V13, rows 2 and 4. -/
theorem test_setPort :
    look loadOf (exec (.setPort 0x79 0x08) (idle 4 0xAAAA 0x5555)) = some ⟨0x7908, 0x7908, .low, .high, .high⟩ ∧
    look (fun s => (s.out, s.trace.length)) (exec (.setPort 0xA5 0x102) (idle 4 0xAAAA 0x5555)) = some (0xA502, 50) := by
  decide +kernel
/-- V14, rows 2 and 5. -/
theorem test_encodeChar :
    look State.result (exec (.encodeChar 'O') (idle 4 0 0)) = some (.entry (some 0xC0)) ∧
    look State.result (exec (.encodeChar 'é') (idle 4 0 0)) = some (.entry none) := by decide
/-- V14, rows 6 and 10. -/
theorem test_dpOn :
    look State.result (exec (.dpOn 0xFF) (idle 4 0 0)) = some (.byte 0x7F) ∧
    look State.result (exec (.dpOn 0xF9) (idle 4 0 0)) = some (.byte 0x79) := by decide
/-- V16, row 1. -/
theorem test_onehot :
    look State.result (exec (.onehot 7) (idle 4 0 0)) = some (.mask 0x80) ∧
    look State.result (exec (.onehot 3) (idle 4 0 0)) = some (.mask 0x08) := by decide
/-- V16, rows 2 and 4. -/
theorem test_phys :
    look State.result (exec (.phys 4 0) (idle 4 0 0)) = some (.position 3) ∧
    look State.result (exec (.phys 8 7) (idle 4 0 0)) = some (.position 0) := by decide
/-- V15, rows 8, 12, 7 and 10, 15 and 19. -/
theorem test_buildBuffer :
    look State.result (exec (.buildBuffer ['.', '.'] 1 4) (idle 4 0 0)) = some (.buffer [0x7F]) ∧
    look State.result (exec (.buildBuffer ['-', '3', '.', '5'] 1 4) (idle 4 0 0)) =
      some (.buffer [0xFF, 0xBF, 0x30, 0x92]) ∧
    look State.result (exec (.buildBuffer ['.', '5'] 1 4) (idle 4 0 0)) = some (.buffer [0xFF, 0x92]) := by decide
theorem test_buildBuffer_errors :
    look State.result (exec (.buildBuffer ['.', '.', '5'] 0 4) (idle 4 0 0)) = some (.raised (.dotWithoutDigit 1)) ∧
    look State.result (exec (.buildBuffer ['1', '2', '3', '4', '5'] 0 4) (idle 4 0 0)) =
      some (.raised (.displayOverflow 5 4)) ∧
    look State.result (exec (.buildBuffer ['1', 'x', '3', '4', '5'] 0 4) (idle 4 0 0)) =
      some (.raised (.unsupportedCharacter 1 'x')) := by decide
/-- V17, row 3, and the refusal of V11, row 8. -/
theorem test_clear :
    look (fun s => (loadOf s, s.trace == framesEvents [0xFF01, 0xFF02, 0xFF04, 0xFF08])) (exec .clear (idle 4 0 0)) =
      some (⟨0xFF08, 0xFF08, .low, .high, .high⟩, true) ∧
    why (exec .clear fresh) = some .notConstructed := by decide +kernel
/-- V18, row 2; V21 (the error leaves everything as it was). -/
theorem test_render :
    look (fun s => (loadOf s, s.trace == framesEvents [0xFF08, 0xFF04, 0xF902, 0xA401]))
        (exec (.render ['1', '2'] 1 false 2) (idle 4 0 0)) = some (⟨0xA401, 0xA401, .high, .high, .high⟩, true) ∧
    look (fun s => (s.result, loadOf s, s.trace)) (exec (.render ['1', '2', '3', '4', '5'] 1 true 0) (idle 4 0x8001 0x8001)) =
      some (.raised (.displayOverflow 5 4), ⟨0x8001, 0x8001, .high, .high, .high⟩, []) := by decide +kernel
/-- V18, row 9, and the refusal of its last row. -/
theorem test_render_points :
    look (fun s => (loadOf s, s.trace == framesEvents [0x0001, 0x0001, 0x0001, 0xFF01]))
        (exec (.render ['8', '.'] 3 true 0) (idle 1 0 0)) = some (⟨0xFF01, 0xFF01, .high, .high, .high⟩, true) ∧
    why (exec (.render ['1', '2'] 0 true 0) (idle 4 0 0)) = some .zeroRedrawCount := by decide +kernel

/-- The script of V20, by phases. -/
def phases : ScriptPhases where
  eachDigit := [.render ['8'] 2 false 0, .render ['8'] 2 false 1]
  allAtOnce := [.render ['8', '8'] 2 false 0]
  halfAndHalf := [.render ['8', ' '] 1 false 0, .render [' ', '8'] 1 false 0]
  counter := [.render ['0'] 1 false 1, .render ['1'] 1 false 1, .render ['2'] 1 false 1]
  doneMessage := [.render ['d', 'o'] 1 true 0]

/-- The frames of V20. -/
def phasesFrames : List Frame :=
  [0x8002, 0x8002, 0xFF02, 0x8001, 0xFF02, 0x8001, 0x8002, 0x8001, 0x8002, 0x8001, 0x8002, 0xFF01] ++
  [0xFF02, 0x8001, 0xFF02, 0xC001, 0xFF02, 0xF901, 0xFF02, 0xA401, 0xA102, 0xA301, 0xFF01, 0xFF02]

/-- V20: the script is of the outline of 45_test.md R221. -/
theorem test_test_script :
    phases.conforms encRef 2 = true ∧ phases.all.flatMap (opFrames encRef 2) = phasesFrames := by decide +kernel

/-- What is no script of the outline: halves of one pattern ('O' and '0'), one digit for two halves, a counter that stands
still at the left, a single counter value; SET_PORTs the block never issues. -/
theorem test_script_refuses :
    isHalfAndHalf encRef 2 (.render ['O', '0'] 1 false 0) = false ∧
    isHalfAndHalf encRef 2 (.render ['8', '.'] 1 false 0) = false ∧
    isCounter 2 [.render ['0'] 1 false 0, .render ['1'] 1 false 0] = false ∧ isCounter 1 [.render ['0'] 1 false 0] = false ∧
    issuedOp encRef 2 (.setPort 0x80 0x3) = false ∧ issuedOp encRef 2 (.setPort 0x80 0x4) = false ∧
    issuedOp encRef 2 (.setPort 0x00 0x2) = true ∧ issuedOp encRef 2 (.setPort 0x55 0x2) = false := by decide +kernel

/-- What is one: digits in ascending order by SET_PORT, an odd text either way, a counter that moves through the digits. -/
theorem test_script_accepts :
    showsAllAtOnce encRef 2 [.setPort 0x80 0x1, .setPort 0x80 0x2] = true ∧
    isHalfAndHalf encRef 3 (.render ['8', '8', ' '] 1 false 0) = true ∧
    isHalfAndHalf encRef 3 (.render ['8', ' ', ' '] 1 false 0) = true ∧
    isCounter 2 [.render ['1'] 1 false 0, .render ['1'] 1 false 1, .render ['3'] 1 false 0] = true := by decide +kernel

/-- CLEARs and dark SET_PORTs may stand among the RENDERs of phases (3) to (5), a lit SET_PORT may not (log 36). -/
theorem test_script_blanks :
    ({ phases with
        halfAndHalf := .clear :: phases.halfAndHalf
        counter := phases.counter.flatMap fun op => [op, .clear]
        doneMessage := [.setPort 0xFF 0x1] ++ phases.doneMessage ++ [.clear] } : ScriptPhases).conforms encRef 2 = true ∧
    ({ phases with counter := .setPort 0x80 0x1 :: phases.counter } : ScriptPhases).conforms encRef 2 = false ∧
    ({ phases with halfAndHalf := [.clear] } : ScriptPhases).conforms encRef 2 = false := by decide +kernel

/-- V20: TEST puts out its 24 transactions and ends idle. -/
theorem test_test (s : State) (hi : s.seqpos = .idle) (hc : s.constructed = true) (hn : s.numDisplays = 2)
    (he : s.enc = encRef) (hs : scriptFor s.enc s.scripts 2 = some phases.all) :
    exec .test s = .next ((s.sent phasesFrames).ended .done) := by
  have h : scriptOutcome encRef 2 phases.all = some (phasesFrames, .done) := by decide +kernel
  rw [exec, execTest, State.whenReady_eq hi hc, hn, hs]
  show State.runScript phases.all s = _
  rw [State.runScript_eq, he, hn, h]
  rfl

/-! ## One step -/

/-- The step takes the next request (log 2); a host's pin write is refused (30_encoding.md R91). -/
theorem test_step_issues :
    look (fun s => (s.lat, s.pending)) (step { idle 4 0 0 with pending := [⟨.controller, ⟨0x24, []⟩⟩] }) =
      some (.low, []) ∧
    why (step { idle 4 0 0 with pending := [⟨.host, ⟨0x24, []⟩⟩] }) = some .notPublic := by decide
/-- P5, steps 0 and 49. -/
theorem test_step_sequencer :
    look (fun s => (s.data, s.seqpos))
        (step { idle 1 0 0 with seqpos := .refresh 0 0 0, render := some ⟨['8', '.'], 1, false, 0, [0x00]⟩ }) =
      some (.low, .refresh 0 0 1) ∧
    look (fun s => (s.out, s.seqpos, s.render)) (step
        { idle 1 0x0001 0 with
          lat := .low, seqpos := .refresh 0 0 49, render := some ⟨['8', '.'], 1, false, 0, [0x00]⟩ }) =
      some (0x0001, .idle, none) := by decide
theorem test_withFetchWord :
    look (fun s => s.trace) (step ((idle 4 0 0).withFetchWord 8 0x22)) = some [⟨.clock, false⟩] := by decide

/-! ## The hypotheses of the obligations are met

`test_hyp_<Name>` gives states and operands that meet the hypotheses of `Obligations.<Name>` together, one for each of its
clauses, at the ends of their ranges. -/

/-- Every cell of ENC_REF is printable ASCII and dark at the point. -/
theorem test_encRef_cells : ∀ e ∈ encRef, (0x20 ≤ e.1 ∧ e.1 ≤ 0x7E) ∧ e.2.getLsbD 7 = true := by decide +kernel

/-- The digits are in ENC_REF. -/
theorem test_encRef_digits : ∀ i < 10, (Memory.read encRef (0x30 + i)).isSome = true := by decide +kernel

/-- ENC_REF meets the constraints of 42_char_lookup.md R151, as R165 says. -/
theorem test_encRef_ok : EncOk encRef where
  canonical := by decide +kernel
  printable a b h := (test_encRef_cells (a, b) (Memory.mem_of_read h)).1
  one_case := ⟨0, by decide, by decide +kernel⟩
  both_cases := ⟨2, by decide, by decide +kernel⟩
  done_letters := by decide +kernel
  space := by decide +kernel
  letter_O := by decide +kernel
  digits a h1 h2 := by
    have h := test_encRef_digits (a - 0x30) (by omega)
    rwa [show 0x30 + (a - 0x30) = a by omega] at h
  point_dark a b h := (test_encRef_cells (a, b) (Memory.mem_of_read h)).2

/-- A RENDER accepted. -/
def inBuild : State := { idle 2 0 0 with seqpos := .build, render := some ⟨['1', '2'], 2, true, 0, []⟩ }

/-- A RENDER in its refresh phase, the latch low before its last write. -/
def inRefresh (pass digit k : Nat) (clearAfter : Bool) : State :=
  { idle 2 0 0 with
    seqpos := .refresh pass digit k
    lat := .low
    clk := if k % 3 = 2 then .low else .high
    render := some ⟨['1', '2'], 2, clearAfter, 0, [0xF9, 0xA4]⟩ }

/-- A CLEAR in progress. -/
def inClearing (digit k : Nat) : State :=
  { idle 2 0 0 with seqpos := .clearing digit k, lat := .low, clk := if k % 3 = 2 then .low else .high }

theorem test_idle_inv (n : Nat) (h1 : 1 ≤ n) (h8 : n ≤ 8) (sr : BitVec 16) (out : Frame) : Inv (idle n sr out) where
  config _ := ⟨h1, h8, by show pairwiseDistinct 7 8 9; decide, by simp [idle], by simp [idle], by simp [idle]⟩
  enc := test_encRef_ok
  scripts _ h := nomatch h
  position := rfl

theorem test_inBuild_inv : Inv inBuild where
  config _ := ⟨by decide, by decide, by decide, by decide⟩
  enc := test_encRef_ok
  scripts _ h := nomatch h
  position := ⟨rfl, _, rfl, rfl, by decide⟩

theorem test_inRefresh_inv (pass digit k : Nat) (ca : Bool) (hp : pass < 2) (hd : digit < 2) (hk : k < 50) :
    Inv (inRefresh pass digit k ca) where
  config _ := ⟨by show 1 ≤ 2; decide, by show 2 ≤ 8; decide, by show pairwiseDistinct 7 8 9; decide,
    by simp [inRefresh, idle], by simp only [inRefresh, idle]; split <;> simp, by simp [inRefresh]⟩
  enc := test_encRef_ok
  scripts _ h := nomatch h
  position := ⟨rfl, ⟨hk, fun _ h => by simp [inRefresh, h], fun _ _ => rfl, fun _ => rfl⟩, _, rfl, by
    show 2 ≤ 2; decide, hd, hp⟩

theorem test_inClearing_inv (digit k : Nat) (hd : digit < 2) (hk : k < 50) : Inv (inClearing digit k) where
  config _ := ⟨by show 1 ≤ 2; decide, by show 2 ≤ 8; decide, by show pairwiseDistinct 7 8 9; decide,
    by simp [inClearing, idle], by simp only [inClearing, idle]; split <;> simp, by simp [inClearing]⟩
  enc := test_encRef_ok
  scripts _ h := nomatch h
  position := ⟨rfl, ⟨hk, fun _ h => by simp [inClearing, h], fun _ _ => rfl, fun _ => rfl⟩, hd, by
    intro r hr; cases hr⟩

/-- An idle block with one request. -/
def asked (who : Issuer) (r : Record) : State := { idle 2 0 0 with pending := [⟨who, r⟩] }

theorem test_hyp_UnassignedOpcodesAreRefused :
    (∀ op ∈ [0x00#8, 0x2B, 0x35, 0xFF], op.toNat ∉ [0x01, 0x02, 0x03, 0x04, 0x10, 0x11, 0x20, 0x21, 0x22, 0x23, 0x24,
      0x25, 0x28, 0x29, 0x2A, 0x30, 0x31, 0x32, 0x33, 0x34]) ∧
    (asked .host ⟨0x2B, []⟩).seqpos = .idle ∧ (asked .host ⟨0x2B, []⟩).pending = [⟨.host, ⟨0x2B, []⟩⟩] ∧
    (asked .host ⟨0x03, [.nat 0]⟩).pending = [⟨.host, ⟨0x03, [.nat 0]⟩⟩] ∧ ∀ i, encode i ≠ ⟨0x03, [.nat 0]⟩ :=
  ⟨by decide, rfl, rfl, rfl, fun i h => by cases i <;> simp [encode] at h⟩

theorem test_hyp_ResetAndConstructedValues :
    ∀ n ∈ [(1 : Int), 8], 1 ≤ n ∧ n ≤ 8 ∧ (7 : PinId) ≠ 8 ∧ (7 : PinId) ≠ 9 ∧ (8 : PinId) ≠ 9 := by decide

theorem test_hyp_StepKeepsTheInvariant :
    (Inv (idle 8 0 0) ∧ step (idle 8 0 0) = .next (idle 8 0 0)) ∧
    (Inv inBuild ∧ ∃ t, step inBuild = .next t) ∧
    (∀ k ∈ [0, 47, 48, 49], Inv (inRefresh 1 1 k true) ∧ ∃ t, step (inRefresh 1 1 k true) = .next t) ∧
    (∀ k ∈ [0, 47, 48, 49], Inv (inClearing 1 k) ∧ ∃ t, step (inClearing 1 k) = .next t) := by
  refine ⟨⟨test_idle_inv 8 (by decide) (by decide) 0 0, rfl⟩, ⟨test_inBuild_inv, _, rfl⟩, ?_, ?_⟩
  · intro k hk
    refine ⟨test_inRefresh_inv 1 1 k true (by decide) (by decide) (by simp at hk; omega), ?_⟩
    simp only [List.mem_cons, List.not_mem_nil, or_false] at hk
    rcases hk with rfl | rfl | rfl | rfl <;> exact ⟨_, rfl⟩
  · intro k hk
    refine ⟨test_inClearing_inv 1 k (by decide) (by simp at hk; omega), ?_⟩
    simp only [List.mem_cons, List.not_mem_nil, or_false] at hk
    rcases hk with rfl | rfl | rfl | rfl <;> exact ⟨_, rfl⟩

theorem test_hyp_OperationInProgressGoesOn :
    Inv inBuild ∧ inBuild.seqpos ≠ .idle ∧ Inv (inRefresh 0 0 0 false) ∧ (inRefresh 0 0 0 false).seqpos ≠ .idle ∧
    Inv (inClearing 0 49) ∧ (inClearing 0 49).seqpos ≠ .idle :=
  ⟨test_inBuild_inv, by decide, test_inRefresh_inv 0 0 0 false (by decide) (by decide) (by decide), by decide,
    test_inClearing_inv 0 49 (by decide) (by decide), by decide⟩

theorem test_hyp_StepPerformsTheDecodedOperation :
    ((asked .host ⟨0x03, []⟩).seqpos = .idle ∧ (asked .host ⟨0x03, []⟩).pending = [⟨.host, ⟨0x03, []⟩⟩] ∧
      decode ⟨0x03, []⟩ = .ok .clear ∧ Instr.clear.level = 3) ∧
    ((asked .controller ⟨0x11, [.byte 1, .mask 2]⟩).seqpos = .idle ∧
      (asked .controller ⟨0x11, [.byte 1, .mask 2]⟩).pending = [⟨.controller, ⟨0x11, [.byte 1, .mask 2]⟩⟩] ∧
      decode ⟨0x11, [.byte 1, .mask 2]⟩ = .ok (.setPort 1 2) ∧ (Instr.setPort 1 2).level < 3) :=
  ⟨⟨rfl, rfl, rfl, rfl⟩, rfl, rfl, rfl, by decide⟩

theorem test_hyp_OperationsOfTheWrongIssuerAreRefused :
    ((asked .host ⟨0x22, []⟩).seqpos = .idle ∧ (asked .host ⟨0x22, []⟩).pending = [⟨.host, ⟨0x22, []⟩⟩] ∧
      decode ⟨0x22, []⟩ = .ok .clkLo ∧ Instr.clkLo.level < 3) ∧
    ((asked .controller ⟨0x04, []⟩).seqpos = .idle ∧
      (asked .controller ⟨0x04, []⟩).pending = [⟨.controller, ⟨0x04, []⟩⟩] ∧ decode ⟨0x04, []⟩ = .ok .test ∧
      Instr.test.level = 3) :=
  ⟨⟨rfl, rfl, rfl, by decide⟩, rfl, rfl, rfl, rfl⟩

theorem test_hyp_IdleBlockKeepsEverything : (idle 4 1 2).seqpos = .idle ∧ (idle 4 1 2).pending = [] := ⟨rfl, rfl⟩

/-- CLEAR of an idle block of one digit goes on. -/
theorem test_clear_next (n : Nat) (sr : BitVec 16) (out : Frame) : ∃ t, exec .clear (idle n sr out) = .next t :=
  ⟨_, execClear_eq rfl rfl⟩

theorem test_hyp_OperationsStartAndEndIdle :
    (inBuild.seqpos ≠ .idle ∧ ∃ t, step inBuild = .next t) ∧ Instr.clear.level = 3 ∧
    ∃ t, exec .clear (idle 1 0 0) = .next t :=
  ⟨⟨by decide, _, rfl⟩, rfl, test_clear_next 1 0 0⟩

theorem test_hyp_ConfigurationIsWrittenOnce :
    (idle 1 0 0).constructed = true ∧ (∃ t, exec .clear (idle 1 0 0) = .next t) ∧ inBuild.constructed = true ∧
    ∃ t, step inBuild = .next t :=
  ⟨rfl, test_clear_next 1 0 0, rfl, _, rfl⟩

theorem test_hyp_OutChangesOnlyAtTheLatchWrite :
    (∃ t, step (inRefresh 0 0 49 true) = .next t ∧ t.out = (inRefresh 0 0 49 true).sr) ∧
    (∃ t, step (inClearing 1 49) = .next t) ∧ ∃ t, step (inRefresh 0 0 48 true) = .next t :=
  ⟨⟨_, rfl, rfl⟩, ⟨_, rfl⟩, _, rfl⟩

theorem test_build_12 : build encRef ['1', '2'] 0 2 = .ok [0xF9, 0xA4] := by rfl
theorem test_build_x : build encRef ['1', 'x'] 0 2 = .error (.unsupportedCharacter 1 'x') := by rfl
theorem test_build_8 : build encRef ['8'] 7 8 = .ok (List.replicate 7 0xFF ++ [0x80]) := by rfl
theorem test_build_nil : build encRef [] 0 1 = .ok [] := by rfl

theorem test_hyp_SequencerPerformsTheWholeOperation :
    ((idle 1 0 0).seqpos = .idle ∧ (idle 1 0 0).constructed = true ∧ 1 ≤ (idle 1 0 0).numDisplays) ∧
    build (idle 2 0 0).enc ['1', '2'] 0 (idle 2 0 0).numDisplays = .ok [0xF9, 0xA4] ∧
    build (idle 1 0 0).enc [] 0 (idle 1 0 0).numDisplays = .ok [] ∧
    build (idle 2 0 0).enc ['1', 'x'] 0 (idle 2 0 0).numDisplays = .error (.unsupportedCharacter 1 'x') :=
  ⟨⟨rfl, rfl, by decide⟩, test_build_12, test_build_nil, test_build_x⟩

/-- A line at a level. -/
def lines (data clk lat : Level) : State := { idle 2 0x8001 0x1234 with data := data, clk := clk, lat := lat }

theorem test_hyp_ClockHighShiftsTheDataLevelIn :
    ∀ b : Bool, (lines (if b then .high else .low) .low .high).clk = .low ∧
      (lines (if b then .high else .low) .low .high).data = (if b then .high else .low) := by decide

theorem test_hyp_LatchHighCommitsTheChain : (lines .high .high .low).lat = .low := rfl

theorem test_hyp_HighWritesWithoutAKnownEdge :
    (lines .high .high .high).clk = .high ∧ (lines .high .high .high).lat = .high ∧
    ((lines .low .unsettled .high).clk.unspecified ∧ (lines .low .unsettled .high).data = .low) ∧
    ((lines .high .undriven .high).clk.unspecified ∧ (lines .high .undriven .high).data = .high) ∧
    (lines .high .high .unsettled).lat.unspecified ∧ (lines .high .high .undriven).lat.unspecified ∧
    ((lines .unsettled .low .high).clk = .low ∧ (lines .unsettled .low .high).data.unspecified) ∧
    ((lines .unsettled .unsettled .high).clk.unspecified ∧ (lines .unsettled .undriven .high).data.unspecified) :=
  ⟨rfl, rfl, ⟨.inl rfl, rfl⟩, ⟨.inr rfl, rfl⟩, .inl rfl, .inr rfl, ⟨rfl, .inl rfl⟩, .inl rfl, .inl rfl⟩

theorem test_hyp_SequencerAdvancesAsTheTableSays :
    (∃ t, exec .clkLo (idle 2 0 0) = .next t) ∧ (∃ t, exec .latLo (inRefresh 0 0 48 true) = .next t) ∧
    (∃ t, exec .latHi (inRefresh 0 0 49 true) = .next t ∧ t.seqpos = .refresh 0 1 0) ∧
    (∃ t, exec .latHi (inRefresh 0 1 49 true) = .next t ∧ t.seqpos = .refresh 1 0 0) ∧
    (∃ t, exec .latHi (inRefresh 1 1 49 true) = .next t ∧ t.seqpos = .clearing 0 0) ∧
    (∃ t, exec .latHi (inRefresh 1 1 49 false) = .next t ∧ t.seqpos = .idle) ∧
    (∃ t, exec (.dataWr true) (inClearing 0 0) = .next t) ∧
    (∃ t, exec .latHi (inClearing 0 49) = .next t ∧ t.seqpos = .clearing 1 0) ∧
    ∃ t, exec .latHi (inClearing 1 49) = .next t ∧ t.seqpos = .idle :=
  ⟨⟨_, rfl⟩, ⟨_, rfl⟩, ⟨_, rfl, rfl⟩, ⟨_, rfl, rfl⟩, ⟨_, rfl, rfl⟩, ⟨_, rfl, rfl⟩, ⟨_, rfl⟩, ⟨_, rfl, rfl⟩, _, rfl, rfl⟩

theorem test_hyp_ConstructStoresTheConfiguration :
    fresh.seqpos = .idle ∧ fresh.constructed = false ∧ (∀ n ∈ [1, 8], 1 ≤ n ∧ n ≤ 8) ∧ (1 : PinId) ≠ 2 ∧
    (1 : PinId) ≠ 3 ∧ (2 : PinId) ≠ 3 := by decide

theorem test_hyp_IllegalDigitCountRaises :
    fresh.seqpos = .idle ∧ fresh.constructed = false ∧ fresh.render = none ∧
    ∀ n ∈ [(0 : Int), -3, 9], n ≤ 0 ∨ 8 < n := by decide

theorem test_hyp_OnlyTheLowMaskByteTravels : ∀ k, k < 8 → (0x102#32).getLsbD k = (0x2#32).getLsbD k := by decide

theorem test_hyp_EveryHighWriteFollowsItsLowWrite :
    (2 ≤ (Instr.sendByte 1).level ∧ ∃ t, exec (.sendByte 1) (idle 2 0 0) = .next t) ∧
    (2 ≤ Instr.clear.level ∧ ∃ t, exec .clear (idle 2 0 0) = .next t) :=
  ⟨⟨by decide, _, rfl⟩, by decide, test_clear_next 2 0 0⟩

theorem test_hyp_EncodeAnswersTheEntry :
    (('8'.toNat, 0x80#8) ∈ (idle 2 0 0).enc ∧ Memory.wf (idle 2 0 0).enc = true) ∧
    ∀ b, ('Z'.toNat, b) ∉ (idle 2 0 0).enc := by
  have hz : ∀ e ∈ encRef, e.1 ≠ 'Z'.toNat := by decide +kernel
  exact ⟨⟨by decide +kernel, by decide +kernel⟩, fun b h => hz ('Z'.toNat, b) h rfl⟩

theorem test_hyp_TableConstraintsShowInEncode :
    EncOk (idle 2 0 0).enc ∧ '0'.toNat ∈ [48, 49, 50, 51, 52, 53, 54, 55, 56, 57] ∧
    '9'.toNat ∈ [48, 49, 50, 51, 52, 53, 54, 55, 56, 57] ∧ '\n'.toNat < 32 ∧ 126 < 'é'.toNat ∧
    exec (.encodeChar '8') (idle 2 0 0) = .next { idle 2 0 0 with result := .entry (some 0x80) } :=
  ⟨test_encRef_ok, by simp, by simp, by decide +kernel, by decide +kernel, rfl⟩

theorem test_hyp_BufferBytesComeFromTheTable :
    build encRef ['1', '2'] 0 2 = .ok [0xF9, 0xA4] ∧ build encRef ['8'] 7 8 = .ok (List.replicate 7 0xFF ++ [0x80]) :=
  ⟨test_build_12, test_build_8⟩

/-- A block of two digits with the script of V20. -/
def withScript : State := { idle 2 0 0 with scripts := [(2, phases)] }

/-- Its script is the one TEST performs. -/
theorem test_withScript : scriptFor withScript.enc withScript.scripts withScript.numDisplays = some phases.all := by
  decide +kernel

/-- No operation of V20's script raises. -/
theorem test_phases_errorFree : ∀ op ∈ phases.all, opErrorFree encRef 2 op = true := by decide +kernel

/-- TEST of that block goes on. -/
theorem test_withScript_next : exec .test withScript = .next ((withScript.sent phasesFrames).ended .done) :=
  test_test withScript rfl rfl rfl rfl test_withScript

/-- A host operation goes on in a block of 2 digits, TEST among them. -/
theorem test_hyp_hostFrames :
    Instr.test.level = 3 ∧ withScript.numDisplays ≤ 8 ∧ ∃ t, exec .test withScript = .next t :=
  ⟨rfl, by decide, _, test_withScript_next⟩

/-- Both sides of each clause of BufferGrowsByTheLastCharacter hold somewhere. -/
theorem test_hyp_BufferGrowsByTheLastCharacter :
    build encRef [] 0 1 = .ok [] ∧ build encRef (['1'] ++ ['2']) 0 2 = .ok [0xF9, 0xA4] ∧
    build encRef ([] ++ ['.']) 0 1 = .ok [] ∧ build encRef (['1'] ++ ['.']) 0 1 = .ok [0x79] := ⟨rfl, rfl, rfl, rfl⟩

/-- The three errors of the build are raised somewhere. -/
theorem test_hyp_buildErrors :
    build encRef ['.', '.', '5'] 0 4 = .error (.dotWithoutDigit 1) ∧
    build encRef ['1', 'x'] 0 2 = .error (.unsupportedCharacter 1 'x') ∧
    build encRef ['1', '2'] 0 1 = .error (.displayOverflow 2 1) := ⟨rfl, rfl, rfl⟩

theorem test_hyp_OnehotSelectsOnePosition : ∀ p ∈ [0, 7], p < 8 := by decide

theorem test_hyp_PhysReversesTheIndex : (0 < 1 ∧ 0 < 8) ∧ 7 < 8 := by decide

theorem test_hyp_SelectFunctionsAlwaysComplete : 8 ≤ 8 ∧ 8 ≤ 31 ∧ 8 ≤ 32 := by decide

theorem test_hyp_ClearBlanksEveryDigit :
    ∀ n ∈ [1, 8], (idle n 0 0).seqpos = .idle ∧ (idle n 0 0).constructed = true ∧ 1 ≤ (idle n 0 0).numDisplays ∧
      (idle n 0 0).numDisplays ≤ 8 := by decide

theorem test_hyp_ClearIsIdempotentInItsFinalState :
    1 ≤ (idle 1 0 0).numDisplays ∧ ∃ t u, exec .clear (idle 1 0 0) = .next t ∧ exec .clear t = .next u :=
  ⟨by decide, _, _, execClear_eq rfl rfl, execClear_eq (by simp) (by simp; rfl)⟩

/-- A RENDER that goes on, for each of the texts built above. -/
theorem test_render_next (n : Nat) (q : List Char) (st : Nat) (ca : Bool) (buf : List Byte)
    (h : build encRef q st n = .ok buf) : ∃ t, exec (.render q 1 ca st) (idle n 0 0) = .next t :=
  ⟨_, execRender_ok rfl rfl (by decide) h⟩

theorem test_hyp_RenderSendsItsPasses :
    (idle 8 0 0).seqpos = .idle ∧ (idle 8 0 0).constructed = true ∧ (idle 8 0 0).numDisplays ≤ 8 ∧
    build (idle 8 0 0).enc ['8'] 7 (idle 8 0 0).numDisplays = .ok (List.replicate 7 0xFF ++ [0x80]) :=
  ⟨rfl, rfl, by decide, test_build_8⟩

theorem test_hyp_StateAfterRender :
    (build (idle 8 0 0).enc ['8'] 7 8 = .ok (List.replicate 7 0xFF ++ [0x80]) ∧
      ∀ ca, ∃ t, exec (.render ['8'] 1 ca 7) (idle 8 0 0) = .next t) ∧
    build (idle 1 0 0).enc [] 0 1 = .ok [] ∧ ∀ ca, ∃ t, exec (.render [] 1 ca 0) (idle 1 0 0) = .next t :=
  ⟨⟨test_build_8, fun ca => test_render_next 8 _ _ ca _ test_build_8⟩, test_build_nil,
    fun ca => test_render_next 1 _ _ ca _ test_build_nil⟩

theorem test_hyp_FailedRenderLeavesNoTrace :
    (idle 2 0 0).seqpos = .idle ∧ (idle 2 0 0).constructed = true ∧ (idle 2 0 0).render = none ∧
    build (idle 2 0 0).enc ['1', 'x'] 0 (idle 2 0 0).numDisplays = .error (.unsupportedCharacter 1 'x') :=
  ⟨rfl, rfl, rfl, test_build_x⟩

/-- A script with a SET_PORT the block never issues: two digits at once. -/
def twoAtOnce : ScriptPhases := { phases with allAtOnce := [.setPort 0x80 0x3] }

theorem test_hyp_HostOperationRefusals :
    (idle 2 0 0).seqpos = .idle ∧ (idle 2 0 0).constructed = true ∧ (∀ e ∈ (idle 2 0 0).scripts, e.1 ≠ 2) ∧
    (∃ op ∈ twoAtOnce.all, issuedOp encRef 2 op = false) ∧
    fresh.seqpos = .idle ∧ fresh.constructed = false ∧ (1 : Int) ≤ 8 ∧ (3 : PinId) = 3 :=
  ⟨rfl, rfl, by simp [idle], ⟨.setPort 0x80 0x3, by decide, by decide +kernel⟩, rfl, rfl, by decide, rfl⟩

theorem test_hyp_RenderEventCounts :
    build (idle 2 0 0).enc ['1', '2'] 0 (idle 2 0 0).numDisplays = .ok [0xF9, 0xA4] ∧
    ∃ t, exec (.render ['1', '2'] 1 true 0) (idle 2 0 0) = .next t :=
  ⟨test_build_12, test_render_next 2 _ _ true _ test_build_12⟩

theorem test_hyp_FullPassSelectsEveryDigitOnce :
    (idle 8 0 0).numDisplays ≤ 8 ∧ build (idle 8 0 0).enc ['8'] 7 8 = .ok (List.replicate 7 0xFF ++ [0x80]) ∧
    (List.replicate 7 (0xFF : Byte) ++ [0x80]).length = (idle 8 0 0).numDisplays :=
  ⟨by decide, test_build_8, by decide⟩

theorem test_hyp_FramesAtThePinsAreTheFramesSent :
    build (idle 2 0 0).enc ['1', '2'] 0 (idle 2 0 0).numDisplays = .ok [0xF9, 0xA4] ∧
    ∃ t, exec (.render ['1', '2'] 1 false 0) (idle 2 0 0) = .next t :=
  ⟨test_build_12, test_render_next 2 _ _ false _ test_build_12⟩

theorem test_hyp_OperationsHaveNoHistory :
    Instr.clear.level = 3 ∧ (idle 2 0 0).numDisplays = (idle 2 1 1).numDisplays ∧ (idle 2 0 0).enc = (idle 2 1 1).enc ∧
    (idle 2 0 0).scripts = (idle 2 1 1).scripts ∧ (∃ t, exec .clear (idle 2 0 0) = .next t) ∧
    ∃ t, exec .clear (idle 2 1 1) = .next t :=
  ⟨rfl, rfl, rfl, rfl, test_clear_next 2 0 0, test_clear_next 2 1 1⟩

theorem test_hyp_ClearAlwaysWins :
    1 ≤ (idle 2 0 0).numDisplays ∧ ∃ t u v, exec (.render ['1', '2'] 1 false 0) (idle 2 0 0) = .next t ∧
      exec (.render ['1', '2'] 1 true 0) t = .next u ∧ u.result = .done ∧ exec .clear (idle 2 0 0) = .next v := by
  refine ⟨by decide, _, _, _, execRender_ok rfl rfl (by decide) test_build_12,
    execRender_ok (buf := [0xF9, 0xA4]) (by simp) (by simp; rfl) (by decide) ?_, ?_, execClear_eq rfl rfl⟩
  · rw [State.sent_enc, State.sent_numDisplays]; exact test_build_12
  · unfold State.sent; split <;> rfl

theorem test_hyp_LastDigitStaysLit :
    (idle 2 0 0).numDisplays ≤ 8 ∧ build (idle 2 0 0).enc ['1', '2'] 0 2 = .ok ([0xF9] ++ [0xA4]) ∧
    ∃ t, exec (.render ['1', '2'] 1 false 0) (idle 2 0 0) = .next t :=
  ⟨by decide, test_build_12, test_render_next 2 _ _ false _ test_build_12⟩

theorem test_hyp_PassRealisesTheImage :
    8 ≤ 8 ∧ ([0xF9, 0xA4] : List Byte).length ≤ 8 ∧ (∃ f, (passFrames 8 [0xF9, 0xA4])[1]? = some f) ∧
    5 < 8 - ([0xF9, 0xA4] : List Byte).length := ⟨by decide, by decide, ⟨_, rfl⟩, by decide⟩

theorem test_withScript_inv : Inv withScript where
  config _ := ⟨by show 1 ≤ 2; decide, by show 2 ≤ 8; decide, by show pairwiseDistinct 7 8 9; decide,
    by simp [withScript, idle]⟩
  enc := test_encRef_ok
  scripts e h := by rw [List.mem_singleton.1 h]; exact test_test_script.1
  position := rfl

/-- A script that comes to a RENDER which raises, or which has no redraw. -/
def badPhases (q : List Char) (rc : Nat) : ScriptPhases where
  eachDigit := [.clear, .render q rc false 0]
  allAtOnce := []
  halfAndHalf := []
  counter := []
  doneMessage := [.clear]

def withBad (q : List Char) (rc : Nat) : State := { idle 2 0 0 with scripts := [(2, badPhases q rc)] }

/-- 45_test.md R220: TEST raises what its script raises, after the CLEAR before it; a redraw count of 0 refuses it. -/
theorem test_test_raises :
    look (fun s => (s.result, s.seqpos, s.out)) (exec .test (withBad ['1', 'x'] 1)) =
      some (.raised (.unsupportedCharacter 1 'x'), .idle, 0xFF02) ∧
    why (exec .test (withBad ['1'] 0)) = some .zeroRedrawCount := by decide +kernel

theorem test_hyp_TestPerformsItsScript :
    (withScript.seqpos = .idle ∧ withScript.constructed = true ∧
      scriptFor withScript.enc withScript.scripts withScript.numDisplays = some phases.all ∧
      ∀ op ∈ phases.all, opErrorFree withScript.enc withScript.numDisplays op = true) ∧
    (∀ q rc, (withBad q rc).seqpos = .idle ∧ (withBad q rc).constructed = true ∧
      scriptFor (withBad q rc).enc (withBad q rc).scripts (withBad q rc).numDisplays =
        some ([.clear] ++ .render q rc false 0 :: [.clear])) ∧
    (∀ op ∈ [ScriptOp.clear], opErrorFree encRef 2 op = true) ∧
    build encRef ['1', 'x'] 0 2 = .error (.unsupportedCharacter 1 'x') :=
  ⟨⟨rfl, rfl, test_withScript, test_phases_errorFree⟩, fun _ _ => ⟨rfl, rfl, rfl⟩, by decide, test_build_x⟩

theorem test_hyp_ConformingTestRaisesNothing :
    (scriptFor withScript.enc withScript.scripts withScript.numDisplays = some phases.all ∧
      ConformingScript withScript.enc withScript.numDisplays phases.all) ∧
    (Inv withScript ∧ withScript.seqpos = .idle ∧ withScript.constructed = true ∧
      ∃ e ∈ withScript.scripts, e.1 = withScript.numDisplays) :=
  ⟨⟨test_withScript, phases, test_test_script.1, rfl⟩, test_withScript_inv, rfl, rfl, _, List.mem_singleton.2 rfl, rfl⟩

end Sys2Proof.Tests
end

section
/-! The data-line writes of SEND_BYTE and SET_PORT (spec/20_memory.md R51, R52). -/

namespace Sys2Proof.Machine

/-- The levels written to the data line among some pin events, in order. -/
def dataLevels (es : List PinEvent) : List Bool := (es.filter fun e => e.pin == .data).map PinEvent.level

@[simp] theorem dataLevels_append (es fs : List PinEvent) : dataLevels (es ++ fs) = dataLevels es ++ dataLevels fs := by
  rw [dataLevels, List.filter_append, List.map_append]
  rfl

/-- One data write a bit: its clock pulse writes no data (41_serial_engine.md R130). -/
@[simp] theorem dataLevels_bitEvents (b : Bool) : dataLevels (bitEvents b) = [b] := rfl

/-- Bits put their own levels on the data line, one each. -/
theorem dataLevels_flatMap_bitEvents (bs : List Bool) : dataLevels (bs.flatMap bitEvents) = bs := by
  induction bs with
  | nil => rfl
  | cons b bs ih => rw [List.flatMap_cons, dataLevels_append, dataLevels_bitEvents, ih, List.singleton_append]

theorem byteEvents_eq_flatMap_bitsOf (v : Byte) : byteEvents v = (bitsOf v).flatMap bitEvents := by
  rw [byteEvents, bitsOf, List.flatMap_map]

/-- A byte's data writes are its bits, most significant first (20_memory.md R51). -/
@[simp] theorem dataLevels_byteEvents (v : Byte) : dataLevels (byteEvents v) = bitsOf v := by
  rw [byteEvents_eq_flatMap_bitsOf, dataLevels_flatMap_bitEvents]

/-- A transaction's data writes: the segment byte, then the select byte; the latch pulse writes no data. -/
@[simp] theorem dataLevels_frameEvents (f : Frame) :
    dataLevels (frameEvents f) = bitsOf (segOf f) ++ bitsOf (selOf f) := by
  have hlatch : dataLevels [⟨.latch, false⟩, ⟨.latch, true⟩] = [] := rfl
  rw [frameEvents, dataLevels_append, dataLevels_append, hlatch, dataLevels_byteEvents, dataLevels_byteEvents,
    List.append_nil]

/-- The bits of a byte, written out. -/
theorem bitsOf_eq (v : Byte) : bitsOf v = [v.getLsbD 7, v.getLsbD 6, v.getLsbD 5, v.getLsbD 4, v.getLsbD 3,
    v.getLsbD 2, v.getLsbD 1, v.getLsbD 0] := rfl

@[simp] theorem State.advance_iterate_trace (k : Nat) (s : State) : (State.advance^[k] s).trace = s.trace := by
  rw [State.advance_iterate_eq]

@[simp] theorem State.sendByte_trace (s : State) (v : Byte) : (s.sendByte v).trace = s.trace ++ byteEvents v := by
  rw [State.sendByte_spec, State.advance_iterate_trace]
  rfl

@[simp] theorem State.setPort_trace (s : State) (a : Byte) (m : Mask) :
    (s.setPort a m).trace = s.trace ++ frameEvents (frameOf a (lowByte m)) := by
  rw [State.setPort_spec, State.advance_iterate_trace, State.sent_trace, framesEvents, List.flatMap_singleton]

theorem exec_sendByte (v : Byte) (s : State) : exec (.sendByte v) s = .next (s.sendByte v) := rfl

theorem exec_setPort (a : Byte) (m : Mask) (s : State) : exec (.setPort a m) s = .next (s.setPort a m) := rfl

theorem lowByte_getLsbD (m : Mask) {k : Nat} (hk : k < 8) : (lowByte m).getLsbD k = m.getLsbD k := by
  simp [lowByte, hk]

/-- Only bits 7 to 0 of a mask reach its low byte. -/
theorem lowByte_congr {m m' : Mask} (h : ∀ k, k < 8 → m.getLsbD k = m'.getLsbD k) : lowByte m = lowByte m' := by
  apply BitVec.eq_of_getLsbD_eq
  intro k hk
  rw [lowByte_getLsbD m hk, lowByte_getLsbD m' hk, h k hk]

/-- SET_PORT reads the mask only through its low byte (20_memory.md R52). -/
theorem State.setPort_congr {m m' : Mask} (h : lowByte m = lowByte m') (a : Byte) (s : State) :
    s.setPort a m = s.setPort a m' := by
  rw [State.setPort, State.setPort, h]

/-- The bits of a mask's low byte are the mask's own. -/
theorem bitsOf_lowByte (m : Mask) : bitsOf (lowByte m) = [m.getLsbD 7, m.getLsbD 6, m.getLsbD 5, m.getLsbD 4,
    m.getLsbD 3, m.getLsbD 2, m.getLsbD 1, m.getLsbD 0] := by
  simp only [bitsOf_eq, lowByte_getLsbD, Nat.reduceLT]

/-- Settles O31: SET_PORT reads the mask through its low byte, and its trace is the events of the frame. -/
theorem onlyTheLowMaskByteTravels : Obligations.OnlyTheLowMaskByteTravels := by
  intro a m m' s hagree
  refine ⟨?_, s.setPort a m, exec_setPort a m s, _, s.setPort_trace a m, ?_⟩
  · rw [exec_setPort, exec_setPort, State.setPort_congr (lowByte_congr hagree)]
  · show dataLevels (frameEvents (frameOf a (lowByte m))) = _
    rw [dataLevels_frameEvents, segOf_frameOf, selOf_frameOf, bitsOf_eq, bitsOf_lowByte]
    rfl

/-- SEND_BYTE completes, and its data writes are the bits of the byte, at every state (20_memory.md R51). -/
theorem exec_sendByte_dataLevels (v : Byte) (s : State) : ∃ t, exec (.sendByte v) s = .next t ∧
    ∃ ev, t.trace = s.trace ++ ev ∧ dataLevels ev = bitsOf v :=
  ⟨s.sendByte v, exec_sendByte v s, byteEvents v, s.sendByte_trace v, dataLevels_byteEvents v⟩

/-- Settles O27: `bitsOf` lists the bits from 7 down to 0, and computes on the spec's example. -/
theorem bytesGoOutMostSignificantBitFirst : Obligations.BytesGoOutMostSignificantBitFirst :=
  ⟨exec_sendByte_dataLevels, exec_sendByte_dataLevels 0b10110000⟩

end Sys2Proof.Machine
end

section
/-! PROOF. RENDER as the host calls it: the operands it leaves out, and the record that is sent (spec/30_encoding.md
R83). -/

namespace Sys2Proof

/-- The three defaults, each in the place of its own operand (30_encoding.md R83). -/
theorem RenderCall.toInstr_eq (q : List Char) (rc : Option Nat) (ca : Option Bool) (st : Option Nat) :
    RenderCall.toInstr ⟨q, rc, ca, st⟩ = .render q (rc.getD 100) (ca.getD true) (st.getD 0) := rfl

theorem encode_render (q : List Char) (rc : Nat) (ca : Bool) (st : Nat) :
    encode (.render q rc ca st) = ⟨0x02, [.text q, .nat rc, .flag ca, .nat st]⟩ := rfl

theorem renderWithoutStartAt_eq (q : List Char) (rc : Nat) (ca : Bool) :
    renderWithoutStartAt q rc ca = .render q rc ca 0 := rfl

/-- Settles O4: a call fills in its omitted operands before it is encoded, so the record always has all four. -/
theorem omittedOperandsTakeTheirDefaults : Obligations.OmittedOperandsTakeTheirDefaults :=
  ⟨RenderCall.toInstr_eq, fun q rc ca st => ⟨0x02, encode_render q rc ca st⟩, renderWithoutStartAt_eq⟩

end Sys2Proof
end

section
/-! PROOF. The pin micro-operations the load does not react to: DATA_WR, CLK_LO and LAT_LO
(spec/40_construct_and_pins.md R112, R113, R115). -/

namespace Sys2Proof.Machine

/-- The opcode of DATA_WR carries the level in bit 0 (40_construct_and_pins.md R112). -/
theorem encode_dataWr (b : Bool) : encode (.dataWr b) = ⟨0x20 + (if b then 1 else 0), []⟩ := by
  cases b <;> rfl

theorem encode_clkLo : encode .clkLo = ⟨0x22, []⟩ := rfl

theorem encode_latLo : encode .latLo = ⟨0x24, []⟩ := rfl

/-- A pin micro-operation drives its line, then SEQPOS advances (40_construct_and_pins.md R111). -/
theorem exec_toInstr_drive (e : PinEvent) (s : State) :
    exec e.toInstr s = .next (s.drive e.pin e.level).advance := by
  rw [exec_toInstr, State.pinWrite]

/-- DATA_WR writes the line and the trace only (40_construct_and_pins.md R112). -/
theorem exec_dataWr (b : Bool) (s : State) :
    exec (.dataWr b) s = .next (State.advance { s with data := .ofBool b, trace := s.trace ++ [⟨.data, b⟩] }) := by
  rw [← s.drive_data b]
  exact exec_toInstr_drive ⟨.data, b⟩ s

/-- CLK_LO writes the line and the trace only (40_construct_and_pins.md R113). -/
theorem exec_clkLo (s : State) :
    exec .clkLo s = .next (State.advance { s with clk := .low, trace := s.trace ++ [⟨.clock, false⟩] }) := by
  rw [← s.drive_clock_low]
  exact exec_toInstr_drive ⟨.clock, false⟩ s

/-- LAT_LO writes the line and the trace only (40_construct_and_pins.md R115). -/
theorem exec_latLo (s : State) :
    exec .latLo s = .next (State.advance { s with lat := .low, trace := s.trace ++ [⟨.latch, false⟩] }) := by
  rw [← s.drive_latch_low]
  exact exec_toInstr_drive ⟨.latch, false⟩ s

/-- Settles O16: DATA_WR is the pin write of the data line, which the load does not react to. -/
theorem dataWriteDrivesTheDataLine : Obligations.DataWriteDrivesTheDataLine :=
  fun b s => ⟨encode_dataWr b, exec_dataWr b s⟩

/-- Settles O17: CLK_LO and LAT_LO are pin writes of 0, and the load reacts to rising edges only. -/
theorem lowWritesDoNotTouchTheLoad : Obligations.LowWritesDoNotTouchTheLoad :=
  ⟨encode_clkLo, encode_latLo, fun s => ⟨exec_clkLo s, exec_latLo s⟩⟩

end Sys2Proof.Machine
end

section
/-! PROOF. The serial engine as operations performed one by one: SEND_BYTE and SET_PORT and the micro-operations they
stand for (spec/41_serial_engine.md R130, R132). -/

namespace Sys2Proof.Machine

/-- Pin micro-operations performed one by one are their pin writes (40_construct_and_pins.md R111). -/
theorem execAll_map_toInstr (es : List PinEvent) (s : State) :
    execAll (es.map PinEvent.toInstr) s = .next (s.writes es) := by
  induction es generalizing s with
  | nil => rfl
  | cons e es ih =>
    rw [List.map_cons, execAll, exec_toInstr, andThen_next]
    exact ih (s.pinWrite e.pin e.level)

/-- The 24 micro-operations of a byte, performed one by one, send it (41_serial_engine.md R130). -/
theorem execAll_byteOps (v : Byte) (s : State) : execAll (byteOps v) s = .next (s.sendByte v) := by
  have hops : byteOps v = (byteEvents v).map PinEvent.toInstr := rfl
  rw [hops, execAll_map_toInstr, State.sendByte_writes]

/-- LAT_LO and then LAT_HI are the latch pulse (41_serial_engine.md R132). -/
theorem execAll_latchPulse (s : State) : execAll [.latLo, .latHi] s = .next s.latchPulse :=
  execAll_map_toInstr [⟨.latch, false⟩, ⟨.latch, true⟩] s

/-- SET_PORT's operations, performed one by one, are SET_PORT (41_serial_engine.md R132). -/
theorem execAll_setPortOps (a : Byte) (m : Mask) (s : State) :
    execAll [.sendByte a, .sendByte (lowByte m), .latLo, .latHi] s = .next (s.setPort a m) := by
  rw [execAll, exec_sendByte, andThen_next, execAll, exec_sendByte, andThen_next, execAll_latchPulse, State.setPort]

theorem encode_sendByte (v : Byte) : encode (.sendByte v) = ⟨0x10, [.byte v]⟩ := rfl

theorem encode_setPort (a : Byte) (m : Mask) : encode (.setPort a m) = ⟨0x11, [.byte a, .mask m]⟩ := rfl

theorem setWidth_eq_lowByte (m : Mask) : m.setWidth 8 = lowByte m := BitVec.setWidth_eq_extractLsb' (by decide)

theorem frameEvents_length (f : Frame) : (frameEvents f).length = 50 := rfl

/-- Settles O26: `byteOps` and `byteEvents` of the byte, written out from bit 7 down to bit 0. -/
theorem sendByteIsEightBitPulses : Obligations.SendByteIsEightBitPulses := by
  intro v s
  refine ⟨encode_sendByte v, ?_, s.sendByte v, exec_sendByte v s, s.sendByte_trace v⟩
  rw [exec_sendByte, ← execAll_byteOps]
  rfl

/-- Settles O29: the operations compose to SET_PORT, whose trace grows by the events of one frame. -/
theorem setPortIsTwoBytesAndALatchPulse : Obligations.SetPortIsTwoBytesAndALatchPulse := by
  intro a m s
  rw [setWidth_eq_lowByte]
  refine ⟨encode_setPort a m, ?_, s.setPort a m, exec_setPort a m s, ?_, ?_⟩
  · rw [exec_setPort, execAll_setPortOps]
  · rw [State.setPort_trace, frameEvents, segOf_frameOf, selOf_frameOf]
  · rw [State.setPort_trace, List.length_append, frameEvents_length]

end Sys2Proof.Machine
end

section
/-! PROOF. DP_ON: the point's bit cleared, the seven segments kept (spec/42_char_lookup.md R155). -/

namespace Sys2Proof.Machine

/-- The mask of R155 is `2 ^ 7 - 1`: its bits below 7, and no others. -/
theorem pointMask_getLsbD (k : Nat) : (0x7F#8).getLsbD k = decide (k < 7) := by
  rw [BitVec.getLsbD, BitVec.toNat_ofNat]
  exact Nat.testBit_two_pow_sub_one 7 k

/-- The bits of `0 : b[6:0]` (42_char_lookup.md R155). -/
theorem pointOn_getLsbD (b : Byte) (k : Nat) : (pointOn b).getLsbD k = (b.getLsbD k && decide (k < 7)) := by
  rw [pointOn, BitVec.getLsbD_and, pointMask_getLsbD]

theorem pointOn_getLsbD_seven (b : Byte) : (pointOn b).getLsbD 7 = false := by
  rw [pointOn_getLsbD]
  exact Bool.and_false _

theorem pointOn_getLsbD_of_lt (b : Byte) {k : Nat} (hk : k < 7) : (pointOn b).getLsbD k = b.getLsbD k := by
  rw [pointOn_getLsbD, decide_eq_true hk, Bool.and_true]

@[simp] theorem pointOn_pointOn (b : Byte) : pointOn (pointOn b) = pointOn b := by
  rw [pointOn, pointOn, BitVec.and_assoc, BitVec.and_self]

theorem encode_dpOn (b : Byte) : encode (.dpOn b) = ⟨0x31, [.byte b]⟩ := rfl

theorem exec_dpOn (b : Byte) (s : State) : exec (.dpOn b) s = .next { s with result := .byte (pointOn b) } := rfl

/-- DP_ON of a byte whose point is on already hands it over as it is. -/
theorem exec_dpOn_pointOn (b : Byte) (s : State) :
    exec (.dpOn (pointOn b)) s = .next { s with result := .byte (pointOn b) } := by
  rw [exec_dpOn, pointOn_pointOn]

/-- Settles O36: the byte handed over is `pointOn b`, whose bits are those of `b` under the mask. -/
theorem pointOnClearsBitSevenOnly : Obligations.PointOnClearsBitSevenOnly :=
  fun b s => ⟨encode_dpOn b, pointOn b, exec_dpOn b s, pointOn_getLsbD_seven b,
    fun _ hk => pointOn_getLsbD_of_lt b hk, exec_dpOn_pointOn b s⟩

end Sys2Proof.Machine
end

section
/-! PROOF. ONEHOT and PHYS: the mask of one position, and the reversal of the index
(spec/43_digit_select.md R180, R181). -/

namespace Sys2Proof.Machine

/-- As long as `1 << p` is a `u32`, ONEHOT's mask is the power of two (43_digit_select.md R180). -/
theorem selectMask_eq_twoPow {p : Nat} (hp : p < 32) : selectMask p = BitVec.twoPow 32 p := by
  rw [selectMask, if_pos hp, BitVec.twoPow_eq]

theorem selectMask_toNat {p : Nat} (hp : p < 32) : (selectMask p).toNat = 2 ^ p := by
  rw [selectMask_eq_twoPow hp, BitVec.toNat_twoPow_of_lt hp]

theorem selectMask_getLsbD {p : Nat} (hp : p < 32) (k : Nat) : (selectMask p).getLsbD k = decide (k = p) := by
  rw [selectMask_eq_twoPow hp, BitVec.getLsbD_twoPow, decide_eq_true hp, Bool.true_and]
  exact decide_eq_decide.2 eq_comm

theorem encode_onehot (p : Nat) : encode (.onehot p) = ⟨0x32, [.nat p]⟩ := rfl

theorem exec_onehot (p : Nat) (s : State) : exec (.onehot p) s = .next { s with result := .mask (selectMask p) } := rfl

/-- Settles O43: the mask handed over is `selectMask p`, the power of two with exponent `p`. -/
theorem onehotSelectsOnePosition : Obligations.OnehotSelectsOnePosition := by
  intro p s hp
  have hp32 : p < 32 := Nat.lt_trans hp (by decide)
  exact ⟨encode_onehot p, selectMask p, exec_onehot p s, selectMask_toNat hp32, selectMask_getLsbD hp32⟩

theorem position_of_lt {n i : Nat} (hi : i < n) : position n i = n - 1 - i := if_pos hi

/-- An index and its position add up to the last index (43_digit_select.md R181). -/
theorem position_add {n i : Nat} (hi : i < n) : position n i + 1 + i = n := by
  rw [position_of_lt hi]
  omega

theorem position_lt {n i : Nat} (hi : i < n) : position n i < n := by
  have hadd := position_add hi
  omega

/-- PHYS is its own inverse (43_digit_select.md R181). -/
theorem position_position {n i : Nat} (hi : i < n) : position n (position n i) = i := by
  have hadd := position_add hi
  have hadd' := position_add (position_lt hi)
  omega

theorem encode_phys (n i : Nat) : encode (.phys n i) = ⟨0x33, [.nat n, .nat i]⟩ := rfl

theorem exec_phys (n i : Nat) (s : State) :
    exec (.phys n i) s = .next { s with result := .position (position n i) } := rfl

/-- PHYS of an index's position hands over the index (43_digit_select.md R181). -/
theorem exec_phys_position {n i : Nat} (hi : i < n) (s : State) :
    exec (.phys n (position n i)) s = .next { s with result := .position i } := by
  rw [exec_phys, position_position hi]

/-- Settles O44: the position handed over is `position n i`, the reversal of the index. -/
theorem physReversesTheIndex : Obligations.PhysReversesTheIndex :=
  fun n i s hi => ⟨encode_phys n i, position n i, exec_phys n i s, position_add hi, position_lt hi,
    exec_phys_position hi s⟩

end Sys2Proof.Machine
end

section
/-! PROOF. The decoder: records and operations correspond one to one, and every other record is refused
(spec/30_encoding.md R81, R82, R91). -/

namespace Sys2Proof

/-- The record of an operation decodes to it, one lemma of the round trip for each constructor. -/
theorem decode_encode (i : Instr) : decode (encode i) = .ok i :=
  match i with
  | .construct d c l n => Laws.RoundTrip.construct d c l n
  | .render q rc ca st => Laws.RoundTrip.render q rc ca st
  | .clear => Laws.RoundTrip.clear
  | .test => Laws.RoundTrip.test
  | .sendByte v => Laws.RoundTrip.sendByte v
  | .setPort a m => Laws.RoundTrip.setPort a m
  | .dataWr b => Laws.RoundTrip.dataWr b
  | .clkLo => Laws.RoundTrip.clkLo
  | .clkHi => Laws.RoundTrip.clkHi
  | .latLo => Laws.RoundTrip.latLo
  | .latHi => Laws.RoundTrip.latHi
  | .cfgOut p => Laws.RoundTrip.cfgOut p
  | .encodeChar c => Laws.RoundTrip.encodeChar c
  | .dpOn b => Laws.RoundTrip.dpOn b
  | .onehot p => Laws.RoundTrip.onehot p
  | .phys n j => Laws.RoundTrip.phys n j
  | .buildBuffer q st n => Laws.RoundTrip.buildBuffer q st n

/-- A configuration decodes only with an assigned pin and without operand fields (format G). -/
theorem decodeCfgOut_ok {op : Byte} {args : List Operand} {i : Instr} (h : decodeCfgOut op args = .ok i) :
    ∃ p, pinOfBits (op.extractLsb' 0 2) = some p ∧ args = [] ∧ i = .cfgOut p := by
  unfold decodeCfgOut at h
  split at h
  · cases h
  · rename_i p hp
    split at h
    · cases h
      exact ⟨p, hp, ‹_›, rfl⟩
    · cases h

/-- Operand fields that decode in a row that matches the opcode byte are those of the operation's record. -/
theorem encode_of_decodeOperands {op : Byte} {i : Instr} : ∀ {k : Kind} {args : List Operand},
    opFits op k = true → decodeOperands k op args = .ok i → ⟨op, args⟩ = encode i
  | .cfgOut, args, hfit, h => by
    obtain ⟨p, hp, rfl, rfl⟩ := decodeCfgOut_ok h
    simp only [opFits, hp, Option.all_some, beq_iff_eq] at hfit
    rw [hfit, encode]
  | .construct, [.pin _, .pin _, .pin _, .int _], hfit, h | .render, [.text _, .nat _, .flag _, .nat _], hfit, h
  | .clear, [], hfit, h | .test, [], hfit, h | .sendByte, [.byte _], hfit, h | .setPort, [.byte _, .mask _], hfit, h
  | .dataWr, [], hfit, h | .clkLo, [], hfit, h | .clkHi, [], hfit, h | .latLo, [], hfit, h | .latHi, [], hfit, h
  | .encodeChar, [.char _], hfit, h | .dpOn, [.byte _], hfit, h | .onehot, [.nat _], hfit, h
  | .phys, [.nat _, .nat _], hfit, h | .buildBuffer, [.text _, .nat _, .nat _], hfit, h => by
    cases h
    exact congrArg (Record.mk · _) (eq_of_beq hfit)

/-- A record that decodes is the record of the operation it decodes to. -/
theorem encode_of_decode {r : Record} {i : Instr} (h : decode r = .ok i) : r = encode i := by
  unfold decode at h
  split at h
  · exact encode_of_decodeOperands (opFits_of_kindOf ‹_›) h
  · cases h

/-- Settles O1: the decoder gives back what was encoded, and a row that matches fixes every bit of the record. -/
theorem decodeIsTheInverseOfEncode : Obligations.DecodeIsTheInverseOfEncode :=
  fun _ _ => ⟨encode_of_decode, fun h => h ▸ decode_encode _⟩

/-- The opcode bytes of 30_encoding.md R82. -/
def assignedOpcodes : List Nat :=
  [0x01, 0x02, 0x03, 0x04, 0x10, 0x11, 0x20, 0x21, 0x22, 0x23, 0x24, 0x25, 0x28, 0x29, 0x2A,
    0x30, 0x31, 0x32, 0x33, 0x34]

/-- A row of the opcode table matches, and a configuration names one of the three pins. -/
def isAssigned (op : Byte) : Bool :=
  match kindOf op with
  | some .cfgOut => (pinOfBits (op.extractLsb' 0 2)).isSome
  | k => k.isSome

/-- The opcode table assigns the bytes listed, as a check of the 256 bytes. -/
theorem isAssigned_iff (op : Byte) : isAssigned op = true ↔ op.toNat ∈ assignedOpcodes := by
  have htable :
      ((List.range 256).all fun n => isAssigned (BitVec.ofNat 8 n) == decide (n ∈ assignedOpcodes)) = true := by
    decide +kernel
  have hop := List.all_eq_true.1 htable op.toNat (List.mem_range.2 op.isLt)
  rw [BitVec.ofNat_toNat, BitVec.setWidth_eq, beq_iff_eq] at hop
  rw [hop, decide_eq_true_iff]

/-- A record with an unassigned opcode byte (30_encoding.md R91). -/
theorem decode_unassigned {op : Byte} (h : isAssigned op = false) (args : List Operand) :
    decode ⟨op, args⟩ = .error (.unassigned op) := by
  cases hk : kindOf op with
  | none => simp only [decode, hk]
  | some k =>
    cases k
    case cfgOut =>
      simp only [isAssigned, hk, Option.isSome_eq_false_iff, Option.isNone_iff_eq_none] at h
      simp only [decode, hk]
      show decodeCfgOut op args = _
      rw [decodeCfgOut, h]
    all_goals simp [isAssigned, hk] at h

/-- A record with an assigned opcode byte decodes, or its operand fields are not those of its format
(30_encoding.md R81). -/
theorem decode_assigned {op : Byte} (h : isAssigned op = true) (args : List Operand) :
    (∃ i, decode ⟨op, args⟩ = .ok i) ∨ decode ⟨op, args⟩ = .error (.operandShape op) := by
  cases hk : kindOf op with
  | none => simp [isAssigned, hk] at h
  | some k =>
    simp only [decode, hk]
    by_cases hcfg : k = .cfgOut
    · subst hcfg
      simp only [isAssigned, hk] at h
      obtain ⟨p, hp⟩ := Option.isSome_iff_exists.1 h
      show (∃ i, decodeCfgOut op args = .ok i) ∨ decodeCfgOut op args = _
      by_cases hargs : args = []
      · exact .inl ⟨.cfgOut p, by rw [decodeCfgOut, hp]; exact if_pos hargs⟩
      · exact .inr (by rw [decodeCfgOut, hp]; exact if_neg hargs)
    · exact decodeOperands_total hcfg op args

/-- A record that is no operation's, with an assigned opcode byte, has the wrong operand fields. -/
theorem decode_operandShape {op : Byte} {args : List Operand} (h : isAssigned op = true)
    (hne : ∀ i, encode i ≠ ⟨op, args⟩) : decode ⟨op, args⟩ = .error (.operandShape op) := by
  obtain ⟨i, hi⟩ | herr := decode_assigned h args
  · exact absurd (encode_of_decode hi).symm (hne i)
  · exact herr

/-- The decoder on the record of an operation given by its opcode byte and operand fields. -/
theorem decode_of_encode {r : Record} {i : Instr} (h : encode i = r) : decode r = .ok i := h ▸ decode_encode i

/-- Settles O2: each of the eight records is the record `encode` writes. -/
theorem specWordsDecodeToTheirOperations : Obligations.SpecWordsDecodeToTheirOperations :=
  ⟨decode_of_encode rfl, decode_of_encode rfl, decode_of_encode rfl, decode_of_encode rfl, decode_of_encode rfl,
    decode_of_encode rfl, decode_of_encode rfl, decode_of_encode rfl⟩

end Sys2Proof
end

section
/-! PROOF. The step of an idle block: the next request is decoded, checked and performed, or nothing happens
(spec/30_encoding.md R80, R91; 60_exceptions.md R242, R251). -/

namespace Sys2Proof.Machine

/-- An idle block with nothing to do (60_exceptions.md R251). -/
theorem step_idle_nil {s : State} (hi : s.seqpos = .idle) (hp : s.pending = []) : step s = .next s := by
  rw [step, hi]
  simp only [hp]

/-- An idle block takes the next request and issues it. -/
theorem step_idle_cons {s : State} {r : Request} {rest : List Request} (hi : s.seqpos = .idle)
    (hp : s.pending = r :: rest) : step s = issue exec r { s with pending := rest } := by
  rw [step, hi]
  simp only [hp]

/-- A record that is no operation is refused (30_encoding.md R91). -/
theorem issue_error {r : Request} {e : DecodeError} (h : decode r.record = .error e) (s : State) :
    issue exec r s = .refused (refusalOfError e) := by
  rw [issue, h]

/-- An operation its issuer may issue is performed (30_encoding.md R80). -/
theorem issue_ok {r : Request} {i : Instr} (h : decode r.record = .ok i) (hmay : mayIssue r.issuer i = true)
    (s : State) : issue exec r s = exec i s := by
  rw [issue, h]
  exact if_pos hmay

/-- An operation its issuer may not issue is refused (30_encoding.md R91). -/
theorem issue_wrongIssuer {r : Request} {i : Instr} (h : decode r.record = .ok i) (hmay : mayIssue r.issuer i = false)
    (s : State) : issue exec r s = .refused (refusalOfIssuer r.issuer) := by
  rw [issue, h]
  exact if_neg (by rw [hmay]; decide)

/-- A request that goes on is an operation performed. -/
theorem issue_next {r : Request} {s t : State} (h : issue exec r s = .next t) : ∃ i, exec i s = .next t := by
  unfold issue at h
  split at h
  · cases h
  · split at h
    · exact ⟨_, h⟩
    · cases h

theorem mayIssue_host {i : Instr} : mayIssue .host i = true ↔ i.level = 3 := beq_iff_eq

theorem mayIssue_controller {i : Instr} : mayIssue .controller i = true ↔ i.level < 3 := decide_eq_true_iff

/-- Settles O3: the opcode byte decides whether the record is unassigned or has the wrong operand fields. -/
theorem unassignedOpcodesAreRefused : Obligations.UnassignedOpcodesAreRefused := by
  intro op args who rest s hi hp
  have hstep (e : DecodeError) (he : decode ⟨op, args⟩ = .error e) : step s = .refused (refusalOfError e) := by
    rw [step_idle_cons hi hp, issue_error he]
  constructor
  · intro hop
    have hdec := decode_unassigned (Bool.eq_false_iff.2 (mt (isAssigned_iff op).1 hop)) args
    exact ⟨hdec, hstep _ hdec⟩
  · intro hop hne
    have hdec := decode_operandShape ((isAssigned_iff op).2 hop) hne
    exact ⟨hdec, hstep _ hdec⟩

/-- Settles O9: the request is taken, decoded, permitted and performed. -/
theorem stepPerformsTheDecodedOperation : Obligations.StepPerformsTheDecodedOperation := by
  intro s who r rest i hi hp hdec hlevel
  have hmay : mayIssue who i = true := by
    obtain ⟨rfl, h3⟩ | ⟨rfl, hlt⟩ := hlevel
    · exact mayIssue_host.2 h3
    · exact mayIssue_controller.2 hlt
  rw [step_idle_cons hi hp, issue_ok hdec hmay]

/-- Settles O10: each issuer is refused the levels of the other. -/
theorem operationsOfTheWrongIssuerAreRefused : Obligations.OperationsOfTheWrongIssuerAreRefused := by
  intro s r rest i hi hdec
  constructor
  · intro hp hlt
    rw [step_idle_cons hi hp, issue_wrongIssuer hdec (Bool.eq_false_iff.2 (mt mayIssue_host.1 (by omega)))]
    rfl
  · intro hp h3
    rw [step_idle_cons hi hp, issue_wrongIssuer hdec (Bool.eq_false_iff.2 (mt mayIssue_controller.1 (by omega)))]
    rfl

/-- Settles O11: an idle block with no request. -/
theorem idleBlockKeepsEverything : Obligations.IdleBlockKeepsEverything := fun _ => step_idle_nil

end Sys2Proof.Machine
end

section
/-! PROOF. Rules of the pin write: what it leaves of the configuration, the lines and the load, and where SEQPOS goes
(spec/40_construct_and_pins.md R111; 10_state.md R31; 20_memory.md R57). -/

namespace Sys2Proof.Machine

theorem KeepsConfiguration.refl (s : State) : KeepsConfiguration s s := ⟨rfl, rfl, rfl, rfl, rfl, rfl, rfl, rfl⟩

theorem KeepsConfiguration.trans {s t u : State} (h : KeepsConfiguration s t) (h' : KeepsConfiguration t u) :
    KeepsConfiguration s u where
  constructed := h'.constructed.trans h.constructed
  dataPin := h'.dataPin.trans h.dataPin
  clockPin := h'.clockPin.trans h.clockPin
  latchPin := h'.latchPin.trans h.latchPin
  numDisplays := h'.numDisplays.trans h.numDisplays
  enc := h'.enc.trans h.enc
  scripts := h'.scripts.trans h.scripts
  pending := h'.pending.trans h.pending

theorem KeepsPosition.refl (s : State) : KeepsPosition s s := ⟨rfl, rfl, rfl⟩

theorem KeepsLines.refl (s : State) : KeepsLines s s := ⟨rfl, rfl, rfl, rfl, rfl, rfl⟩

theorem SameControl.keepsConfiguration {s t : State} (h : SameControl s t) : KeepsConfiguration s t :=
  ⟨h.constructed, h.dataPin, h.clockPin, h.latchPin, h.numDisplays, h.enc, h.scripts, h.pending⟩

theorem SameControl.keepsPosition {s t : State} (h : SameControl s t) : KeepsPosition s t :=
  ⟨h.seqpos, h.render, h.result⟩

@[simp] theorem State.advance_level (s : State) (p : Pin) : s.advance.level p = s.level p := by
  cases p <;> simp

theorem State.advance_keeps (s : State) : KeepsConfiguration s s.advance := by constructor <;> simp

/-- The other lines carry what they carried. -/
theorem State.drive_level_eq (s : State) (p q : Pin) (l : Bool) :
    (s.drive p l).level q = if q = p then .ofBool l else s.level q := by
  by_cases hq : q = p
  · rw [if_pos hq, hq, State.drive_level]
  · rw [if_neg hq, State.drive_level_ne s l hq]

/-- Only the latch moves OUT (20_memory.md R56). -/
theorem State.drive_out {p : Pin} {l : Bool} (h : (⟨p, l⟩ : PinEvent) ≠ ⟨.latch, true⟩) (s : State) :
    (s.drive p l).out = s.out := by
  cases p <;> cases l
  case latch.true => exact absurd rfl h
  case clock.true =>
    rw [State.drive, State.raiseLine]
    split <;> simp
  all_goals rfl

/-- A write of 1 to the latch leaves OUT or commits the whole of SR (60_exceptions.md R246). -/
theorem State.drive_latch_out (s : State) :
    (s.drive .latch true).out = s.out ∨ (s.drive .latch true).out = s.sr := by
  rw [State.drive, State.raiseLine]
  split
  · exact .inr rfl
  · exact .inl rfl

/-- Only the clock shifts the chain (60_exceptions.md R245). -/
theorem State.drive_sr {p : Pin} (h : p ≠ .clock) (l : Bool) (s : State) : (s.drive p l).sr = s.sr := by
  cases p <;> cases l
  case clock.false | clock.true => exact absurd rfl h
  case latch.true =>
    rw [State.drive, State.raiseLine]
    split <;> rfl
  all_goals rfl

theorem State.pinWrite_keeps (s : State) (p : Pin) (l : Bool) : KeepsConfiguration s (s.pinWrite p l) :=
  (s.drive_sameControl p l).keepsConfiguration.trans (s.drive p l).advance_keeps

@[simp] theorem State.pinWrite_trace (s : State) (p : Pin) (l : Bool) :
    (s.pinWrite p l).trace = s.trace ++ [⟨p, l⟩] := by
  rw [State.pinWrite, State.advance_trace, State.drive_trace]

theorem State.pinWrite_level (s : State) (p q : Pin) (l : Bool) :
    (s.pinWrite p l).level q = if q = p then .ofBool l else s.level q := by
  rw [State.pinWrite, State.advance_level, State.drive_level_eq]

theorem State.pinWrite_sr {p : Pin} (h : p ≠ .clock) (l : Bool) (s : State) : (s.pinWrite p l).sr = s.sr := by
  rw [State.pinWrite, State.advance_sr, State.drive_sr h]

theorem State.pinWrite_out {p : Pin} {l : Bool} (h : (⟨p, l⟩ : PinEvent) ≠ ⟨.latch, true⟩) (s : State) :
    (s.pinWrite p l).out = s.out := by
  rw [State.pinWrite, State.advance_out, State.drive_out h]

theorem State.pinWrite_latch_out (s : State) :
    (s.pinWrite .latch true).out = s.out ∨ (s.pinWrite .latch true).out = s.sr := by
  rw [State.pinWrite, State.advance_out]
  exact s.drive_latch_out

/-- Outside an operation a pin write leaves SEQPOS and the outcome alone (log 28). -/
theorem State.pinWrite_keepsPosition {s : State} (hi : s.seqpos = .idle) (p : Pin) (l : Bool) :
    KeepsPosition s (s.pinWrite p l) := by
  have hsame := s.drive_sameControl p l
  rw [State.pinWrite, State.advance_idle (hsame.seqpos.trans hi)]
  exact hsame.keepsPosition

/-- Settles O22: each operation is the pin write of its event. -/
theorem pinWritesCompleteAndAreRecorded : Obligations.PinWritesCompleteAndAreRecorded := by
  intro s e
  refine ⟨e.toInstr, s.pinWrite e.pin e.level, rfl, exec_toInstr e s, s.pinWrite_trace _ _, s.pinWrite_keeps _ _,
    fun p => s.pinWrite_level _ p _, fun hp => State.pinWrite_sr hp _ s, fun hp => State.pinWrite_out ?_ s,
    fun hi => State.pinWrite_keepsPosition hi _ _⟩
  exact fun h => hp (congrArg PinEvent.pin h)

/-- Each of the six pin micro-operations is some pin write. -/
theorem exec_pinWrite {i : Instr} (hi : i ∈ [.dataWr false, .dataWr true, .clkLo, .clkHi, .latLo, .latHi]) (s : State) :
    ∃ e : PinEvent, exec i s = .next (s.pinWrite e.pin e.level) := by
  simp only [List.mem_cons, List.not_mem_nil, or_false] at hi
  obtain rfl | rfl | rfl | rfl | rfl | rfl := hi
  exacts [⟨⟨.data, false⟩, rfl⟩, ⟨⟨.data, true⟩, rfl⟩, ⟨⟨.clock, false⟩, rfl⟩, ⟨⟨.clock, true⟩, rfl⟩,
    ⟨⟨.latch, false⟩, rfl⟩, ⟨⟨.latch, true⟩, rfl⟩]

/-- Below step 49 of a refresh SEQPOS goes to the next step (10_state.md R31). -/
theorem State.advance_refresh_step {s : State} {pass digit k : Nat} (h : s.seqpos = .refresh pass digit k)
    (hk : k < 49) : s.advance = s.goto (.refresh pass digit (k + 1)) := by
  rw [State.advance, h]
  exact if_pos hk

/-- At step 49 of a refresh SEQPOS leaves the transaction (10_state.md R31). -/
theorem State.advance_refresh_last {s : State} {pass digit : Nat} {r : RenderRegs}
    (h : s.seqpos = .refresh pass digit 49) (hr : s.render = some r) : s.advance = s.nextInRefresh r pass digit := by
  simp only [State.advance, h, lt_irrefl, if_false, hr]

/-- Below step 49 of a clear SEQPOS goes to the next step (10_state.md R31). -/
theorem State.advance_clearing_step {s : State} {digit k : Nat} (h : s.seqpos = .clearing digit k) (hk : k < 49) :
    s.advance = s.goto (.clearing digit (k + 1)) := by
  rw [State.advance, h]
  exact if_pos hk

/-- At step 49 of a clear SEQPOS goes to the next digit, or the operation ends (10_state.md R31). -/
theorem State.advance_clearing_last {s : State} {digit : Nat} (h : s.seqpos = .clearing digit 49) : s.advance =
    if digit + 1 < s.numDisplays then s.goto (.clearing (digit + 1) 0) else s.finish := by
  simp only [State.advance, h, lt_irrefl, if_false]
  rfl

/-- Where SEQPOS stands after the last write of a refresh transaction, and that an end is an end. -/
theorem State.nextInRefresh_position (s : State) (r : RenderRegs) (pass digit : Nat) :
    (s.nextInRefresh r pass digit).seqpos = (if digit + 1 < r.buf.length then .refresh pass (digit + 1) 0
      else if pass + 1 < r.redrawCount then .refresh (pass + 1) 0 0
      else if r.clearAfter then .clearing 0 0 else .idle) ∧
    ((s.nextInRefresh r pass digit).seqpos = .idle →
      (s.nextInRefresh r pass digit).render = none ∧ (s.nextInRefresh r pass digit).result = .done) := by
  rw [State.nextInRefresh_eq]
  split
  · exact ⟨rfl, nofun⟩
  · split
    · exact ⟨rfl, nofun⟩
    · split
      · exact ⟨rfl, nofun⟩
      · exact ⟨rfl, fun _ => ⟨rfl, rfl⟩⟩

/-- Settles O23: driving the line keeps SEQPOS, and the advance goes where the table of R31 says. -/
theorem sequencerAdvancesAsTheTableSays : Obligations.SequencerAdvancesAsTheTableSays := by
  intro s t i hi hexec
  obtain ⟨e, he⟩ := exec_pinWrite hi s
  rw [he] at hexec
  cases hexec
  have hsame := s.drive_sameControl e.pin e.level
  simp only [State.pinWrite]
  refine ⟨fun h => ?_, fun pass digit k h hk => ?_, fun pass digit r h hr => ?_, fun digit k h hk => ?_,
    fun digit h => ?_⟩
  · rw [State.advance_idle (hsame.seqpos.trans h), hsame.seqpos, h]
  · rw [State.advance_refresh_step (hsame.seqpos.trans h) hk]
    exact ⟨rfl, hsame.render⟩
  · rw [State.advance_refresh_last (hsame.seqpos.trans h) (hsame.render.trans hr)]
    exact State.nextInRefresh_position _ r pass digit
  · rw [State.advance_clearing_step (hsame.seqpos.trans h) hk]
    exact ⟨rfl, hsame.render⟩
  · rw [State.advance_clearing_last (hsame.seqpos.trans h), hsame.numDisplays]
    split
    · exact ⟨rfl, nofun⟩
    · exact ⟨rfl, fun _ => ⟨rfl, rfl⟩⟩

end Sys2Proof.Machine
end

section
/-! PROOF. The pin micro-operations the load reacts to: CLK_HI and LAT_HI, with a level known or drawn; and CFG_OUT
(spec/40_construct_and_pins.md R110, R111, R114, R116). -/

namespace Sys2Proof.Machine

/-- The chain shifted left with a bit below it (60_exceptions.md R245). -/
theorem concat_extract_eq (x : BitVec 16) (b : Bool) :
    (x.extractLsb' 0 15).concat b = (x <<< 1) ||| (BitVec.ofBool b).setWidth 16 := by
  apply BitVec.eq_of_getLsbD_eq
  intro i hi
  cases i with
  | zero => simp
  | succ i =>
    have hlow : i < 15 := Nat.lt_of_succ_lt_succ hi
    have hchain : i + 1 < 16 := hi
    rw [BitVec.getLsbD_concat_succ, BitVec.getLsbD_extractLsb', BitVec.getLsbD_or, BitVec.getLsbD_shiftLeft]
    simp [hlow, hchain]

theorem Level.unspecified_settled? {v : Level} (h : v.unspecified) : v.settled? = none := by
  obtain rfl | rfl := h <;> rfl

/-- A line never written carries the level drawn (log 6). -/
theorem State.onLine_of_unspecified {s : State} {p : Pin} (h : (s.level p).unspecified) :
    s.onLine p = Config.freeLevel p s.draws := by
  rw [State.onLine, Level.unspecified_settled? h, Option.getD_none]

/-- Reading a line never written takes one draw (log 6). -/
theorem State.drawsOf_of_unspecified {s : State} {p : Pin} (h : (s.level p).unspecified) : s.drawsOf p = 1 := by
  rw [State.drawsOf, Level.unspecified_settled? h]
  rfl

/-- A write of 1 to a clock line that carries 1 is no edge (40_construct_and_pins.md R111). -/
theorem State.drive_clock_noEdge {s : State} (h : s.onLine .clock = true) : s.drive .clock true =
    { s with clk := .high, trace := s.trace ++ [⟨.clock, true⟩], draws := s.draws + s.drawsOf .clock } := by
  rw [State.drive, State.raiseLine, h]
  rfl

/-- A write of 1 to a clock line that carries 0 shifts the chain (40_construct_and_pins.md R111). -/
theorem State.drive_clock_edge {s : State} (h : s.onLine .clock = false) : s.drive .clock true = State.loadShift
    { s with clk := .high, trace := s.trace ++ [⟨.clock, true⟩], draws := s.draws + s.drawsOf .clock } := by
  rw [State.drive, State.raiseLine, h]
  rfl

/-- A write of 1 to the latch: an edge exactly when the line carried 0. -/
theorem State.drive_latch_high (s : State) : s.drive .latch true =
    { s with lat := .high, trace := s.trace ++ [⟨.latch, true⟩], draws := s.draws + s.drawsOf .latch,
             out := if s.onLine .latch then s.out else s.sr } := by
  rw [State.drive, State.raiseLine, risingEdge_true]
  cases s.onLine .latch <;> rfl

/-- LOAD_SHIFT with a written DATA (60_exceptions.md R245). -/
theorem State.loadShift_of_settled {s : State} {b : Bool} (h : s.data.settled? = some b) :
    s.loadShift = { s with sr := (s.sr <<< 1) ||| (BitVec.ofBool b).setWidth 16 } := by
  rw [State.loadShift, concat_extract_eq, State.onLine_of_settled (p := .data) h,
    State.drawsOf_of_settled (p := .data) h]
  rfl

/-- LOAD_SHIFT with DATA never written takes a draw for the bit (log 6). -/
theorem State.loadShift_of_unspecified {s : State} (h : s.data.unspecified) : s.loadShift =
    { s with sr := (s.sr <<< 1) ||| (BitVec.ofBool (Config.freeLevel .data s.draws)).setWidth 16,
             draws := s.draws + 1 } := by
  rw [State.loadShift, concat_extract_eq, State.onLine_of_unspecified (p := .data) h,
    State.drawsOf_of_unspecified (p := .data) h]

/-- A rising clock edge with a written DATA, whatever level the clock was found at. -/
theorem State.drive_clock_edge_settled {s : State} {b : Bool} (hc : s.onLine .clock = false)
    (hd : s.data.settled? = some b) : s.drive .clock true =
      { s with clk := .high, trace := s.trace ++ [⟨.clock, true⟩], draws := s.draws + s.drawsOf .clock,
               sr := (s.sr <<< 1) ||| (BitVec.ofBool b).setWidth 16 } :=
  (State.drive_clock_edge hc).trans (State.loadShift_of_settled hd)

/-- A rising clock edge with DATA never written: the bit shifted in is a draw. -/
theorem State.drive_clock_edge_unspecified {s : State} (hc : s.onLine .clock = false) (hd : s.data.unspecified) :
    s.drive .clock true =
      { s with clk := .high, trace := s.trace ++ [⟨.clock, true⟩], draws := s.draws + s.drawsOf .clock + 1,
               sr := (s.sr <<< 1) |||
                 (BitVec.ofBool (Config.freeLevel .data (s.draws + s.drawsOf .clock))).setWidth 16 } :=
  (State.drive_clock_edge hc).trans (State.loadShift_of_unspecified hd)

/-- CLK_HI is the pin write of 1 to the clock. -/
theorem exec_clkHi (s : State) : exec .clkHi s = .next (s.drive .clock true).advance :=
  exec_toInstr_drive ⟨.clock, true⟩ s

/-- LAT_HI is the pin write of 1 to the latch. -/
theorem exec_latHi (s : State) : exec .latHi s = .next (s.drive .latch true).advance :=
  exec_toInstr_drive ⟨.latch, true⟩ s

/-- CFG_OUT sets the level of its line (40_construct_and_pins.md R110). -/
theorem exec_cfgOut (p : Pin) (s : State) : exec (.cfgOut p) s = .next (s.setLevel p .unsettled) := rfl

/-- Settles O21: `setLevel` writes the one line. -/
theorem configuredPinIsUnsettled : Obligations.ConfiguredPinIsUnsettled :=
  fun s => ⟨exec_cfgOut .data s, exec_cfgOut .clock s, exec_cfgOut .latch s⟩

/-- Settles O18: a rising clock edge with a written DATA. -/
theorem clockHighShiftsTheDataLevelIn : Obligations.ClockHighShiftsTheDataLevelIn := by
  intro b s hc hd
  have hset : s.data.settled? = some b := hd ▸ Level.settled?_ofBool b
  rw [exec_clkHi, State.drive_clock_rise hc hset, concat_extract_eq]

/-- Settles O19: a rising latch edge. -/
theorem latchHighCommitsTheChain : Obligations.LatchHighCommitsTheChain := by
  intro s hl
  rw [exec_latHi, State.drive_latch_rise hl]

/-- Settles O20: the line carries the level written or the level drawn, and the edge is decided by that. -/
theorem highWritesWithoutAKnownEdge : Obligations.HighWritesWithoutAKnownEdge := by
  intro s
  refine ⟨fun hc => ?_, fun hl => ?_, fun b hc hd => ?_, fun hl => ?_, fun hc hd => ?_, fun hc hd => ?_⟩
  · rw [exec_clkHi, State.drive_clock_stay hc, ← hc]
  · rw [exec_latHi, State.drive_latch_stay hl, ← hl]
  · have hset : s.data.settled? = some b := hd ▸ Level.settled?_ofBool b
    rw [exec_clkHi]
    cases hfree : Config.freeLevel .clock s.draws
    · rw [State.drive_clock_edge_settled ((State.onLine_of_unspecified (p := .clock) hc).trans hfree) hset,
        State.drawsOf_of_unspecified (p := .clock) hc]
      rfl
    · rw [State.drive_clock_noEdge ((State.onLine_of_unspecified (p := .clock) hc).trans hfree),
        State.drawsOf_of_unspecified (p := .clock) hc]
      rfl
  · rw [exec_latHi, State.drive_latch_high, State.onLine_of_unspecified (p := .latch) hl,
      State.drawsOf_of_unspecified (p := .latch) hl]
  · have hset : s.clk.settled? = some false := hc ▸ rfl
    rw [exec_clkHi, State.drive_clock_edge_unspecified (State.onLine_of_settled (p := .clock) hset) hd,
      State.drawsOf_of_settled (p := .clock) hset]
    rfl
  · rw [exec_clkHi]
    cases hfree : Config.freeLevel .clock s.draws
    · rw [State.drive_clock_edge_unspecified ((State.onLine_of_unspecified (p := .clock) hc).trans hfree) hd,
        State.drawsOf_of_unspecified (p := .clock) hc]
      rfl
    · rw [State.drive_clock_noEdge ((State.onLine_of_unspecified (p := .clock) hc).trans hfree),
        State.drawsOf_of_unspecified (p := .clock) hc]
      rfl

end Sys2Proof.Machine
end

section
/-! PROOF. CONSTRUCT, the state after reset, and what a host operation on an idle block is refused for
(spec/40_construct_and_pins.md R117 to R119; 10_state.md R23, R36; 60_exceptions.md R233, R238). -/

namespace Sys2Proof.Machine

theorem legalDigits_iff {n : Int} : legalDigits n = true ↔ 1 ≤ n ∧ n ≤ 8 := decide_eq_true_iff

/-- A second CONSTRUCT (10_state.md R23). -/
theorem execConstruct_constructed {s : State} (hi : s.seqpos = .idle) (hc : s.constructed = true) (d c l : PinId)
    (n : Int) : execConstruct d c l n s = .refused .alreadyConstructed := by
  rw [execConstruct, if_neg (not_not_intro hi), if_pos hc]

/-- CONSTRUCT with an illegal digit count (60_exceptions.md R233). -/
theorem execConstruct_illegal {s : State} (hi : s.seqpos = .idle) (hc : s.constructed = false) {n : Int}
    (hn : legalDigits n = false) (d c l : PinId) :
    execConstruct d c l n s = .next (s.raise (.invalidConfiguration n)) := by
  rw [execConstruct, if_neg (not_not_intro hi), if_neg (by rw [hc]; decide), if_pos hn]

/-- CONSTRUCT with pins that are not pairwise distinct (40_construct_and_pins.md R119). -/
theorem execConstruct_notDistinct {s : State} (hi : s.seqpos = .idle) (hc : s.constructed = false) {n : Int}
    (hn : legalDigits n = true) {d c l : PinId} (hd : ¬pairwiseDistinct d c l) :
    execConstruct d c l n s = .refused .pinsNotDistinct := by
  rw [execConstruct, if_neg (not_not_intro hi), if_neg (by rw [hc]; decide), if_neg (by rw [hn]; decide), if_neg hd]

/-- CONSTRUCT that succeeds (40_construct_and_pins.md R117). -/
theorem execConstruct_ok {s : State} (hi : s.seqpos = .idle) (hc : s.constructed = false) {n : Int}
    (hn : legalDigits n = true) {d c l : PinId} (hd : pairwiseDistinct d c l) :
    execConstruct d c l n s = .next (s.constructWith d c l n.toNat).finish := by
  rw [execConstruct, if_neg (not_not_intro hi), if_neg (by rw [hc]; decide), if_neg (by rw [hn]; decide), if_pos hd]

/-- The registers of a successful CONSTRUCT on an idle block (40_construct_and_pins.md R117). -/
theorem State.constructWith_finish {s : State} (hi : s.seqpos = .idle) (d c l : PinId) (n : Nat) :
    (s.constructWith d c l n).finish =
      { s with constructed := true, dataPin := d, clockPin := c, latchPin := l, numDisplays := n,
               data := .unsettled, clk := .unsettled, lat := .unsettled, render := none, result := .done } := by
  rw [hi]
  rfl

/-- An error raised on an idle block changes the outcome only (60_exceptions.md R238). -/
theorem State.raise_idle {s : State} (hi : s.seqpos = .idle) (hr : s.render = none) (e : Error) :
    s.raise e = { s with result := .raised e } := by
  rw [State.raise, ← hi, ← hr]

/-- Settles O24: `constructWith` and the end of the operation write the registers of R117. -/
theorem constructStoresTheConfiguration : Obligations.ConstructStoresTheConfiguration := by
  intro d c l n s hi hc h1 h8 hdc hdl hcl
  have hn : legalDigits n = true := legalDigits_iff.2 (by omega)
  show execConstruct d c l n s = _
  rw [execConstruct_ok hi hc hn ⟨hdc, hdl, hcl⟩, Int.toNat_natCast, State.constructWith_finish hi]

/-- Settles O25: the digit count is checked before the pins, and the error is raised on an idle block. -/
theorem illegalDigitCountRaises : Obligations.IllegalDigitCountRaises := by
  intro d c l n s hi hc hr hn
  have hillegal : legalDigits n = false := Bool.eq_false_iff.2 (mt legalDigits_iff.1 (by omega))
  show execConstruct d c l n s = _
  rw [execConstruct_illegal hi hc hillegal, State.raise_idle hi hr]

/-- Settles O5: the fields of `State.reset`, and CONSTRUCT from there. -/
theorem resetAndConstructedValues : Obligations.ResetAndConstructedValues := by
  refine ⟨⟨rfl, rfl, rfl, rfl, rfl, rfl, rfl, rfl, rfl, rfl, rfl, rfl, rfl, rfl⟩, ?_⟩
  intro d c l n h1 h8 hdc hdl hcl
  exact ⟨_, execConstruct_ok rfl rfl (legalDigits_iff.2 ⟨h1, h8⟩) ⟨hdc, hdl, hcl⟩, rfl, rfl, rfl, rfl,
    Int.toNat_of_nonneg (by omega), rfl, rfl, rfl, rfl, rfl, rfl, rfl, rfl, rfl⟩

/-- Settles O6: the table of reset meets its constraints, and only scripts of the outline are kept. -/
theorem resetMeetsTheInvariant : Obligations.ResetMeetsTheInvariant where
  config h := nomatch h
  enc := encTable_ok
  scripts _ he := (List.mem_filter.1 he).2
  position := rfl

/-- RENDER whose build raises, on an idle block without operation-lifetime registers. -/
theorem execRender_raises {s : State} {q : List Char} {rc st : Nat} {ca : Bool} {e : Error} (hi : s.seqpos = .idle)
    (hc : s.constructed = true) (hr : s.render = none) (h1 : 1 ≤ rc) (h : build s.enc q st s.numDisplays = .error e) :
    execRender q rc ca st s = .next { s with result := .raised e } := by
  rw [execRender_error hi hc (by omega) h, State.raise_idle hi hr]

/-- Settles O50: a build that raises comes before any pin write. -/
theorem failedRenderLeavesNoTrace : Obligations.FailedRenderLeavesNoTrace :=
  fun _ _ _ _ _ _ hi hc hr h1 hb => execRender_raises hi hc hr h1 hb

/-- A host operation but CONSTRUCT, before CONSTRUCT (10_state.md R23). -/
theorem State.whenReady_notConstructed {s : State} (hi : s.seqpos = .idle) (hc : s.constructed = false)
    (f : State → Answer) : s.whenReady f = .refused .notConstructed := by
  rw [State.whenReady, if_neg (not_not_intro hi), if_pos hc]

/-- A host operation but CONSTRUCT, while another is in progress (10_state.md R32). -/
theorem State.whenReady_notIdle {s : State} (hi : s.seqpos ≠ .idle) (f : State → Answer) :
    s.whenReady f = .refused .notIdle := by
  rw [State.whenReady, if_pos hi]

/-- RENDER with redraw count 0 (44_refresh_scheduler.md R192). -/
theorem execRender_zero {s : State} (hi : s.seqpos = .idle) (hc : s.constructed = true) (q : List Char) (ca : Bool)
    (st : Nat) : execRender q 0 ca st s = .refused .zeroRedrawCount := by
  rw [execRender, State.whenReady_eq hi hc, if_pos rfl]

/-- No script is instantiated where every one for `n` holds a frame the block never issues (log 5). -/
theorem scriptFor_eq_none {enc : Memory} {scripts : List (Nat × ScriptPhases)} {n : Nat}
    (h : ∀ e ∈ scripts, e.1 = n → ∃ op ∈ e.2.all, issuedOp enc n op = false) : scriptFor enc scripts n = none := by
  rw [scriptFor, Option.bind_eq_none_iff]
  intro e he
  have hn : e.1 = n := by simpa using List.find?_some he
  obtain ⟨op, hop, hissued⟩ := h e (List.mem_of_find?_eq_some he) hn
  refine if_neg fun hall => ?_
  rw [List.all_eq_true.1 hall op hop] at hissued
  cases hissued

/-- TEST while no script is instantiated (45_test.md R221). -/
theorem execTest_none {s : State} (hi : s.seqpos = .idle) (hc : s.constructed = true)
    (h : scriptFor s.enc s.scripts s.numDisplays = none) : execTest s = .refused .scriptUninstantiated := by
  rw [execTest, State.whenReady_eq hi hc, h]

/-- TEST performs the script instantiated for N (45_test.md R220). -/
theorem execTest_some {s : State} {ops : List ScriptOp} (hi : s.seqpos = .idle) (hc : s.constructed = true)
    (h : scriptFor s.enc s.scripts s.numDisplays = some ops) :
    execTest s = s.answerOf (scriptOutcome s.enc s.numDisplays ops) := by
  rw [execTest, State.whenReady_eq hi hc, h]
  exact State.runScript_eq ops s

/-- Settles O51: the checks of the host operations, in their order. -/
theorem hostOperationRefusals : Obligations.HostOperationRefusals := by
  intro q rc st ca d c l n s hi
  refine ⟨fun hc => execConstruct_constructed hi hc d c l n, fun hc h1 h8 hsame => ?_, fun hc => ?_, fun hc => ?_⟩
  · refine execConstruct_notDistinct hi hc (legalDigits_iff.2 ⟨h1, h8⟩) ?_
    rintro ⟨hdc, hdl, hcl⟩
    obtain h | h | h := hsame
    exacts [hdc h, hdl h, hcl h]
  · show execRender q rc ca st s = _ ∧ execClear s = _ ∧ execTest s = _
    exact ⟨State.whenReady_notConstructed hi hc _, State.whenReady_notConstructed hi hc _,
      State.whenReady_notConstructed hi hc _⟩
  · exact ⟨execRender_zero hi hc q ca st, fun h => execTest_none hi hc (scriptFor_eq_none h)⟩

/-- The mask of a position from 8 on has no bit in its low byte (43_digit_select.md R183). -/
theorem lowByte_selectMask {p : Nat} (hp : 8 ≤ p) : lowByte (selectMask p) = 0#8 := by
  apply BitVec.eq_of_getLsbD_eq
  intro k hk
  rw [lowByte_getLsbD _ hk, BitVec.getLsbD_zero]
  by_cases h32 : p < 32
  · rw [selectMask_getLsbD h32, decide_eq_false (by omega)]
  · rw [selectMask, if_neg h32, BitVec.getLsbD_append, if_pos hk, BitVec.getLsbD_zero]

/-- Settles O45: ONEHOT and PHYS hand their value over at every state. -/
theorem selectFunctionsAlwaysComplete : Obligations.SelectFunctionsAlwaysComplete :=
  ⟨fun p s => ⟨selectMask p, exec_onehot p s, fun hp => (setWidth_eq_lowByte _).trans (lowByte_selectMask hp)⟩,
    fun n i s => ⟨position n i, exec_phys n i s⟩⟩

end Sys2Proof.Machine
end

section
/-! PROOF. What an operation and a step leave unchanged, and that neither faults: the configuration registers, the
constant tables and the requests (spec/10_state.md R20, R23, R26, R32; 20_memory.md R56, R61). -/

namespace Sys2Proof.Machine

theorem State.setLevel_keeps (s : State) (p : Pin) (v : Level) : KeepsConfiguration s (s.setLevel p v) := by
  constructor <;> simp

theorem State.give_keeps (s : State) (r : Result) : KeepsConfiguration s (s.give r) := by constructor <;> rfl

theorem State.raise_keeps (s : State) (e : Error) : KeepsConfiguration s (s.raise e) := by constructor <;> rfl

theorem State.fillBuffer_keeps (s : State) (buf : List Byte) : KeepsConfiguration s (s.fillBuffer buf) := by
  constructor <;> rfl

theorem State.ended_keeps (s : State) (r : Result) : KeepsConfiguration s (s.ended r) := by constructor <;> rfl

theorem State.sent_ended_keeps (s : State) (fs : List Frame) (r : Result) :
    KeepsConfiguration s ((s.sent fs).ended r) := (s.sent_keeps fs).trans (State.ended_keeps _ r)

theorem State.writes_keeps (es : List PinEvent) (s : State) : KeepsConfiguration s (s.writes es) := by
  induction es generalizing s with
  | nil => exact .refl s
  | cons e es ih => exact (s.pinWrite_keeps e.pin e.level).trans (ih _)

/-- Where SEQPOS goes when a build succeeds (10_state.md R31). -/
theorem State.enterRefresh_eq (s : State) (buf : List Byte) (ca : Bool) : s.enterRefresh buf ca =
    if buf = [] then if ca then (s.fillBuffer buf).goto (.clearing 0 0) else (s.fillBuffer buf).finish
    else (s.fillBuffer buf).goto (.refresh 0 0 0) := rfl

theorem State.goto_keeps (s : State) (q : SeqPos) : KeepsConfiguration s (s.goto q) := by constructor <;> rfl

theorem State.finish_keeps (s : State) : KeepsConfiguration s s.finish := by constructor <;> rfl

theorem State.enterRefresh_keeps (s : State) (buf : List Byte) (ca : Bool) :
    KeepsConfiguration s (s.enterRefresh buf ca) := by
  refine (s.fillBuffer_keeps buf).trans ?_
  rw [State.enterRefresh_eq]
  split
  · split
    · exact State.goto_keeps _ _
    · exact State.finish_keeps _
  · exact State.goto_keeps _ _

/-- What an operation below level 3 does: pin writes, a pin configured, a value or a buffer handed over, or an error. -/
theorem exec_internal {i : Instr} {s t : State} (h3 : i.level ≠ 3) (h : exec i s = .next t) :
    (∃ es, t = s.writes es) ∨ (∃ p, t = s.setLevel p .unsettled) ∨ (∃ r, t = s.give r) ∨ (∃ e, t = s.raise e) ∨
      ∃ buf, t = (s.fillBuffer buf).give (.buffer buf) := by
  cases i with
  | construct | render | clear | test => exact absurd rfl h3
  | sendByte v => cases h; exact .inl ⟨byteEvents v, s.sendByte_writes v⟩
  | setPort a m =>
    rw [exec_setPort, Host.Outcome.next.injEq] at h
    exact .inl ⟨_, h.symm.trans (s.setPort_writes a m)⟩
  | dataWr b => cases h; exact .inl ⟨[⟨.data, b⟩], rfl⟩
  | clkLo => cases h; exact .inl ⟨[⟨.clock, false⟩], rfl⟩
  | clkHi => cases h; exact .inl ⟨[⟨.clock, true⟩], rfl⟩
  | latLo => cases h; exact .inl ⟨[⟨.latch, false⟩], rfl⟩
  | latHi => cases h; exact .inl ⟨[⟨.latch, true⟩], rfl⟩
  | cfgOut p => cases h; exact .inr (.inl ⟨p, rfl⟩)
  | encodeChar | dpOn | onehot | phys => cases h; exact .inr (.inr (.inl ⟨_, rfl⟩))
  | buildBuffer q st n =>
    rw [exec, execBuildBuffer] at h
    split at h <;> cases h
    · exact .inr (.inr (.inr (.inl ⟨_, rfl⟩)))
    · exact .inr (.inr (.inr (.inr ⟨_, rfl⟩)))

theorem exec_internal_keeps {i : Instr} {s t : State} (h3 : i.level ≠ 3) (h : exec i s = .next t) :
    KeepsConfiguration s t := by
  obtain ⟨es, rfl⟩ | ⟨p, rfl⟩ | ⟨r, rfl⟩ | ⟨e, rfl⟩ | ⟨buf, rfl⟩ := exec_internal h3 h
  · exact State.writes_keeps es s
  · exact s.setLevel_keeps p .unsettled
  · exact s.give_keeps r
  · exact s.raise_keeps e
  · exact (s.fillBuffer_keeps buf).trans (State.give_keeps _ _)

/-- A host operation that goes on has sent frames and ended, or it is CONSTRUCT. -/
theorem exec_host_cases {i : Instr} {s t : State} (h3 : i.level = 3) (h : exec i s = .next t) :
    (∃ fs r, hostOutcome s.enc s.numDisplays s.scripts i = some (fs, r) ∧ t = (s.sent fs).ended r) ∨
      ∃ d c l n, i = .construct d c l n := by
  by_cases hcon : ∀ d c l n, i ≠ .construct d c l n
  · obtain ⟨-, -, ⟨fs, r⟩, ho, ht⟩ := exec_host h3 hcon h
    exact .inl ⟨fs, r, ho, ht⟩
  · push Not at hcon
    exact .inr hcon

/-- Once constructed, no operation changes the configuration (10_state.md R23). -/
theorem exec_keeps {i : Instr} {s t : State} (hc : s.constructed = true) (h : exec i s = .next t) :
    KeepsConfiguration s t := by
  by_cases h3 : i.level = 3
  · obtain ⟨fs, r, -, rfl⟩ | ⟨d, c, l, n, rfl⟩ := exec_host_cases h3 h
    · exact s.sent_ended_keeps fs r
    · obtain ⟨-, hnc, -⟩ := exec_construct h
      cases hc.symm.trans hnc
  · exact exec_internal_keeps h3 h

/-- No step of an operation in progress changes the configuration or takes a request (10_state.md R32). -/
theorem step_busy_keeps {s t : State} (hi : s.seqpos ≠ .idle) (h : step s = .next t) : KeepsConfiguration s t := by
  obtain ⟨-, r, -, ⟨e, -, rfl⟩ | ⟨buf, -, rfl⟩⟩ | ⟨_, _, _, _, _, -, -, -, -, rfl⟩ | ⟨_, _, -, -, -, rfl⟩ :=
    step_busy hi h
  · exact s.raise_keeps e
  · exact s.enterRefresh_keeps buf r.clearAfter
  · exact s.pinWrite_keeps _ _
  · exact s.pinWrite_keeps _ _

/-- What a step of an idle block is: nothing, or an operation performed after a request has been taken. -/
theorem step_idle {s t : State} (hi : s.seqpos = .idle) (h : step s = .next t) :
    t = s ∨ ∃ i rest, exec i { s with pending := rest } = .next t := by
  cases hp : s.pending with
  | nil =>
    rw [step_idle_nil hi hp] at h
    cases h
    exact .inl rfl
  | cons r rest =>
    rw [step_idle_cons hi hp] at h
    obtain ⟨i, hexec⟩ := issue_next h
    exact .inr ⟨i, rest, hexec⟩

/-- Once constructed, no step changes the configuration registers or the constant tables. -/
theorem step_keepsConstructed {s t : State} (hc : s.constructed = true) (h : step s = .next t) :
    ∃ rest, KeepsConfiguration { s with pending := rest } t := by
  by_cases hi : s.seqpos = .idle
  · obtain rfl | ⟨i, rest, hexec⟩ := step_idle hi h
    · exact ⟨t.pending, .refl t⟩
    · exact ⟨rest, exec_keeps hc hexec⟩
  · exact ⟨s.pending, step_busy_keeps hi h⟩

/-- Settles O13: once constructed, every operation and every step keeps the configuration. -/
theorem configurationIsWrittenOnce : Obligations.ConfigurationIsWrittenOnce := by
  intro i s t hc h
  have hkeeps : ∃ rest, KeepsConfiguration { s with pending := rest } t := by
    obtain h | h := h
    · exact ⟨s.pending, exec_keeps hc h⟩
    · exact step_keepsConstructed hc h
  obtain ⟨rest, hk⟩ := hkeeps
  exact ⟨hk.constructed.trans hc, hk.dataPin, hk.clockPin, hk.latchPin, hk.numDisplays, hk.enc, hk.scripts⟩

/-- A host operation offered while another is in progress (10_state.md R32). -/
theorem exec_host_notIdle {i : Instr} {s : State} (h3 : i.level = 3) (hi : s.seqpos ≠ .idle) :
    exec i s = .refused .notIdle := by
  cases i with
  | construct d c l n =>
    show execConstruct d c l n s = _
    rw [execConstruct, if_pos hi]
  | render q rc ca st =>
    show execRender q rc ca st s = _
    exact State.whenReady_notIdle hi _
  | clear =>
    show execClear s = _
    exact State.whenReady_notIdle hi _
  | test =>
    show execTest s = _
    exact State.whenReady_notIdle hi _
  | _ => cases h3

/-- A host operation ends idle, without operation-lifetime registers (10_state.md R32). -/
theorem exec_host_ends {i : Instr} {s t : State} (h3 : i.level = 3) (h : exec i s = .next t) :
    t.seqpos = .idle ∧ t.render = none := by
  obtain ⟨fs, r, -, rfl⟩ | ⟨d, c, l, n, rfl⟩ := exec_host_cases h3 h
  · exact ⟨rfl, rfl⟩
  · obtain ⟨-, -, ⟨-, rfl⟩ | ⟨-, -, rfl⟩⟩ := exec_construct h <;> exact ⟨rfl, rfl⟩

/-- Settles O12: a busy step takes no request, and a host operation needs and leaves an idle block. -/
theorem operationsStartAndEndIdle : Obligations.OperationsStartAndEndIdle :=
  ⟨fun _ _ hi h => (step_busy_keeps hi h).pending, fun _ _ h3 hi => exec_host_notIdle h3 hi,
    fun _ _ _ h3 h => (exec_host_ends h3 h).1⟩

theorem State.answerOf_ne_fault (s : State) (o : Option (List Frame × Result)) (f : Fault) :
    s.answerOf o ≠ .fault f := by
  cases o <;> nofun

theorem State.whenReady_ne_fault {s : State} {g : State → Answer} {f : Fault} (h : g s ≠ .fault f) :
    s.whenReady g ≠ .fault f := by
  rw [State.whenReady]
  split
  · nofun
  · split
    · nofun
    · exact h

/-- No operation faults. -/
theorem exec_ne_fault (i : Instr) (s : State) (f : Fault) : exec i s ≠ .fault f := by
  cases i with
  | construct d c l n =>
    rw [exec, execConstruct]
    (repeat' split) <;> nofun
  | render q rc ca st =>
    rw [exec, execRender]
    refine State.whenReady_ne_fault ?_
    (repeat' split) <;> nofun
  | clear =>
    rw [exec, execClear]
    exact State.whenReady_ne_fault nofun
  | test =>
    rw [exec, execTest]
    refine State.whenReady_ne_fault ?_
    split
    · nofun
    · rw [State.runScript_eq]
      exact State.answerOf_ne_fault s _ f
  | buildBuffer q st n =>
    rw [exec, execBuildBuffer]
    split <;> nofun
  | _ => nofun

/-- No request faults. -/
theorem issue_ne_fault (r : Request) (s : State) (f : Fault) : issue exec r s ≠ .fault f := by
  rw [issue]
  split
  · nofun
  · split
    · exact exec_ne_fault _ s f
    · nofun

/-- The latch goes high at step 49 only (10_state.md R30). -/
theorem eventAt_eq_latchHigh {seg sel : Byte} {k : Nat} (hk : k < 50) (h : eventAt seg sel k = ⟨.latch, true⟩) :
    k = 49 := by
  unfold eventAt at h
  split at h
  · dsimp only at h
    split at h <;> cases h
  · have hne : (k != 48) = true := congrArg PinEvent.level h
    have : k ≠ 48 := by simpa using hne
    omega

/-- A pin write of a transaction moves OUT at step 49 only, to the whole of SR (20_memory.md R56). -/
theorem State.pinWrite_eventAt_out (s : State) (seg sel : Byte) {k : Nat} (hk : k < 50) :
    (s.pinWrite (eventAt seg sel k).pin (eventAt seg sel k).level).out = s.out ∨
      ((s.pinWrite (eventAt seg sel k).pin (eventAt seg sel k).level).out = s.sr ∧
        eventAt seg sel k = ⟨.latch, true⟩ ∧ k = 49) := by
  by_cases h : eventAt seg sel k = ⟨.latch, true⟩
  · have h49 := eventAt_eq_latchHigh hk h
    rw [h]
    exact s.pinWrite_latch_out.imp_right fun hout => ⟨hout, rfl, h49⟩
  · exact .inl (State.pinWrite_out h s)

/-- The end of the build writes no pin. -/
theorem State.enterRefresh_lines (s : State) (buf : List Byte) (ca : Bool) : KeepsLines s (s.enterRefresh buf ca) := by
  rw [State.enterRefresh_eq]
  (repeat' split) <;> constructor <;> rfl

/-- Settles O14: a busy step is the build, which writes no pin, or one pin write of a transaction. -/
theorem outChangesOnlyAtTheLatchWrite : Obligations.OutChangesOnlyAtTheLatchWrite := by
  intro s t hi h
  obtain ⟨-, r, -, ⟨e, -, rfl⟩ | ⟨buf, -, rfl⟩⟩ | ⟨pass, digit, k, r, seg, hs, -, -, hk, rfl⟩ |
    ⟨digit, k, hs, -, hk, rfl⟩ := step_busy hi h
  · exact ⟨.inl rfl, .inl rfl⟩
  · have hlines := s.enterRefresh_lines buf r.clearAfter
    exact ⟨.inl hlines.trace, .inl hlines.out⟩
  · refine ⟨.inr ⟨_, s.pinWrite_trace _ _⟩, ?_⟩
    refine (s.pinWrite_eventAt_out seg _ hk).imp_right ?_
    rintro ⟨hout, hev, rfl⟩
    rw [hev] at hout ⊢
    exact ⟨hout, s.pinWrite_trace _ _, .inl ⟨pass, digit, hs⟩⟩
  · refine ⟨.inr ⟨_, s.pinWrite_trace _ _⟩, ?_⟩
    refine (s.pinWrite_eventAt_out Config.blank _ hk).imp_right ?_
    rintro ⟨hout, hev, rfl⟩
    rw [hev] at hout ⊢
    exact ⟨hout, s.pinWrite_trace _ _, .inr ⟨digit, hs⟩⟩

end Sys2Proof.Machine
end

section
/-! PROOF. The invariant is kept by every step, and an operation in progress goes on
(spec/10_state.md R22, R27, R30; 40_construct_and_pins.md R119; 44_refresh_scheduler.md R198). -/

namespace Sys2Proof.Machine

/-- Every line is an output. -/
def State.AllDriven (s : State) : Prop := ∀ p, s.level p ≠ .undriven

theorem allDriven_iff {s : State} : s.AllDriven ↔ s.data ≠ .undriven ∧ s.clk ≠ .undriven ∧ s.lat ≠ .undriven := by
  constructor
  · exact fun h => ⟨h .data, h .clock, h .latch⟩
  · rintro ⟨hd, hc, hl⟩ p
    cases p
    exacts [hd, hc, hl]

theorem Level.ofBool_ne_undriven (b : Bool) : Level.ofBool b ≠ .undriven := by cases b <;> decide

theorem State.AllDriven.pinWrite {s : State} (h : s.AllDriven) (p : Pin) (l : Bool) : (s.pinWrite p l).AllDriven := by
  intro q
  rw [State.pinWrite_level]
  split
  · exact Level.ofBool_ne_undriven l
  · exact h q

theorem State.AllDriven.writes {s : State} (h : s.AllDriven) (es : List PinEvent) : (s.writes es).AllDriven := by
  induction es generalizing s with
  | nil => exact h
  | cons e es ih => exact ih (h.pinWrite e.pin e.level)

theorem State.AllDriven.configure {s : State} (h : s.AllDriven) (p : Pin) :
    (s.setLevel p .unsettled).AllDriven := by
  intro q
  rw [State.setLevel_level]
  split
  · nofun
  · exact h q

theorem State.AllDriven.sent {s : State} (h : s.AllDriven) (fs : List Frame) : (s.sent fs).AllDriven := by
  unfold State.sent
  split
  · exact h
  · exact allDriven_iff.2 ⟨Level.ofBool_ne_undriven _, nofun, nofun⟩

theorem State.AllDriven.of_lines {s t : State} (h : s.AllDriven) (ht : KeepsLines s t) : t.AllDriven := by
  rw [allDriven_iff, ht.data, ht.clk, ht.lat]
  exact allDriven_iff.1 h

/-- The configuration stays good where it is kept and the lines stay outputs. -/
theorem ConfigOk.of_keeps {s t : State} (h : ConfigOk s) (hk : KeepsConfiguration s t)
    (hlines : s.AllDriven → t.AllDriven) : ConfigOk t where
  some_digits := hk.numDisplays ▸ h.some_digits
  at_most_eight := hk.numDisplays ▸ h.at_most_eight
  distinct := by
    rw [hk.dataPin, hk.clockPin, hk.latchPin]
    exact h.distinct
  outputs := allDriven_iff.1 (hlines (allDriven_iff.2 h.outputs))

/-- The invariant stays where the configuration is kept, the lines stay outputs and SEQPOS is a position again. -/
theorem Inv.of_keeps {s t : State} (h : Inv s) (hk : KeepsConfiguration s t) (hlines : s.AllDriven → t.AllDriven)
    (hp : PositionOk t) : Inv t where
  config hc := (h.config (hk.constructed ▸ hc)).of_keeps hk hlines
  enc := hk.enc ▸ h.enc
  scripts := by
    rw [hk.scripts, hk.enc]
    exact h.scripts
  position := hp

theorem positionOk_idle {s : State} (h : s.seqpos = .idle) : PositionOk s ↔ s.render = none := by
  rw [PositionOk, h]

theorem positionOk_build {s : State} (h : s.seqpos = .build) :
    PositionOk s ↔ s.constructed = true ∧ ∃ r, s.render = some r ∧ r.buf = [] ∧ 1 ≤ r.redrawCount := by
  rw [PositionOk, h]

theorem positionOk_refresh {s : State} {pass digit k : Nat} (h : s.seqpos = .refresh pass digit k) :
    PositionOk s ↔ s.constructed = true ∧ LinesOk s k ∧
      ∃ r, s.render = some r ∧ r.buf.length ≤ s.numDisplays ∧ digit < r.buf.length ∧ pass < r.redrawCount := by
  rw [PositionOk, h]

theorem positionOk_clearing {s : State} {digit k : Nat} (h : s.seqpos = .clearing digit k) :
    PositionOk s ↔ s.constructed = true ∧ LinesOk s k ∧ digit < s.numDisplays ∧
      ∀ r, s.render = some r → r.buf.length ≤ s.numDisplays ∧ r.clearAfter = true := by
  rw [PositionOk, h]

/-- Nothing is asked of the lines at the start of a transaction. -/
theorem LinesOk.start (s : State) : LinesOk s 0 := ⟨by decide, nofun, nofun, nofun⟩

/-- The first step of a bit writes DATA (10_state.md R30). -/
theorem eventAt_data (seg sel : Byte) {k : Nat} (hk : k < 48) (h : k % 3 = 0) : (eventAt seg sel k).pin = .data := by
  rw [eventAt, if_pos hk]
  simp only [h]

/-- The second step of a bit writes CLK low (10_state.md R30). -/
theorem eventAt_clockLow (seg sel : Byte) {k : Nat} (hk : k < 48) (h : k % 3 = 1) :
    eventAt seg sel k = ⟨.clock, false⟩ := by
  rw [eventAt, if_pos hk]
  simp only [h]

/-- Step 48 writes LAT low (10_state.md R30). -/
theorem eventAt_latchLow (seg sel : Byte) : eventAt seg sel 48 = ⟨.latch, false⟩ := rfl

/-- The write of a step leaves the lines as the next step needs them (40_construct_and_pins.md R119 (c)). -/
theorem LinesOk.next {s t : State} {seg sel : Byte} {k : Nat} (h : LinesOk s k) (hk : k < 49)
    (ht : ∀ p, t.level p = if p = (eventAt seg sel k).pin then .ofBool (eventAt seg sel k).level else s.level p) :
    LinesOk t (k + 1) where
  in_range := by omega
  clk_low h48 h2 := by
    have hclk := ht .clock
    rwa [eventAt_clockLow seg sel (by omega) (by omega), if_pos rfl] at hclk
  data_written h48 h0 := by
    have hdata := ht .data
    obtain hm | hm : k % 3 = 0 ∨ k % 3 = 1 := by omega
    · rw [eventAt_data seg sel (by omega) hm, if_pos rfl, State.level_data] at hdata
      rw [hdata, Level.settled?_ofBool]
      rfl
    · rw [eventAt_clockLow seg sel (by omega) hm, if_neg nofun, State.level_data, State.level_data] at hdata
      rw [hdata]
      exact h.data_written (by omega) (by omega)
  lat_low h49 := by
    obtain rfl : k = 48 := by omega
    have hlat := ht .latch
    rwa [eventAt_latchLow, if_pos rfl] at hlat

/-- After the last write of a refresh transaction SEQPOS is a position again (10_state.md R31). -/
theorem State.nextInRefresh_positionOk {s : State} {r : RenderRegs} {pass digit : Nat} (hc : s.constructed = true)
    (hr : s.render = some r) (hn : 1 ≤ s.numDisplays) (hlen : r.buf.length ≤ s.numDisplays)
    (hd : digit < r.buf.length) (hp : pass < r.redrawCount) : PositionOk (s.nextInRefresh r pass digit) := by
  rw [State.nextInRefresh_eq]
  split
  · exact (positionOk_refresh rfl).2 ⟨hc, .start _, r, hr, hlen, ‹_›, hp⟩
  · split
    · exact (positionOk_refresh rfl).2 ⟨hc, .start _, r, hr, hlen, by omega, ‹_›⟩
    · split
      · refine (positionOk_clearing rfl).2 ⟨hc, .start _, hn, fun r' hr' => ?_⟩
        obtain rfl : r = r' := Option.some.inj (hr.symm.trans hr')
        exact ⟨hlen, ‹_›⟩
      · exact (positionOk_idle rfl).2 rfl

/-- The bytes built stand in BUF, which exists while a RENDER is in progress (10_state.md R27). -/
theorem State.fillBuffer_render_some {s : State} {r : RenderRegs} (hr : s.render = some r) (buf : List Byte) :
    (s.fillBuffer buf).render = some { r with buf := buf } := by
  rw [State.fillBuffer_render, hr, Option.map_some]

/-- The build's end: SEQPOS is a position of the refresh, of the clear, or IDLE (10_state.md R31). -/
theorem State.enterRefresh_positionOk {s : State} {r : RenderRegs} {buf : List Byte} (hc : s.constructed = true)
    (hr : s.render = some r) (hn : 1 ≤ s.numDisplays) (hlen : buf.length ≤ s.numDisplays) (h1 : 1 ≤ r.redrawCount) :
    PositionOk (s.enterRefresh buf r.clearAfter) := by
  have hfill := State.fillBuffer_render_some hr buf
  rw [State.enterRefresh_eq]
  split
  · split
    · refine (positionOk_clearing rfl).2 ⟨hc, .start _, hn, fun r' hr' => ?_⟩
      obtain rfl : { r with buf := buf } = r' := Option.some.inj (hfill.symm.trans hr')
      exact ⟨hlen, ‹_›⟩
    · exact (positionOk_idle rfl).2 rfl
  · exact (positionOk_refresh rfl).2 ⟨hc, .start _, _, hfill, hlen, List.length_pos_iff.2 ‹_›, h1⟩

/-- A pin write at SEQPOS of a refresh leaves a position of the operation (10_state.md R31). -/
theorem Inv.pinWrite_refresh {s : State} {pass digit k : Nat} (h : Inv s) (hs : s.seqpos = .refresh pass digit k)
    (seg sel : Byte) : PositionOk (s.pinWrite (eventAt seg sel k).pin (eventAt seg sel k).level) := by
  obtain ⟨hc, hlines, r, hr, hlen, hd, hp⟩ := (positionOk_refresh hs).1 h.position
  have hlevel := fun p => s.pinWrite_level (eventAt seg sel k).pin p (eventAt seg sel k).level
  have hsame := s.drive_sameControl (eventAt seg sel k).pin (eventAt seg sel k).level
  rw [State.pinWrite] at hlevel ⊢
  obtain hk | rfl : k < 49 ∨ k = 49 := by have := hlines.in_range; omega
  · rw [State.advance_refresh_step (hsame.seqpos.trans hs) hk] at hlevel ⊢
    exact (positionOk_refresh rfl).2 ⟨hsame.constructed.trans hc, hlines.next hk hlevel, r, hsame.render.trans hr,
      hlen.trans_eq hsame.numDisplays.symm, hd, hp⟩
  · rw [State.advance_refresh_last (hsame.seqpos.trans hs) (hsame.render.trans hr)]
    have hn := hsame.numDisplays.symm
    exact State.nextInRefresh_positionOk (hsame.constructed.trans hc) (hsame.render.trans hr)
      ((h.config hc).some_digits.trans_eq hn) (hlen.trans_eq hn) hd hp

/-- A pin write at SEQPOS of a clear leaves a position of the operation (10_state.md R31). -/
theorem Inv.pinWrite_clearing {s : State} {digit k : Nat} (h : Inv s) (hs : s.seqpos = .clearing digit k)
    (seg sel : Byte) : PositionOk (s.pinWrite (eventAt seg sel k).pin (eventAt seg sel k).level) := by
  obtain ⟨hc, hlines, hd, hr⟩ := (positionOk_clearing hs).1 h.position
  have hlevel := fun p => s.pinWrite_level (eventAt seg sel k).pin p (eventAt seg sel k).level
  have hsame := s.drive_sameControl (eventAt seg sel k).pin (eventAt seg sel k).level
  rw [← hsame.render, ← hsame.numDisplays] at hr
  rw [State.pinWrite] at hlevel ⊢
  obtain hk | rfl : k < 49 ∨ k = 49 := by have := hlines.in_range; omega
  · rw [State.advance_clearing_step (hsame.seqpos.trans hs) hk] at hlevel ⊢
    exact (positionOk_clearing rfl).2 ⟨hsame.constructed.trans hc, hlines.next hk hlevel,
      hd.trans_eq hsame.numDisplays.symm, hr⟩
  · rw [State.advance_clearing_last (hsame.seqpos.trans hs)]
    split
    · exact (positionOk_clearing rfl).2 ⟨hsame.constructed.trans hc, .start _, ‹_›, hr⟩
    · exact (positionOk_idle rfl).2 rfl

/-- A step of an operation in progress keeps the invariant. -/
theorem Inv.step_busy {s t : State} (h : Inv s) (hi : s.seqpos ≠ .idle) (hstep : step s = .next t) : Inv t := by
  have hk := step_busy_keeps hi hstep
  obtain ⟨hs, r, hr, ⟨e, -, rfl⟩ | ⟨buf, hb, rfl⟩⟩ | ⟨pass, digit, k, r, seg, hs, -, -, -, rfl⟩ |
    ⟨digit, k, hs, -, -, rfl⟩ := Machine.step_busy hi hstep
  · exact h.of_keeps hk id ((positionOk_idle rfl).2 rfl)
  · obtain ⟨hc, r', hr', -, h1⟩ := (positionOk_build hs).1 h.position
    obtain rfl : r' = r := Option.some.inj (hr'.symm.trans hr)
    exact h.of_keeps hk (fun hd => hd.of_lines (s.enterRefresh_lines buf r'.clearAfter))
      (State.enterRefresh_positionOk hc hr (h.config hc).some_digits (build_length hb).2 h1)
  · exact h.of_keeps hk (fun hd => hd.pinWrite _ _) (h.pinWrite_refresh hs seg _)
  · exact h.of_keeps hk (fun hd => hd.pinWrite _ _) (h.pinWrite_clearing hs Config.blank _)

/-- Outside an operation pin writes leave SEQPOS and the operation-lifetime registers alone (log 28). -/
theorem State.writes_keepsPosition {s : State} (hi : s.seqpos = .idle) (es : List PinEvent) :
    KeepsPosition s (s.writes es) := by
  induction es generalizing s with
  | nil => exact .refl s
  | cons e es ih =>
    have hkeep := State.pinWrite_keepsPosition hi e.pin e.level
    have hrest := ih (hkeep.seqpos.trans hi)
    exact ⟨hrest.seqpos.trans hkeep.seqpos, hrest.render.trans hkeep.render, hrest.result.trans hkeep.result⟩

/-- An operation below level 3 on an idle block keeps the invariant. -/
theorem Inv.exec_internal {i : Instr} {s t : State} (h : Inv s) (hi : s.seqpos = .idle) (h3 : i.level ≠ 3)
    (hexec : exec i s = .next t) : Inv t := by
  have hk := exec_internal_keeps h3 hexec
  have hr : s.render = none := (positionOk_idle hi).1 h.position
  obtain ⟨es, rfl⟩ | ⟨p, rfl⟩ | ⟨r, rfl⟩ | ⟨e, rfl⟩ | ⟨buf, rfl⟩ := Machine.exec_internal h3 hexec
  · have hpos := State.writes_keepsPosition hi es
    exact h.of_keeps hk (fun hd => hd.writes es)
      ((positionOk_idle (hpos.seqpos.trans hi)).2 (hpos.render.trans hr))
  · exact h.of_keeps hk (fun hd => hd.configure p)
      ((positionOk_idle ((s.setLevel_seqpos p _).trans hi)).2 ((s.setLevel_render p _).trans hr))
  · exact h.of_keeps hk id ((positionOk_idle (s := s.give r) hi).2 hr)
  · exact h.of_keeps hk id ((positionOk_idle rfl).2 rfl)
  · refine h.of_keeps hk id ((positionOk_idle (s := (s.fillBuffer buf).give _) hi).2 ?_)
    rw [State.give_render, State.fillBuffer_render, hr, Option.map_none]

/-- The block CONSTRUCT leaves has a good configuration (40_construct_and_pins.md R117). -/
theorem constructWith_configOk {s : State} {d c l : PinId} {n : Int} (hn : legalDigits n = true)
    (hd : pairwiseDistinct d c l) : ConfigOk (s.constructWith d c l n.toNat).finish := by
  have hn := legalDigits_iff.1 hn
  refine ⟨?_, ?_, hd, nofun, nofun, nofun⟩
  · show 1 ≤ n.toNat
    omega
  · show n.toNat ≤ 8
    omega

/-- A host operation on an idle block keeps the invariant. -/
theorem Inv.exec_host {i : Instr} {s t : State} (h : Inv s) (h3 : i.level = 3) (hexec : exec i s = .next t) :
    Inv t := by
  have hends := exec_host_ends h3 hexec
  have hpos := (positionOk_idle hends.1).2 hends.2
  obtain ⟨fs, r, -, rfl⟩ | ⟨d, c, l, n, rfl⟩ := exec_host_cases h3 hexec
  · exact h.of_keeps (s.sent_ended_keeps fs r) (fun hd => hd.sent fs) hpos
  · obtain ⟨-, -, ⟨-, rfl⟩ | ⟨hn, hd, rfl⟩⟩ := exec_construct hexec
    · exact h.of_keeps (s.raise_keeps _) id hpos
    · exact ⟨fun _ => constructWith_configOk hn hd, h.enc, h.scripts, hpos⟩

/-- Taking a request leaves the invariant of an idle block. -/
theorem Inv.setPending {s : State} (h : Inv s) (hi : s.seqpos = .idle) (rest : List Request) :
    Inv { s with pending := rest } where
  config hc := ⟨(h.config hc).some_digits, (h.config hc).at_most_eight, (h.config hc).distinct, (h.config hc).outputs⟩
  enc := h.enc
  scripts := h.scripts
  position := (positionOk_idle (s := { s with pending := rest }) hi).2 ((positionOk_idle hi).1 h.position)

/-- A step of an idle block keeps the invariant. -/
theorem Inv.step_idle {s t : State} (h : Inv s) (hi : s.seqpos = .idle) (hstep : step s = .next t) : Inv t := by
  obtain rfl | ⟨i, rest, hexec⟩ := Machine.step_idle hi hstep
  · exact h
  · by_cases h3 : i.level = 3
    · exact (h.setPending hi rest).exec_host h3 hexec
    · exact (h.setPending hi rest).exec_internal hi h3 hexec

/-- Settles O7: a step is that of an idle block, which performs an operation, or one of the operation in progress. -/
theorem stepKeepsTheInvariant : Obligations.StepKeepsTheInvariant := by
  intro s t h hstep
  by_cases hi : s.seqpos = .idle
  · exact h.step_idle hi hstep
  · exact h.step_busy hi hstep

/-- An operation in progress has a next state (44_refresh_scheduler.md R198). -/
theorem Inv.step_next {s : State} (h : Inv s) (hi : s.seqpos ≠ .idle) : ∃ t, step s = .next t := by
  cases hs : s.seqpos with
  | idle => exact absurd hs hi
  | build =>
    obtain ⟨-, r, hr, -, -⟩ := (positionOk_build hs).1 h.position
    rw [step, hs]
    simp only [State.continueBuild, hr]
    split <;> exact ⟨_, rfl⟩
  | refresh pass digit k =>
    obtain ⟨-, hlines, r, hr, -, hd, -⟩ := (positionOk_refresh hs).1 h.position
    exact ⟨_, step_refresh hs hr (List.getElem?_eq_getElem hd) hlines.in_range⟩
  | clearing digit k =>
    obtain ⟨-, hlines, hd, -⟩ := (positionOk_clearing hs).1 h.position
    exact ⟨_, step_clearing hs hd hlines.in_range⟩

/-- A step of an idle block does not fault. -/
theorem step_idle_ne_fault {s : State} (hi : s.seqpos = .idle) (f : Fault) : step s ≠ .fault f := by
  cases hp : s.pending with
  | nil =>
    rw [step_idle_nil hi hp]
    nofun
  | cons r rest =>
    rw [step_idle_cons hi hp]
    exact issue_ne_fault r _ f

/-- Settles O8: an idle block issues, which cannot fault, and a busy one stands at a position that has a step. -/
theorem operationInProgressGoesOn : Obligations.OperationInProgressGoesOn := by
  intro s h
  refine ⟨fun f => ?_, h.step_next⟩
  by_cases hi : s.seqpos = .idle
  · exact step_idle_ne_fault hi f
  · obtain ⟨t, hstep⟩ := h.step_next hi
    rw [hstep]
    nofun

end Sys2Proof.Machine
end

section
/-! PROOF. The sequencer performs the whole operation: fifty steps a transaction, digit after digit, pass after pass
(spec/10_state.md R30, R31; 44_refresh_scheduler.md R190, R192 to R195). -/

namespace Sys2Proof.Machine

theorem clearFrames_length (n : Nat) : (clearFrames n).length = n := by simp [clearFrames]

/-- The frames of CLEAR from a digit on. -/
theorem clearFrames_drop {n digit : Nat} (h : digit < n) : (clearFrames n).drop digit =
    frameOf Config.blank (selectByte digit) :: (clearFrames n).drop (digit + 1) := by
  rw [List.drop_eq_getElem_cons (by rwa [clearFrames_length])]
  simp [clearFrames]

/-- The frames of a pass from a digit on. -/
theorem passFrames_drop {n digit : Nat} {buf : List Byte} (h : digit < buf.length) : (passFrames n buf).drop digit =
    frameOf buf[digit] (selectByte (position n digit)) :: (passFrames n buf).drop (digit + 1) := by
  rw [List.drop_eq_getElem_cons (by rwa [passFrames_length])]
  simp [passFrames]

/-- A clear from a digit to its end (10_state.md R31). -/
theorem steps_clear {s : State} {digit m : Nat} (h : s.seqpos = .clearing digit 0)
    (hm : digit + (m + 1) = s.numDisplays) :
    steps (50 * (m + 1)) s = .next ((s.sent ((clearFrames s.numDisplays).drop digit)).finish) := by
  have hd : digit < s.numDisplays := by omega
  rw [clearFrames_drop hd]
  induction m generalizing s digit with
  | zero =>
    rw [Nat.mul_one, steps_clearing h hd, List.drop_eq_nil_of_le (by rw [clearFrames_length]; omega)]
    exact congrArg _ (if_neg (by omega))
  | succ m ih =>
    have hgo : steps 50 s = .next
        ((s.sent [frameOf Config.blank (selectByte digit)]).goto (.clearing (digit + 1) 0)) :=
      (steps_clearing h hd).trans (congrArg _ (if_pos (by omega)))
    have hn : ((s.sent [frameOf Config.blank (selectByte digit)]).goto (.clearing (digit + 1) 0)).numDisplays =
        s.numDisplays := s.sent_numDisplays _
    rw [Nat.mul_succ, Nat.add_comm, steps_add, hgo, andThen_next, ih rfl (by rw [hn]; omega) (by rw [hn]; omega), hn,
      ← clearFrames_drop (by omega), State.goto_sent, State.goto_finish, State.sent_append, List.singleton_append]

/-- A whole clear from its acceptance (44_refresh_scheduler.md R190). -/
theorem steps_clear_all {s : State} (h : s.seqpos = .clearing 0 0) (hn : 1 ≤ s.numDisplays) :
    steps (50 * s.numDisplays) s = .next (s.finish.sent (clearFrames s.numDisplays)) := by
  obtain ⟨m, hm⟩ : ∃ m, s.numDisplays = m + 1 := ⟨s.numDisplays - 1, by omega⟩
  have hrun := steps_clear h (m := m) (by omega)
  rwa [← hm, List.drop_zero, State.finish_sent] at hrun

/-- Where a RENDER goes on when a pass is over (10_state.md R31). -/
def State.afterPass (s : State) (r : RenderRegs) (pass : Nat) : State :=
  if pass + 1 < r.redrawCount then s.goto (.refresh (pass + 1) 0 0)
  else if r.clearAfter then s.goto (.clearing 0 0) else s.finish

/-- The last digit ends the pass. -/
theorem State.nextInRefresh_lastDigit (s : State) {r : RenderRegs} {digit : Nat} (pass : Nat)
    (h : r.buf.length = digit + 1) : s.nextInRefresh r pass digit = s.afterPass r pass := by
  rw [State.nextInRefresh_eq, if_neg (by omega)]
  rfl

/-- A pass from a digit to its end (10_state.md R31). -/
theorem steps_pass {s : State} {r : RenderRegs} {pass digit m : Nat} (h : s.seqpos = .refresh pass digit 0)
    (hr : s.render = some r) (hm : digit + (m + 1) = r.buf.length) :
    steps (50 * (m + 1)) s =
      .next ((s.sent ((passFrames s.numDisplays r.buf).drop digit)).afterPass r pass) := by
  have hd : digit < r.buf.length := by omega
  rw [passFrames_drop hd]
  induction m generalizing s digit with
  | zero =>
    rw [Nat.mul_one, steps_refresh h hr (List.getElem?_eq_getElem hd), State.nextInRefresh_lastDigit _ _ (by omega),
      List.drop_eq_nil_of_le (by rw [passFrames_length]; omega)]
  | succ m ih =>
    generalize hf : frameOf r.buf[digit] (selectByte (position s.numDisplays digit)) = f
    have hgo : steps 50 s = .next ((s.sent [f]).goto (.refresh pass (digit + 1) 0)) := by
      rw [steps_refresh h hr (List.getElem?_eq_getElem hd), State.nextInRefresh_eq, if_pos (by omega), hf]
    have hn : ((s.sent [f]).goto (.refresh pass (digit + 1) 0)).numDisplays = s.numDisplays := s.sent_numDisplays _
    have hnext := ih (s := (s.sent [f]).goto (.refresh pass (digit + 1) 0)) rfl ((s.sent_render _).trans hr) (by omega)
      (by omega)
    rw [Nat.mul_succ, Nat.add_comm, steps_add, hgo, andThen_next, hnext, hn, ← passFrames_drop (by omega),
      State.goto_sent, State.sent_append, List.singleton_append]
    rfl

/-- A whole pass of a buffer that is not empty. -/
theorem steps_pass_all {s : State} {r : RenderRegs} {pass : Nat} (h : s.seqpos = .refresh pass 0 0)
    (hr : s.render = some r) (hb : r.buf ≠ []) :
    steps (50 * r.buf.length) s = .next ((s.sent (passFrames s.numDisplays r.buf)).afterPass r pass) := by
  obtain ⟨m, hm⟩ : ∃ m, r.buf.length = m + 1 := ⟨r.buf.length - 1, by have := List.length_pos_iff.2 hb; omega⟩
  have hrun := steps_pass h hr (m := m) (by omega)
  rwa [← hm, List.drop_zero] at hrun

/-- The passes of a RENDER from a pass to the last (44_refresh_scheduler.md R194). -/
theorem steps_passes {s : State} {r : RenderRegs} {pass m : Nat} (h : s.seqpos = .refresh pass 0 0)
    (hr : s.render = some r) (hb : r.buf ≠ []) (hm : pass + (m + 1) = r.redrawCount) :
    steps (50 * ((m + 1) * r.buf.length)) s = .next
      (let t := s.sent (List.replicate (m + 1) (passFrames s.numDisplays r.buf)).flatten
       if r.clearAfter then t.goto (.clearing 0 0) else t.finish) := by
  induction m generalizing s pass with
  | zero =>
    rw [Nat.zero_add, Nat.one_mul, steps_pass_all h hr hb, State.afterPass, if_neg (by omega)]
    simp
  | succ m ih =>
    generalize hfs : passFrames s.numDisplays r.buf = fs
    have hgo : steps (50 * r.buf.length) s = .next ((s.sent fs).goto (.refresh (pass + 1) 0 0)) := by
      rw [steps_pass_all h hr hb, State.afterPass, if_pos (by omega), hfs]
    have hn : ((s.sent fs).goto (.refresh (pass + 1) 0 0)).numDisplays = s.numDisplays := s.sent_numDisplays _
    have hnext := ih (s := (s.sent fs).goto (.refresh (pass + 1) 0 0)) rfl ((s.sent_render _).trans hr) (by omega)
    rw [Nat.succ_mul (m + 1), Nat.mul_add, Nat.add_comm, steps_add, hgo, andThen_next, hnext, hn, hfs, State.goto_sent,
      State.sent_append, List.replicate_succ (n := m + 1), List.flatten_cons]
    rfl

/-- A RENDER in its refresh, from its first write to its end (44_refresh_scheduler.md R194, R195). -/
theorem steps_refreshing {s : State} {r : RenderRegs} (h : s.seqpos = .refresh 0 0 0) (hr : s.render = some r)
    (hb : r.buf ≠ []) (h1 : 1 ≤ r.redrawCount) (hn : 1 ≤ s.numDisplays) :
    steps (50 * transactions s.numDisplays r.redrawCount r.clearAfter r.buf.length) s =
      .next (s.finish.sent (renderFrames s.numDisplays r.redrawCount r.clearAfter r.buf)) := by
  obtain ⟨m, hm⟩ : ∃ m, r.redrawCount = m + 1 := ⟨r.redrawCount - 1, by omega⟩
  have hrun := steps_passes h hr hb (m := m) (by omega)
  rw [← hm] at hrun
  rw [transactions, renderFrames, Nat.mul_add, steps_add, hrun, andThen_next]
  cases r.clearAfter
  · simp [steps, State.finish_sent]
  · simp only [if_true]
    have hclear := steps_clear_all (s := (s.sent
      (List.replicate r.redrawCount (passFrames s.numDisplays r.buf)).flatten).goto (.clearing 0 0)) rfl
      (hn.trans_eq (s.sent_numDisplays _).symm)
    rw [State.goto_numDisplays, State.sent_numDisplays] at hclear
    rw [hclear, State.goto_finish, State.finish_sent, State.sent_append]

/-- The build's end, from there to the end of the RENDER (10_state.md R31). -/
theorem steps_enterRefresh {s : State} {r : RenderRegs} {buf : List Byte} (hr : s.render = some r)
    (h1 : 1 ≤ r.redrawCount) (hn : 1 ≤ s.numDisplays) :
    steps (50 * transactions s.numDisplays r.redrawCount r.clearAfter buf.length) (s.enterRefresh buf r.clearAfter) =
      .next (s.finish.sent (renderFrames s.numDisplays r.redrawCount r.clearAfter buf)) := by
  have hfill := State.fillBuffer_render_some hr buf
  rw [State.enterRefresh_eq]
  split
  · subst buf
    have hnone : (List.replicate r.redrawCount (passFrames s.numDisplays [])).flatten = [] := by simp [passFrames]
    rw [transactions, renderFrames, hnone, List.length_nil, Nat.mul_zero, Nat.zero_add, List.nil_append]
    split
    · exact steps_clear_all (s := (s.fillBuffer []).goto (.clearing 0 0)) rfl hn
    · rfl
  · exact steps_refreshing (s := (s.fillBuffer buf).goto (.refresh 0 0 0)) rfl hfill ‹_› h1 hn

/-- RENDER from its acceptance, when its build succeeds (44_refresh_scheduler.md R192). -/
theorem steps_acceptRender {s : State} {q : List Char} {rc st : Nat} {ca : Bool} {buf : List Byte} (h1 : 1 ≤ rc)
    (hn : 1 ≤ s.numDisplays) (hb : build s.enc q st s.numDisplays = .ok buf) :
    steps (1 + 50 * transactions s.numDisplays rc ca buf.length) (s.acceptRender q rc ca st) =
      .next (s.finish.sent (renderFrames s.numDisplays rc ca buf)) := by
  have hbuild : steps 1 (s.acceptRender q rc ca st) = .next ((s.acceptRender q rc ca st).enterRefresh buf ca) := by
    rw [steps_one, step_acceptRender, hb]
  rw [steps_add, hbuild, andThen_next]
  exact steps_enterRefresh (s := s.acceptRender q rc ca st) (r := ⟨q, rc, ca, st, []⟩) rfl h1 hn

/-- Settles O15: the steps of each phase add up to the frames `exec` sends and the end of the operation. -/
theorem sequencerPerformsTheWholeOperation : Obligations.SequencerPerformsTheWholeOperation := by
  refine ⟨fun s hi hc hn => ?_, fun s q rc st ca buf hi hc hn h1 hb => ?_, fun s q rc st ca e hi hc h1 hb => ?_⟩
  · rw [core_run]
    exact (steps_clear_all (s := s.acceptClear) rfl hn).trans (execClear_eq hi hc).symm
  · rw [core_run]
    exact (steps_acceptRender h1 hn hb).trans (execRender_ok hi hc (by omega) hb).symm
  · rw [core_run, steps_one, step_acceptRender, hb]
    exact (execRender_error hi hc (by omega) hb).symm

end Sys2Proof.Machine
end

section
/-! PROOF. The serial engine: the state after SEND_BYTE and SET_PORT, what is visible within a transaction, and the
pulses on clock and latch (spec/41_serial_engine.md R131, R133, R134; 40_construct_and_pins.md R119 (c)). -/

namespace Sys2Proof.Machine

theorem State.advance_iterate_keeps (k : Nat) (s : State) : KeepsConfiguration s (State.advance^[k] s) := by
  rw [State.advance_iterate_eq]
  constructor <;> rfl

theorem State.advance_iterate_keepsLines (k : Nat) (s : State) : KeepsLines s (State.advance^[k] s) := by
  rw [State.advance_iterate_eq]
  constructor <;> rfl

theorem State.advance_iterate_draws (k : Nat) (s : State) : (State.advance^[k] s).draws = s.draws := by
  rw [State.advance_iterate_eq]

theorem State.advance_iterate_keepsPosition {s : State} (k : Nat) (hi : s.seqpos = .idle) :
    KeepsPosition s (State.advance^[k] s) := by
  rw [State.advance_iterate_idle k hi]
  exact .refl s

theorem State.byteSent_keeps (s : State) (v : Byte) : KeepsConfiguration s (s.byteSent v) := by
  constructor <;> rfl

/-- A byte above another, as a shift. -/
theorem append_eq_shiftLeft_or (a b : Byte) : a ++ b = (a.setWidth 16 <<< 8) ||| b.setWidth 16 := by
  apply BitVec.eq_of_getLsbD_eq
  intro i hi
  rw [BitVec.getLsbD_append, BitVec.getLsbD_or, BitVec.getLsbD_shiftLeft]
  by_cases h : i < 8
  · simp [h, hi]
  · simp [h, hi, show i - 8 < 16 by omega, BitVec.getLsbD_of_ge b i (by omega)]

/-- A shift by a byte keeps the old low byte only. -/
theorem setWidth_low_shiftLeft (x : BitVec 16) : (x.extractLsb' 0 8).setWidth 16 <<< 8 = x <<< 8 := by
  apply BitVec.eq_of_getLsbD_eq
  intro i hi
  rw [BitVec.getLsbD_shiftLeft, BitVec.getLsbD_shiftLeft]
  by_cases h : i < 8
  · simp [h]
  · simp [h, hi, show i - 8 < 16 by omega, show i - 8 < 8 by omega]

/-- Settles O28: `byteSent`, from which SEQPOS has only advanced. -/
theorem sendByteLeavesTheByteInTheChain : Obligations.SendByteLeavesTheByteInTheChain := by
  intro v s
  refine ⟨State.advance^[24] (s.byteSent v), ?_, ?_⟩
  · rw [exec_sendByte, State.sendByte_spec]
  have hlines := State.advance_iterate_keepsLines 24 (s.byteSent v)
  have hkeep := State.advance_iterate_keeps 24 (s.byteSent v)
  have hdraws := State.advance_iterate_draws 24 (s.byteSent v)
  have hpos := State.advance_iterate_keepsPosition (s := s.byteSent v) 24
  generalize State.advance^[24] (s.byteSent v) = t at hlines hkeep hdraws hpos ⊢
  refine ⟨hlines.data, hlines.clk, hlines.lat, ?_, hlines.out, hlines.trace, hdraws,
    (s.byteSent_keeps v).trans hkeep,
    fun hi => ⟨(hpos hi).seqpos, (hpos hi).render, (hpos hi).result⟩⟩
  rw [hlines.sr, State.byteSent, append_eq_shiftLeft_or, setWidth_low_shiftLeft]

/-- The state after one frame: the lines and the load hold it (41_serial_engine.md R133). -/
theorem State.sent_singleton (s : State) (f : Frame) : s.sent [f] =
    { s with data := .ofBool (f.getLsbD 0), clk := .high, lat := .high, sr := f, out := f,
             trace := s.trace ++ frameEvents f } := by
  rw [State.sent, List.getLast?_singleton, framesEvents, List.flatMap_singleton]

/-- Settles O30: `sent` of the one frame, from which SEQPOS has only advanced. -/
theorem setPortSpecifiesTheWholeLoad : Obligations.SetPortSpecifiesTheWholeLoad := by
  intro a m s
  generalize hf : frameOf a (lowByte m) = f
  have hbit : f.getLsbD 0 = m.getLsbD 0 := by rw [← hf, frameOf_bit0, lowByte_getLsbD m (by decide)]
  have hsent := s.sent_singleton f
  rw [hbit] at hsent
  refine ⟨State.advance^[50] (s.sent [f]), ?_, ?_⟩
  · rw [exec_setPort, State.setPort_spec, hf]
  have hlines := State.advance_iterate_keepsLines 50 (s.sent [f])
  have hkeep := State.advance_iterate_keeps 50 (s.sent [f])
  have hdraws := State.advance_iterate_draws 50 (s.sent [f])
  have hpos := State.advance_iterate_keepsPosition (s := s.sent [f]) 50
  generalize State.advance^[50] (s.sent [f]) = t at hlines hkeep hdraws hpos ⊢
  rw [hsent] at hlines hdraws hpos
  refine ⟨hlines.data, hlines.clk, hlines.lat, ?_, hlines.out.trans hlines.sr.symm, hdraws, ?_,
    (s.sent_keeps [f]).trans hkeep, fun hi => ⟨(hpos hi).seqpos, (hpos hi).render, (hpos hi).result⟩⟩
  · rw [hlines.sr, ← hf, setWidth_eq_lowByte]
    exact append_eq_shiftLeft_or a (lowByte m)
  · rw [hlines.out]
    exact hlines.trace

/-- Pin writes without a latch going high leave OUT alone (20_memory.md R56). -/
theorem State.writes_out {es : List PinEvent} (h : (⟨.latch, true⟩ : PinEvent) ∉ es) (s : State) :
    (s.writes es).out = s.out := by
  induction es generalizing s with
  | nil => rfl
  | cons e es ih =>
    obtain ⟨he, hes⟩ := not_or.1 (mt List.mem_cons.2 h)
    exact (ih hes _).trans (State.pinWrite_out (Ne.symm he) s)

/-- The latch is no line of a byte (41_serial_engine.md R130). -/
theorem latch_notMem_byteEvents (v : Byte) : (⟨.latch, true⟩ : PinEvent) ∉ byteEvents v := by
  simp [byteEvents, bitEvents]

/-- The transaction up to its last pin write. -/
def frameEventsInit (f : Frame) : List PinEvent := byteEvents (segOf f) ++ byteEvents (selOf f) ++ [⟨.latch, false⟩]

theorem frameEvents_eq_init (f : Frame) : frameEvents f = frameEventsInit f ++ [⟨.latch, true⟩] := by
  rw [frameEvents, frameEventsInit, List.append_assoc _ [_]]
  rfl

theorem latch_notMem_frameEventsInit (f : Frame) : (⟨.latch, true⟩ : PinEvent) ∉ frameEventsInit f := by
  simp [frameEventsInit, latch_notMem_byteEvents]

/-- The fifty operations of a transaction are its pin writes (41_serial_engine.md R132). -/
theorem transactionOps_eq (a b : Byte) : transactionOps a b = (frameEvents (frameOf a b)).map PinEvent.toInstr := by
  rw [frameEvents, segOf_frameOf, selOf_frameOf]
  rfl

/-- SET_PORT is the pin writes of its frame (41_serial_engine.md R132). -/
theorem State.setPort_eq_writes (s : State) (a : Byte) (m : Mask) :
    s.setPort a m = s.writes (frameEvents (frameOf a (lowByte m))) := by
  rw [State.setPort_writes, events_eq]

/-- Settles O32: no latch goes high among the first 49 pin writes. -/
theorem noMixedFrameIsVisible : Obligations.NoMixedFrameIsVisible := by
  intro a m s
  rw [setWidth_eq_lowByte, transactionOps_eq, execAll_map_toInstr, exec_setPort, State.setPort_eq_writes]
  refine ⟨fun k hk => ?_, rfl⟩
  generalize frameOf a (lowByte m) = f
  have hinit : (frameEventsInit f).length = 49 := rfl
  refine ⟨s.writes ((frameEvents f).take k), ?_, State.writes_out (fun hmem => ?_) s⟩
  · rw [← List.map_take, execAll_map_toInstr]
  · rw [frameEvents_eq_init, List.take_append_of_le_length (by omega)] at hmem
    exact latch_notMem_frameEventsInit f (List.mem_of_mem_take hmem)

/-- Each CLK_HI directly follows a CLK_LO and each LAT_HI a LAT_LO (40_construct_and_pins.md R119 (c)). -/
def Pulsed (ev : List PinEvent) : Prop :=
  ∀ (front back : List PinEvent) (p : Pin), p ≠ .data → ev = front ++ ⟨p, true⟩ :: back →
    front.getLast? = some ⟨p, false⟩

theorem Pulsed.nil : Pulsed [] := by
  intro front back p _ h
  cases front <;> cases h

/-- Pulses of two event lists, one after the other: none of the second needs its low write in the first. -/
theorem Pulsed.append {a b : List PinEvent} (ha : Pulsed a) (hb : Pulsed b) : Pulsed (a ++ b) := by
  intro front back p hp h
  obtain ⟨front', rfl, hb'⟩ | ⟨rest, hfront, hrest⟩ := List.append_eq_append_iff.1 h
  · have hlast := hb front' back p hp hb'
    rw [List.getLast?_append, hlast, Option.some_or]
  · cases rest with
    | nil =>
      have hb' := hb [] back p hp hrest.symm
      cases hb'
    | cons e rest =>
      obtain ⟨rfl, -⟩ := List.cons.inj hrest
      exact ha front rest p hp hfront

theorem Pulsed.flatMap {α : Type} {f : α → List PinEvent} (hf : ∀ a, Pulsed (f a)) (l : List α) :
    Pulsed (l.flatMap f) := by
  induction l with
  | nil => exact .nil
  | cons a l ih =>
    rw [List.flatMap_cons]
    exact (hf a).append ih

/-- A data write is no pulse. -/
theorem Pulsed.dataWrite (b : Bool) : Pulsed [⟨.data, b⟩] := by
  intro front back p hp h
  obtain ⟨rfl, hcons⟩ | ⟨_, -, hrest⟩ := List.cons_eq_append_iff.1 h
  · cases hcons
    exact absurd rfl hp
  · exact absurd hrest (by simp)

/-- One line low, then high. -/
theorem Pulsed.pulse (q : Pin) : Pulsed [⟨q, false⟩, ⟨q, true⟩] := by
  intro front back p _ h
  match front with
  | [] => cases h
  | [e] => cases h; rfl
  | e :: e' :: front => simp at h

theorem Pulsed.byteEvents (v : Byte) : Pulsed (byteEvents v) :=
  .flatMap (fun _ => (Pulsed.dataWrite _).append (.pulse .clock)) _

theorem Pulsed.frameEvents (f : Frame) : Pulsed (frameEvents f) :=
  ((Pulsed.byteEvents _).append (.byteEvents _)).append (.pulse .latch)

theorem Pulsed.framesEvents (fs : List Frame) : Pulsed (framesEvents fs) := .flatMap Pulsed.frameEvents fs

/-- CONSTRUCT reports on its digit count and writes no pin (40_construct_and_pins.md R117). -/
theorem exec_construct_reports {d c l : PinId} {n : Int} {s t : State} (h : exec (.construct d c l n) s = .next t) :
    t.result = (if legalDigits n then .done else .raised (.invalidConfiguration n)) ∧ t.trace = s.trace := by
  obtain ⟨-, -, ⟨hn, rfl⟩ | ⟨hn, -, rfl⟩⟩ := exec_construct h <;> rw [hn] <;> exact ⟨rfl, rfl⟩

/-- What a host operation that goes on writes: the frames of its outcome, none for CONSTRUCT. -/
theorem exec_host_trace {i : Instr} {s t : State} (h3 : i.level = 3) (h : exec i s = .next t) :
    ∃ fs, t.trace = s.trace ++ framesEvents fs ∧
      (fs = [] ∨ ∃ r, hostOutcome s.enc s.numDisplays s.scripts i = some (fs, r)) := by
  obtain ⟨fs, r, hout, rfl⟩ | ⟨d, c, l, n, rfl⟩ := exec_host_cases h3 h
  · exact ⟨fs, s.sent_trace fs, .inr ⟨r, hout⟩⟩
  · exact ⟨[], (exec_construct_reports h).2.trans (List.append_nil _).symm, .inl rfl⟩

/-- Settles O33: what an operation writes is bytes and transactions, and those are made of pulses. -/
theorem everyHighWriteFollowsItsLowWrite : Obligations.EveryHighWriteFollowsItsLowWrite := by
  intro i s t h2 h
  by_cases h3 : i.level = 3
  · obtain ⟨fs, htrace, -⟩ := exec_host_trace h3 h
    exact ⟨_, htrace, Pulsed.framesEvents fs⟩
  · cases i with
    | construct | render | clear | test => exact absurd rfl h3
    | sendByte v => cases h; exact ⟨_, s.sendByte_trace v, Pulsed.byteEvents v⟩
    | setPort a m =>
      rw [exec_setPort, Host.Outcome.next.injEq] at h
      exact ⟨_, h ▸ s.setPort_trace a m, Pulsed.frameEvents _⟩
    | _ => exact absurd h2 (by simp [Instr.level])

end Sys2Proof.Machine
end

section
/-! PROOF. ENCODE and the table (spec/42_char_lookup.md R150, R151). -/

namespace Sys2Proof.Machine

theorem encode_encodeChar (c : Char) : encode (.encodeChar c) = ⟨0x30, [.char c]⟩ := rfl

theorem exec_encodeChar (c : Char) (s : State) :
    exec (.encodeChar c) s = .next { s with result := .entry (encodeOf s.enc c) } := rfl

/-- The outcome of ENCODE is the entry, and no other. -/
theorem exec_encodeChar_iff {c : Char} {s : State} {r : Result} :
    exec (.encodeChar c) s = .next { s with result := r } ↔ Result.entry (encodeOf s.enc c) = r := by
  rw [exec_encodeChar, Host.Outcome.next.injEq]
  exact ⟨fun h => congrArg State.result h, fun h => h ▸ rfl⟩

theorem exec_encodeChar_entry_iff {c : Char} {s : State} {e : Option Byte} :
    exec (.encodeChar c) s = .next { s with result := .entry e } ↔ encodeOf s.enc c = e := by
  rw [exec_encodeChar_iff, Result.entry.injEq]

/-- A character the table does not list has no entry. -/
theorem encodeOf_eq_none {enc : Memory} {c : Char} (h : ∀ b, (c.toNat, b) ∉ enc) : encodeOf enc c = none :=
  Option.eq_none_iff_forall_ne_some.2 fun b hb => h b (Memory.mem_of_read hb)

/-- Settles O34: ENCODE reads the table at the code point. -/
theorem encodeAnswersTheEntry : Obligations.EncodeAnswersTheEntry := fun c s =>
  ⟨encode_encodeChar c, ⟨encodeOf s.enc c, exec_encodeChar c s, fun _ => Memory.mem_of_read⟩,
    fun _ hmem hwf => exec_encodeChar_entry_iff.2 (Memory.read_of_mem hwf hmem),
    fun h => exec_encodeChar_entry_iff.2 (encodeOf_eq_none h)⟩

/-- The character of a code point below 128. -/
theorem toNat_ofNat_ascii {a : Nat} (h : a < 128) : (Char.ofNat a).toNat = a := by
  rw [Char.toNat_ofNat, if_pos (.inl (by omega))]

theorem encodeOf_ofNat_ascii (enc : Memory) {a : Nat} (h : a < 128) :
    encodeOf enc (Char.ofNat a) = Memory.read enc a := by
  rw [encodeOf, toNat_ofNat_ascii h]

/-- Letter `k` in both cases, as characters. -/
theorem letter_chars {k : Nat} (h : k < 26) : (Char.ofNat (0x41 + k)).toNat ∈ List.range' 65 26 ∧
    (Char.ofNat (0x61 + k)).toNat = (Char.ofNat (0x41 + k)).toNat + 32 := by
  rw [toNat_ofNat_ascii (by omega), toNat_ofNat_ascii (by omega), List.mem_range'_1]
  omega

/-- E2: some letter has an entry in exactly one case. -/
theorem EncOk.oneCase {enc : Memory} (h : EncOk enc) : ∃ (upper lower : Char) (b : Byte),
    upper.toNat ∈ List.range' 65 26 ∧ lower.toNat = upper.toNat + 32 ∧
      ((encodeOf enc upper = some b ∧ encodeOf enc lower = none) ∨
        (encodeOf enc upper = none ∧ encodeOf enc lower = some b)) := by
  obtain ⟨k, hk, hne⟩ := h.one_case
  obtain ⟨hupper, hlower⟩ := letter_chars hk
  rw [← encodeOf_ofNat_ascii enc (a := 0x41 + k) (by omega),
    ← encodeOf_ofNat_ascii enc (a := 0x61 + k) (by omega)] at hne
  cases hu : encodeOf enc (Char.ofNat (0x41 + k)) with
  | none =>
    cases hl : encodeOf enc (Char.ofNat (0x61 + k)) with
    | none =>
      rw [hu, hl] at hne
      exact absurd rfl hne
    | some b => exact ⟨_, _, b, hupper, hlower, .inr ⟨hu, hl⟩⟩
  | some b =>
    cases hl : encodeOf enc (Char.ofNat (0x61 + k)) with
    | none => exact ⟨_, _, b, hupper, hlower, .inl ⟨hu, hl⟩⟩
    | some b' =>
      rw [hu, hl] at hne
      exact absurd rfl hne

/-- E2: some letter has an entry in both cases. -/
theorem EncOk.bothCases {enc : Memory} (h : EncOk enc) : ∃ (upper lower : Char) (b b' : Byte),
    upper.toNat ∈ List.range' 65 26 ∧ lower.toNat = upper.toNat + 32 ∧
      encodeOf enc upper = some b ∧ encodeOf enc lower = some b' := by
  obtain ⟨k, hk, hu, hl⟩ := h.both_cases
  obtain ⟨hupper, hlower⟩ := letter_chars hk
  rw [← encodeOf_ofNat_ascii enc (by omega), Option.isSome_iff_exists] at hu hl
  obtain ⟨b, hb⟩ := hu
  obtain ⟨b', hb'⟩ := hl
  exact ⟨_, _, b, b', hupper, hlower, hb, hb'⟩

/-- The letters of "done" are letters 3, 14, 13 and 4. -/
theorem done_letter_codes {upper lower : Char} (h : (upper, lower) ∈ [('D', 'd'), ('O', 'o'), ('N', 'n'), ('E', 'e')]) :
    ∃ k ∈ [3, 14, 13, 4], upper.toNat = 0x41 + k ∧ lower.toNat = 0x61 + k := by
  simp only [List.mem_cons, List.not_mem_nil, or_false, Prod.mk.injEq] at h
  obtain ⟨rfl, rfl⟩ | ⟨rfl, rfl⟩ | ⟨rfl, rfl⟩ | ⟨rfl, rfl⟩ := h
  exacts [⟨3, by decide, rfl, rfl⟩, ⟨14, by decide, rfl, rfl⟩, ⟨13, by decide, rfl, rfl⟩, ⟨4, by decide, rfl, rfl⟩]

/-- Each letter of "done" has an entry in some case. -/
theorem EncOk.doneLetter {enc : Memory} (h : EncOk enc) {upper lower : Char}
    (hmem : (upper, lower) ∈ [('D', 'd'), ('O', 'o'), ('N', 'n'), ('E', 'e')]) :
    ∃ b, encodeOf enc upper = some b ∨ encodeOf enc lower = some b := by
  obtain ⟨k, hk, hu, hl⟩ := done_letter_codes hmem
  rw [encodeOf, encodeOf, hu, hl]
  obtain h | h := h.done_letters k hk
  · exact (Option.isSome_iff_exists.1 h).imp fun b => .inl
  · exact (Option.isSome_iff_exists.1 h).imp fun b => .inr

/-- A character that is not printable ASCII has no entry (E1). -/
theorem EncOk.notPrintable {enc : Memory} (h : EncOk enc) {c : Char} (hc : c.toNat < 32 ∨ 126 < c.toNat) :
    encodeOf enc c = none := by
  refine Option.eq_none_iff_forall_ne_some.2 fun b hb => ?_
  have := h.printable c.toNat b hb
  omega

/-- A decimal digit has an entry. -/
theorem EncOk.digit {enc : Memory} (h : EncOk enc) {c : Char}
    (hc : c.toNat ∈ [48, 49, 50, 51, 52, 53, 54, 55, 56, 57]) : ∃ b, encodeOf enc c = some b := by
  simp only [List.mem_cons, List.not_mem_nil, or_false] at hc
  exact Option.isSome_iff_exists.1 (h.digits c.toNat (by omega) (by omega))

/-- Settles O35: each constraint of `EncOk`, read through ENCODE. -/
theorem tableConstraintsShowInEncode : Obligations.TableConstraintsShowInEncode := by
  intro s h
  simp only [exec_encodeChar_entry_iff]
  refine ⟨fun r => ?_, h.space, fun c => h.digit, fun c b => h.point_dark c.toNat b, fun c => h.notPrintable,
    h.oneCase, h.bothCases, fun upper lower => h.doneLetter⟩
  rw [exec_encodeChar_iff, exec_encodeChar_iff, h.letter_O]

end Sys2Proof.Machine
end

section
/-! PROOF. BUILD_BUFFER: what the text builds, and the error it raises (spec/42_char_lookup.md R157 to R162;
60_exceptions.md R231, R232, R237). -/

namespace Sys2Proof.Machine

/-- A scan whose last character is no point appends its entry (R157). -/
theorem scan_concat_char {enc : Memory} {j : Nat} {q : List Char} {c : Char} {pad buf : List Byte} (hc : c ≠ '.') :
    scan enc j (q ++ [c]) pad = .ok buf ↔
      ∃ old b, scan enc j q pad = .ok old ∧ encodeOf enc c = some b ∧ buf = old ++ [b] := by
  rw [scan_append]
  cases scan enc j q pad with
  | error e => simp
  | ok old => cases he : encodeOf enc c <;> simp [scan, hc, he, eq_comm]

/-- A scan whose last character is a point lights the last byte's point, or skips a point that opens the text
(R158, R159). -/
theorem scan_concat_point {enc : Memory} {q : List Char} {pad buf : List Byte} :
    scan enc 0 (q ++ ['.']) pad = .ok buf ↔ ∃ old, scan enc 0 q pad = .ok old ∧
      ((q = [] ∧ buf = old) ∨ (q ≠ [] ∧ ∃ f b, old = f ++ [b] ∧ buf = f ++ [pointOn b])) := by
  rw [scan_append, Nat.zero_add]
  cases scan enc 0 q pad with
  | error e => simp
  | ok old =>
    by_cases hq : q = []
    · simp [hq, scan, eq_comm]
    · obtain rfl | ⟨f, b, rfl⟩ := old.eq_nil_or_concat
      · simp [hq, scan]
      · simp [hq, scan, eq_comm]

/-- The empty text builds the pad (R157; log 27). -/
theorem build_nil {enc : Memory} {st n : Nat} {buf : List Byte} :
    build enc [] st n = .ok buf ↔ buf = List.replicate st 0xFF#8 ∧ st ≤ n := by
  rw [build_ok_iff, scan, Except.ok.injEq]
  constructor
  · rintro ⟨rfl, hlen⟩
    exact ⟨rfl, by rwa [padding, List.length_replicate] at hlen⟩
  · rintro ⟨rfl, hst⟩
    exact ⟨rfl, by rwa [List.length_replicate]⟩

/-- Settles O37: a text with one more character is scanned by scanning that character last. -/
theorem bufferGrowsByTheLastCharacter : Obligations.BufferGrowsByTheLastCharacter := by
  intro enc q st n buf
  refine ⟨build_nil, fun c hc => ?_, ?_⟩
  · simp only [build_ok_iff, scan_concat_char hc]
    constructor
    · rintro ⟨⟨old, b, hscan, he, rfl⟩, hlen⟩
      rw [List.length_append] at hlen
      exact ⟨old, b, ⟨hscan, by omega⟩, he, rfl, by rwa [List.length_append]⟩
    · rintro ⟨old, b, ⟨hscan, -⟩, he, rfl, hlen⟩
      exact ⟨⟨old, b, hscan, he, rfl⟩, hlen⟩
  · simp only [build_ok_iff, scan_concat_point]
    constructor
    · rintro ⟨⟨old, hscan, ⟨hq, rfl⟩ | ⟨hq, f, b, rfl, rfl⟩⟩, hlen⟩
      · exact ⟨buf, ⟨hscan, hlen⟩, .inl ⟨hq, rfl⟩⟩
      · exact ⟨f ++ [b], ⟨hscan, by simpa using hlen⟩, .inr ⟨hq, f, b, rfl, rfl⟩⟩
    · rintro ⟨old, ⟨hscan, hlen⟩, ⟨hq, rfl⟩ | ⟨hq, f, b, rfl, rfl⟩⟩
      · exact ⟨⟨buf, hscan, .inl ⟨hq, rfl⟩⟩, hlen⟩
      · exact ⟨⟨f ++ [b], hscan, .inr ⟨hq, f, b, rfl, rfl⟩⟩, by simpa using hlen⟩

/-- BUILD_BUFFER whose build succeeds (log 21). -/
theorem execBuildBuffer_ok {s : State} {q : List Char} {st n : Nat} {buf : List Byte}
    (h : build s.enc q st n = .ok buf) :
    execBuildBuffer q st n s = .next ((s.fillBuffer buf).give (.buffer buf)) := by
  rw [execBuildBuffer, h]

/-- BUILD_BUFFER whose build raises (60_exceptions.md R238). -/
theorem execBuildBuffer_error {s : State} {q : List Char} {st n : Nat} {e : Error}
    (h : build s.enc q st n = .error e) : execBuildBuffer q st n s = .next (s.raise e) := by
  rw [execBuildBuffer, h]

/-- Settles O38: BUILD_BUFFER fills the buffer, or raises. -/
theorem buildBufferHandsOverTheBuffer : Obligations.BuildBufferHandsOverTheBuffer := by
  intro q st n s
  cases hb : build s.enc q st n with
  | error e =>
    exact ⟨s.raise e, execBuildBuffer_error hb, s.raise_keeps e, ⟨rfl, rfl, rfl, rfl, rfl, rfl⟩, rfl,
      .inr ⟨e, rfl, rfl, rfl, rfl⟩⟩
  | ok buf =>
    obtain ⟨hlen, hfits⟩ := build_length hb
    exact ⟨_, execBuildBuffer_ok hb, (s.fillBuffer_keeps buf).trans (State.give_keeps _ _),
      ⟨rfl, rfl, rfl, rfl, rfl, rfl⟩, rfl, .inl ⟨buf, rfl, rfl, rfl, hlen, hfits, rfl⟩⟩

/-- A build raises what its scan raises, or the overflow of the finished buffer (R162). -/
theorem build_error_iff {enc : Memory} {q : List Char} {st n : Nat} {e : Error} :
    build enc q st n = .error e ↔ scan enc 0 q (padding st) = .error e ∨
      ∃ buf, scan enc 0 q (padding st) = .ok buf ∧ n < buf.length ∧ e = .displayOverflow buf.length n := by
  unfold build
  cases scan enc 0 q (padding st) with
  | error e' => simp
  | ok buf =>
    simp only [reduceCtorEq, false_or, Except.ok.injEq, exists_eq_left']
    split <;> simp [*, eq_comm]

/-- A text has only characters the scan goes past, or a first bad one. -/
theorem allGood_or_firstBad (enc : Memory) (q : List Char) :
    (∀ c ∈ q, goodChar enc c) ∨ ∃ i c, firstBad enc q i c := by
  induction q with
  | nil => exact .inl nofun
  | cons a q ih =>
    by_cases ha : goodChar enc a
    · obtain hgood | ⟨i, c, hbad⟩ := ih
      · exact .inl (List.forall_mem_cons.2 ⟨ha, hgood⟩)
      · exact .inr ⟨i + 1, c, (firstBad_succ ha).2 hbad⟩
    · obtain ⟨hpoint, hentry⟩ := not_or.1 ha
      exact .inr ⟨0, a, firstBad_zero.2 ⟨rfl, hpoint, by simpa using hentry⟩⟩

/-- A scan whose points all find a byte answers a buffer exactly on a text without a bad character. -/
theorem ScansWell.ok_iff {enc : Memory} {j : Nat} {q : List Char} {buf : List Byte} (h : ScansWell enc j q buf) :
    (∃ b, scan enc j q buf = .ok b) ↔ ∀ c ∈ q, goodChar enc c := by
  refine ⟨fun ⟨b, hb⟩ => ?_, h.ok⟩
  obtain hgood | ⟨i, c, hbad⟩ := allGood_or_firstBad enc q
  · exact hgood
  · have herr := (h.bad (j + i) c).2 ⟨i, rfl, hbad⟩
    rw [hb] at herr
    cases herr

/-- A scan raises no overflow: that is tested on the finished buffer (D8). -/
theorem ScansWell.no_overflow {enc : Memory} {j : Nat} {q : List Char} {buf : List Byte} (h : ScansWell enc j q buf)
    (len n : Nat) : scan enc j q buf ≠ .error (.displayOverflow len n) := by
  intro herr
  obtain hgood | ⟨i, c, hbad⟩ := allGood_or_firstBad enc q
  · obtain ⟨b, hb⟩ := h.ok hgood
    rw [hb] at herr
    cases herr
  · rw [(h.bad (j + i) c).2 ⟨i, rfl, hbad⟩] at herr
    cases herr

/-- Settles O39: `scan_start` says which text has a point that finds no byte. -/
theorem dotWithoutDigitIsRaisedExactlyHere : Obligations.DotWithoutDigitIsRaisedExactlyHere := by
  intro enc q st n j
  have hbuild : build enc q st n = .error (.dotWithoutDigit j) ↔
      scan enc 0 q (padding st) = .error (.dotWithoutDigit j) := by
    simp [build_error_iff]
  rw [hbuild]
  obtain ⟨⟨hst, hq⟩, hscan⟩ | ⟨hnot, hwell⟩ := scan_start enc q st
  · rw [hscan]
    simp [hst, hq, eq_comm]
  · exact iff_of_false (hwell.noPoint j) fun ⟨hst, _, hq⟩ => hnot ⟨hst, hq⟩

/-- Settles O40: a scan whose points all find a byte raises its first bad character. -/
theorem firstUnsupportedCharacterIsRaised : Obligations.FirstUnsupportedCharacterIsRaised := by
  intro enc q st n j c
  have hbuild : build enc q st n = .error (.unsupportedCharacter j c) ↔
      scan enc 0 q (padding st) = .error (.unsupportedCharacter j c) := by
    simp [build_error_iff]
  rw [hbuild]
  obtain ⟨hopens, hscan⟩ | ⟨hnot, hwell⟩ := scan_start enc q st
  · rw [hscan]
    exact iff_of_false nofun fun ⟨_, _, _, _, hnot⟩ => hnot hopens
  · have hbad : (∃ i, j = 0 + i ∧ firstBad enc q i c) ↔ firstBad enc q j c := by simp
    rw [hwell.bad, hbad]
    exact ⟨fun ⟨hj, hc, he, hbefore⟩ => ⟨hj, hc, he, hbefore, hnot⟩,
      fun ⟨hj, hc, he, hbefore, _⟩ => ⟨hj, hc, he, hbefore⟩⟩

/-- Settles O41: the overflow is tested on the finished buffer of a scan that answers one. -/
theorem overflowIsRaisedAfterTheScan : Obligations.OverflowIsRaisedAfterTheScan := by
  intro enc q st n len m
  rw [build_error_iff]
  obtain ⟨hopens, hscan⟩ | ⟨hnot, hwell⟩ := scan_start enc q st
  · rw [hscan]
    refine iff_of_false ?_ fun ⟨_, _, _, _, hnot⟩ => hnot hopens
    rintro (h | ⟨_, h, -⟩) <;> cases h
  · constructor
    · rintro (herr | ⟨buf, hscan, hlen, heq⟩)
      · exact absurd herr (hwell.no_overflow len m)
      · cases heq
        refine ⟨rfl, ?_, hlen, hwell.ok_iff.1 ⟨buf, hscan⟩, hnot⟩
        rw [scan_length hscan, padding, List.length_replicate]
    · rintro ⟨rfl, rfl, hlen, hgood, -⟩
      obtain ⟨buf, hscan⟩ := hwell.ok hgood
      have hbuf := scan_length hscan
      rw [padding, List.length_replicate] at hbuf
      exact .inr ⟨buf, hscan, by rwa [hbuf], by rw [hbuf]⟩

end Sys2Proof.Machine
end

section
/-! PROOF. Where the bytes of a buffer and of the frames of a host operation come from (spec/30_encoding.md R85, R86,
R88; 43_digit_select.md R182). -/

namespace Sys2Proof.Machine

/-- A byte of `source`, with or without its point (30_encoding.md R86). -/
def Pointed (source : Byte → Prop) (v : Byte) : Prop := ∃ b, (v = b ∨ v = pointOn b) ∧ source b

theorem Pointed.of_source {source : Byte → Prop} {b : Byte} (h : source b) : Pointed source b := ⟨b, .inl rfl, h⟩

theorem Pointed.pointOn {source : Byte → Prop} {v : Byte} (h : Pointed source v) : Pointed source (pointOn v) := by
  obtain ⟨b, rfl | rfl, hb⟩ := h
  · exact ⟨v, .inr rfl, hb⟩
  · exact ⟨b, .inr (pointOn_pointOn b), hb⟩

/-- What holds of the pad and of the entries of the text's characters, and is kept by lighting the point, holds of every
byte a scan answers (R157, R158). -/
theorem scan_forall {P : Byte → Prop} {enc : Memory} {q : List Char} (hpoint : ∀ v, P v → P (pointOn v))
    (hentry : ∀ c ∈ q, c ≠ '.' → ∀ b, encodeOf enc c = some b → P b) {j : Nat} {pad buf : List Byte}
    (hpad : ∀ v ∈ pad, P v) (h : scan enc j q pad = .ok buf) : ∀ v ∈ buf, P v := by
  induction q generalizing j pad with
  | nil => cases h; exact hpad
  | cons c q ih =>
    have ih := @ih fun d hd => hentry d (List.mem_cons_of_mem c hd)
    rw [scan] at h
    split at h
    · split at h
      · exact ih hpad h
      · obtain rfl | ⟨f, b, rfl⟩ := pad.eq_nil_or_concat
        · cases h
        · rw [List.concat_eq_append, pointLast_concat] at h
          rw [List.concat_eq_append, List.forall_mem_append, List.forall_mem_singleton] at hpad
          exact ih (List.forall_mem_append.2 ⟨hpad.1, List.forall_mem_singleton.2 (hpoint b hpad.2)⟩) h
    · rename_i hc
      split at h
      · cases h
      · rename_i b he
        rw [bufAppend_eq] at h
        exact ih (List.forall_mem_append.2
          ⟨hpad, List.forall_mem_singleton.2 (hentry c (List.mem_cons_self ..) hc b he)⟩) h

/-- A byte of the pad or of an entry of the text, before its point. -/
def FromText (enc : Memory) (q : List Char) (st : Nat) (b : Byte) : Prop :=
  (b = 0xFF#8 ∧ 0 < st) ∨ ∃ c ∈ q, c ≠ '.' ∧ encodeOf enc c = some b

/-- Every byte of a buffer comes from the pad or the text. -/
theorem build_fromText {enc : Memory} {q : List Char} {st n : Nat} {buf : List Byte} (h : build enc q st n = .ok buf) :
    ∀ v ∈ buf, Pointed (FromText enc q st) v := by
  refine scan_forall (P := Pointed (FromText enc q st)) (fun _ => Pointed.pointOn)
    (fun c hc hne b hb => .of_source (.inr ⟨c, hc, hne, hb⟩)) ?_ (build_ok_iff.1 h).1
  intro v hv
  obtain ⟨hst, rfl⟩ := List.mem_replicate.1 hv
  exact .of_source (.inl ⟨rfl, Nat.pos_of_ne_zero hst⟩)

/-- 0xFF or an entry of a character other than the point: what the block shows, before its point (30_encoding.md
R86). -/
def FromTable (enc : Memory) (b : Byte) : Prop := b = 0xFF#8 ∨ ∃ a, a ≠ 0x2E ∧ (a, b) ∈ enc

theorem toNat_ne_point {c : Char} (h : c ≠ '.') : c.toNat ≠ 0x2E := by
  intro hc
  rw [← Char.ofNat_toNat c, hc] at h
  exact h rfl

theorem FromText.fromTable {enc : Memory} {q : List Char} {st : Nat} {b : Byte} (h : FromText enc q st b) :
    FromTable enc b := by
  obtain ⟨rfl, -⟩ | ⟨c, -, hc, he⟩ := h
  · exact .inl rfl
  · exact .inr ⟨c.toNat, toNat_ne_point hc, Memory.mem_of_read he⟩

/-- A frame the block itself issues: one position below `n`, and a byte of the table (30_encoding.md R86, R88). -/
def IssuedFrame (enc : Memory) (n : Nat) (f : Frame) : Prop :=
  (∃ k, k < n ∧ selOf f = 1#8 <<< k) ∧ Pointed (FromTable enc) (segOf f)

theorem issuedFrame_frameOf {enc : Memory} {n p : Nat} {v : Byte} (hn : n ≤ 8) (hp : p < n)
    (hv : Pointed (FromTable enc) v) : IssuedFrame enc n (frameOf v (selectByte p)) := by
  refine ⟨⟨p, hp, ?_⟩, ?_⟩
  · rw [selOf_frameOf, selectByte_eq (by omega)]
  · rwa [segOf_frameOf]

theorem clearFrames_issued {enc : Memory} {n : Nat} (hn : n ≤ 8) : ∀ f ∈ clearFrames n, IssuedFrame enc n f := by
  intro f hf
  obtain ⟨p, hp, rfl⟩ := List.mem_map.1 hf
  exact issuedFrame_frameOf hn (List.mem_range.1 hp) (.of_source (.inl rfl))

theorem passFrames_issued {enc : Memory} {n : Nat} {buf : List Byte} (hn : n ≤ 8) (hlen : buf.length ≤ n)
    (hbuf : ∀ v ∈ buf, Pointed (FromTable enc) v) : ∀ f ∈ passFrames n buf, IssuedFrame enc n f := by
  intro f hf
  obtain ⟨⟨v, i⟩, hvi, rfl⟩ := List.mem_map.1 hf
  obtain ⟨hi, hv⟩ := List.mem_zipIdx' hvi
  exact issuedFrame_frameOf hn (position_lt (by omega)) (hbuf v (hv ▸ List.getElem_mem hi))

/-- The frames of a RENDER whose build succeeds. -/
theorem renderFrames_issued {enc : Memory} {q : List Char} {n rc st : Nat} {ca : Bool} {buf : List Byte} (hn : n ≤ 8)
    (hb : build enc q st n = .ok buf) : ∀ f ∈ renderFrames n rc ca buf, IssuedFrame enc n f := by
  have hbuf (v : Byte) (hv : v ∈ buf) : Pointed (FromTable enc) v := by
    obtain ⟨b, hvb, hsource⟩ := build_fromText hb v hv
    exact ⟨b, hvb, hsource.fromTable⟩
  rw [renderFrames, List.forall_mem_append]
  constructor
  · intro f hf
    obtain ⟨fs, hfs, hmem⟩ := List.mem_flatten.1 hf
    rw [List.eq_of_mem_replicate hfs] at hmem
    exact passFrames_issued hn (build_length hb).2 hbuf f hmem
  · cases ca
    · exact nofun
    · exact clearFrames_issued hn

/-- A SET_PORT the block issues (log 5). -/
theorem setPort_issued {enc : Memory} {n : Nat} {a : Byte} {m : Mask} (hn : n ≤ 8)
    (h : issuedOp enc n (.setPort a m) = true) : IssuedFrame enc n (frameOf a (lowByte m)) := by
  obtain ⟨hseg, hmask⟩ := Bool.and_eq_true_iff.1 h
  obtain ⟨p, hp, hm⟩ := List.any_eq_true.1 hmask
  rw [eq_of_beq hm]
  refine issuedFrame_frameOf hn (List.mem_range.1 hp) ?_
  obtain ⟨b, hb, hab⟩ := List.any_eq_true.1 hseg
  refine ⟨b, by simpa using hab, ?_⟩
  obtain rfl | hb := List.mem_cons.1 hb
  · exact .inl rfl
  · obtain ⟨⟨c, b⟩, he, rfl⟩ := List.mem_map.1 hb
    obtain ⟨hmem, hne⟩ := List.mem_filter.1 he
    exact .inr ⟨c, by simpa using hne, hmem⟩

/-- The frames of a script whose operations the block issues, up to its end or to the error it raises. -/
theorem scriptOutcome_issued {enc : Memory} {n : Nat} (hn : n ≤ 8) {ops : List ScriptOp}
    (hops : ∀ op ∈ ops, issuedOp enc n op = true) {fs : List Frame} {r : Result}
    (h : scriptOutcome enc n ops = some (fs, r)) : ∀ f ∈ fs, IssuedFrame enc n f := by
  induction ops generalizing fs r with
  | nil => cases h; exact nofun
  | cons op ops ih =>
    obtain ⟨hop, hlater⟩ := List.forall_mem_cons.1 hops
    cases op with
    | setPort a m =>
      obtain ⟨⟨gs, r'⟩, hrest, heq⟩ := Option.map_eq_some_iff.1 h
      cases heq
      exact List.forall_mem_cons.2 ⟨setPort_issued hn hop, ih hlater hrest⟩
    | clear =>
      obtain ⟨⟨gs, r'⟩, hrest, heq⟩ := Option.map_eq_some_iff.1 h
      cases heq
      exact List.forall_mem_append.2 ⟨clearFrames_issued hn, ih hlater hrest⟩
    | render q rc ca st =>
      rw [scriptOutcome] at h
      split at h
      · cases h
      · split at h
        · cases h
          exact nofun
        · rename_i buf hb
          obtain ⟨⟨gs, r'⟩, hrest, heq⟩ := Option.map_eq_some_iff.1 h
          cases heq
          exact List.forall_mem_append.2 ⟨renderFrames_issued hn hb, ih hlater hrest⟩

/-- Every frame a host operation sends is one the block issues (30_encoding.md R86, R88). -/
theorem hostOutcome_issued {enc : Memory} {n : Nat} {scripts : List (Nat × ScriptPhases)} (hn : n ≤ 8) {i : Instr}
    {fs : List Frame} {r : Result} (h : hostOutcome enc n scripts i = some (fs, r)) :
    ∀ f ∈ fs, IssuedFrame enc n f := by
  cases i with
  | render q rc ca st => exact scriptOutcome_issued hn (List.forall_mem_singleton.2 rfl) h
  | clear => exact scriptOutcome_issued hn (List.forall_mem_singleton.2 rfl) h
  | test =>
    obtain ⟨ops, hops, hout⟩ := Option.bind_eq_some_iff.1 h
    exact scriptOutcome_issued hn (scriptFor_issued hops) hout
  | _ => cases h

/-- Settles O42: a scan keeps the source of its bytes, and the probe sees the frames that were sent. -/
theorem bufferBytesComeFromTheTable : Obligations.BufferBytesComeFromTheTable := by
  refine ⟨fun enc q st n buf hb => build_fromText hb, fun i s t p h3 hn h => ?_⟩
  obtain ⟨fs, htrace, hfs⟩ := exec_host_trace h3 h
  refine ⟨framesEvents fs, htrace, ?_⟩
  rw [Probe.frames_eq]
  obtain rfl | ⟨r, hout⟩ := hfs
  · exact nofun
  · exact hostOutcome_issued hn hout

end Sys2Proof.Machine
end

section
/-! PROOF. CLEAR and RENDER: the frames they send, the state they leave, and what is counted and seen at the pins
(spec/44_refresh_scheduler.md R190 to R199; 41_serial_engine.md R136; 43_digit_select.md R186). -/

namespace Sys2Proof.Machine

theorem State.finish_sent_keeps (s : State) (fs : List Frame) : KeepsConfiguration s (s.finish.sent fs) :=
  s.finish_keeps.trans (s.finish.sent_keeps fs)

theorem State.sent_result (s : State) (fs : List Frame) : (s.sent fs).result = s.result := by
  unfold State.sent
  split <;> rfl

/-- The lines and the load after frames depend on the last of them only (41_serial_engine.md R136). -/
theorem State.sent_of_getLast {fs : List Frame} {f : Frame} (h : fs.getLast? = some f) (s : State) : s.sent fs =
    { s with data := .ofBool (f.getLsbD 0), clk := .high, lat := .high, sr := f, out := f,
             trace := s.trace ++ framesEvents fs } := by
  rw [State.sent, h]

/-- The select byte of a position has the bit of that position and no other (43_digit_select.md R180). -/
theorem oneHot_getLsbD {q : Nat} (hq : q < 8) (k : Nat) : (1#8 <<< q).getLsbD k = decide (k = q) := by
  rw [← BitVec.twoPow_eq, BitVec.getLsbD_twoPow, decide_eq_true hq, Bool.true_and]
  exact decide_eq_decide.2 eq_comm

/-- The last frame of CLEAR (44_refresh_scheduler.md R191). -/
theorem clearFrames_getLast {n : Nat} (h1 : 1 ≤ n) :
    (clearFrames n).getLast? = some (frameOf Config.blank (selectByte (n - 1))) := by
  rw [clearFrames_last h1, List.getLast?_concat]

/-- The last frame of a RENDER with clear is CLEAR's (44_refresh_scheduler.md R195). -/
theorem renderFrames_getLast_clear {n : Nat} (h1 : 1 ≤ n) (rc : Nat) (buf : List Byte) :
    (renderFrames n rc true buf).getLast? = some (frameOf Config.blank (selectByte (n - 1))) := by
  rw [renderFrames, if_pos rfl, List.getLast?_append, clearFrames_getLast h1, Option.some_or]

/-- The last frame of a RENDER without clear is that of the last byte (44_refresh_scheduler.md R199). -/
theorem renderFrames_getLast_byte {rc : Nat} (hr : rc ≠ 0) (n : Nat) (f : List Byte) (b : Byte) :
    (renderFrames n rc false (f ++ [b])).getLast? = some (frameOf b (selectByte (position n f.length))) := by
  obtain ⟨g, hg⟩ := replicate_flatten_last hr (passFrames n f) (frameOf b (selectByte (position n f.length)))
  rw [renderFrames, passFrames_last, hg, if_neg nofun, List.append_nil, List.getLast?_concat]

/-- A RENDER without clear of an empty buffer sends nothing. -/
theorem renderFrames_nil (n rc : Nat) : renderFrames n rc false [] = [] := by simp [renderFrames, passFrames]

/-- CLEAR goes on on an idle, constructed block only, and sends its frames (44_refresh_scheduler.md R190). -/
theorem exec_clear_next {s t : State} (h : exec .clear s = .next t) :
    s.seqpos = .idle ∧ s.constructed = true ∧ t = s.finish.sent (clearFrames s.numDisplays) := by
  obtain ⟨hi, hc, -⟩ := exec_host (i := .clear) rfl nofun h
  exact ⟨hi, hc, (Host.Outcome.next.inj ((execClear_eq hi hc).symm.trans h)).symm⟩

/-- RENDER goes on on an idle, constructed block with a redraw count of at least 1 only; it raises, or it sends its
frames (44_refresh_scheduler.md R192). -/
theorem exec_render_next {s t : State} {q : List Char} {rc st : Nat} {ca : Bool}
    (h : exec (.render q rc ca st) s = .next t) : s.seqpos = .idle ∧ s.constructed = true ∧ rc ≠ 0 ∧
      ((∃ e, build s.enc q st s.numDisplays = .error e ∧ t = s.raise e) ∨
        ∃ buf, build s.enc q st s.numDisplays = .ok buf ∧
          t = s.finish.sent (renderFrames s.numDisplays rc ca buf)) := by
  obtain ⟨hi, hc, -⟩ := exec_host (i := .render q rc ca st) rfl nofun h
  have hr : rc ≠ 0 := by
    rintro rfl
    cases (execRender_zero hi hc q ca st).symm.trans h
  refine ⟨hi, hc, hr, ?_⟩
  cases hb : build s.enc q st s.numDisplays with
  | error e => exact .inl ⟨e, rfl, (Host.Outcome.next.inj ((execRender_error hi hc hr hb).symm.trans h)).symm⟩
  | ok buf => exact .inr ⟨buf, rfl, (Host.Outcome.next.inj ((execRender_ok hi hc hr hb).symm.trans h)).symm⟩

/-- RENDER whose build succeeds (44_refresh_scheduler.md R192 to R195). -/
theorem exec_render_ok {s t : State} {q : List Char} {rc st : Nat} {ca : Bool} {buf : List Byte}
    (hb : build s.enc q st s.numDisplays = .ok buf) (h : exec (.render q rc ca st) s = .next t) :
    rc ≠ 0 ∧ t = s.finish.sent (renderFrames s.numDisplays rc ca buf) := by
  obtain ⟨-, -, hr, ⟨e, he, -⟩ | ⟨buf', hb', ht⟩⟩ := exec_render_next h
  · rw [hb] at he
    cases he
  · rw [hb] at hb'
    cases hb'
    exact ⟨hr, ht⟩

/-- A blank frame lights no segment (60_exceptions.md R247). -/
theorem lit_blank {q : Nat} (hq : q < 8) (n p k : Nat) : lit (frameOf 0xFF#8 (1#8 <<< q)) n p k = false := by
  have hones : (0xFF#8).getLsbD k = decide (k < 8) := BitVec.getLsbD_allOnes
  rw [lit_frameOf _ hq, hones]
  cases decide (k < 8) <;> simp

/-- Settles O46: CLEAR sends its frames, and the last of them is what the load holds. -/
theorem clearBlanksEveryDigit : Obligations.ClearBlanksEveryDigit := by
  intro s hi hc h1 h8
  refine ⟨s.finish.sent (clearFrames s.numDisplays), execClear_eq hi hc, ?_⟩
  have hkeep := s.finish_sent_keeps (clearFrames s.numDisplays)
  have hlast := clearFrames_getLast h1
  rw [selectByte_eq (by omega)] at hlast
  have hlines := State.sent_of_getLast hlast s.finish
  rw [clearFrames_eq h8, frameOf_bit0, oneHot_getLsbD (by omega)] at hlines
  rw [clearFrames_eq h8] at hkeep ⊢
  rw [hlines] at hkeep ⊢
  refine ⟨rfl, rfl, rfl, rfl, rfl, ?_, rfl, rfl, rfl, rfl, hkeep, lit_blank (by omega) _⟩
  show Level.ofBool (decide (0 = s.numDisplays - 1)) = _
  by_cases hn : s.numDisplays = 1
  · rw [if_pos hn, decide_eq_true (by omega), Level.ofBool_true]
  · rw [if_neg hn, decide_eq_false (by omega), Level.ofBool_false]

/-- Settles O47: both CLEARs end at CLEAR's last frame, and each writes `50 N` events. -/
theorem clearIsIdempotentInItsFinalState : Obligations.ClearIsIdempotentInItsFinalState := by
  intro s t u h1 ht hu
  obtain ⟨-, -, rfl⟩ := exec_clear_next ht
  obtain ⟨-, -, rfl⟩ := exec_clear_next hu
  rw [State.sent_numDisplays, State.finish_numDisplays]
  have hlast := clearFrames_getLast h1
  constructor
  · rw [State.sent_of_getLast hlast, State.sent_of_getLast hlast]
    rfl
  · rw [State.sent_trace, State.finish_trace]
    intro h
    have hnil := List.append_right_eq_self.1 h
    have hlen := framesEvents_length (clearFrames s.numDisplays)
    rw [hnil, clearFrames_length, List.length_nil] at hlen
    omega

/-- Settles O48: the frames of `renderFrames`, the select bytes written out. -/
theorem renderSendsItsPasses : Obligations.RenderSendsItsPasses := by
  intro q rc st ca buf s hi hc h8 h1 hb
  refine ⟨_, execRender_ok hi hc (by omega) hb, ?_, s.finish_sent_keeps _, s.finish.sent_draws _⟩
  rw [State.sent_trace, renderFrames, passFrames_eq h8 (build_length hb).2, clearFrames_eq h8]
  rfl

/-- The select byte of the last buffer byte, at position `N - LEN` (44_refresh_scheduler.md R199). -/
theorem selectByte_last {n : Nat} {f : List Byte} {b : Byte} (h8 : n ≤ 8) (hlen : (f ++ [b]).length ≤ n) :
    selectByte (position n f.length) = 1#8 <<< (n - (f ++ [b]).length) := by
  rw [List.length_append, List.length_singleton] at hlen ⊢
  rw [position_of_lt (by omega), selectByte_eq (by omega), Nat.sub_sub, Nat.add_comm 1]

/-- Settles O49: the last frame of the RENDER says what the lines and the load hold. -/
theorem stateAfterRender : Obligations.StateAfterRender := by
  intro q rc st ca buf s t hi hc h1 h8 hb h
  obtain ⟨hr, rfl⟩ := exec_render_ok hb h
  refine ⟨s.finish.sent_seqpos _, s.finish.sent_render _, s.finish.sent_result _, ?_, ?_, ?_⟩
  · rintro rfl
    refine ⟨_, execClear_eq hi hc, ?_⟩
    rw [State.sent_of_getLast (renderFrames_getLast_clear h1 rc buf), State.sent_of_getLast (clearFrames_getLast h1)]
  · rintro f b rfl rfl
    have hlen := (build_length hb).2
    have hpos := List.length_append (as := f) (bs := [b])
    rw [List.length_singleton] at hpos
    rw [State.sent_of_getLast (renderFrames_getLast_byte hr _ f b), selectByte_last h8 hlen]
    refine ⟨rfl, rfl, rfl, rfl, ?_⟩
    show Level.ofBool ((frameOf b _).getLsbD 0) = _
    rw [frameOf_bit0, oneHot_getLsbD (by omega)]
    by_cases hfull : (f ++ [b]).length = s.numDisplays
    · rw [if_pos hfull, decide_eq_true (by omega), Level.ofBool_true]
    · rw [if_neg hfull, decide_eq_false (by omega), Level.ofBool_false]
  · rintro rfl rfl
    rw [renderFrames_nil]
    exact ⟨rfl, rfl, rfl, rfl, rfl, rfl⟩

/-- An event that each piece has `k` times. -/
theorem count_flatMap_const {α β : Type} [BEq β] {f : α → List β} {x : β} {k : Nat} (h : ∀ a, (f a).count x = k)
    (l : List α) : (l.flatMap f).count x = k * l.length := by
  induction l with
  | nil => rfl
  | cons a l ih => rw [List.flatMap_cons, List.count_append, h, ih, List.length_cons, Nat.mul_succ, Nat.add_comm]

theorem byteEvents_count_clock (v : Byte) : (byteEvents v).count ⟨.clock, true⟩ = 8 :=
  count_flatMap_const (k := 1) (fun j => by cases v.getLsbD (7 - j) <;> rfl) (List.range 8)

theorem byteEvents_count_latch (v : Byte) : (byteEvents v).count ⟨.latch, true⟩ = 0 :=
  List.count_eq_zero.2 (latch_notMem_byteEvents v)

/-- 16 clock edges a transaction (41_serial_engine.md R135). -/
theorem framesEvents_count_clock (fs : List Frame) : (framesEvents fs).count ⟨.clock, true⟩ = 16 * fs.length := by
  refine count_flatMap_const (fun f => ?_) fs
  rw [frameEvents, List.count_append, List.count_append, byteEvents_count_clock, byteEvents_count_clock]
  rfl

/-- One latch edge a transaction (41_serial_engine.md R135). -/
theorem framesEvents_count_latch (fs : List Frame) : (framesEvents fs).count ⟨.latch, true⟩ = fs.length := by
  rw [← Nat.one_mul fs.length]
  refine count_flatMap_const (fun f => ?_) fs
  rw [frameEvents, List.count_append, List.count_append, byteEvents_count_latch, byteEvents_count_latch]
  rfl

/-- Settles O52: the counts of a transaction, times the number of frames. -/
theorem renderEventCounts : Obligations.RenderEventCounts := by
  intro q rc st ca buf s t hb h
  obtain ⟨-, rfl⟩ := exec_render_ok hb h
  rw [← renderFrames_length]
  exact ⟨_, s.finish.sent_trace _, framesEvents_length _, framesEvents_count_clock _, framesEvents_count_latch _⟩

/-- Settles O54: the probe sees the frames sent, and the last of them is what OUT holds. -/
theorem framesAtThePinsAreTheFramesSent : Obligations.FramesAtThePinsAreTheFramesSent := by
  intro q rc st ca buf s t p hb h
  obtain ⟨-, rfl⟩ := exec_render_ok hb h
  refine ⟨_, s.finish.sent_trace _, ?_⟩
  rw [Probe.frames_eq]
  refine ⟨rfl, renderFrames_length .., fun f hf => ?_⟩
  rw [State.sent_of_getLast hf]

/-- The select bytes of CLEAR, ascending (D9). -/
theorem clearFrames_selects {n : Nat} (h8 : n ≤ 8) :
    (clearFrames n).map selOf = (List.range n).map fun i => 1#8 <<< i := by
  rw [clearFrames_eq h8, List.map_map]
  exact List.map_congr_left fun i _ => selOf_frameOf _ _

/-- The select bytes of a pass of a full buffer, descending (43_digit_select.md R186). -/
theorem passFrames_selects {n : Nat} {buf : List Byte} (h8 : n ≤ 8) (hlen : buf.length = n) :
    (passFrames n buf).map selOf = ((List.range n).map fun i => 1#8 <<< i).reverse := by
  rw [passFrames_eq h8 hlen.le]
  apply List.ext_getElem
  · simp [hlen]
  · intro i _ _
    simp

/-- The select bytes of different positions differ. -/
theorem oneHot_nodup {n : Nat} (h8 : n ≤ 8) : ((List.range n).map fun i => 1#8 <<< i).Nodup := by
  refine List.Nodup.map_on (fun i hi j hj hij => ?_) List.nodup_range
  have hi8 : i < 8 := by have := List.mem_range.1 hi; omega
  have hj8 : j < 8 := by have := List.mem_range.1 hj; omega
  have hbit := congrArg (fun b : Byte => b.getLsbD i) hij
  simp only [oneHot_getLsbD hi8, oneHot_getLsbD hj8] at hbit
  simpa using hbit

/-- Settles O53: the probe sees the frames of the pass and those of CLEAR. -/
theorem fullPassSelectsEveryDigitOnce : Obligations.FullPassSelectsEveryDigitOnce := by
  intro q st buf s p hi hc h8 hb hlen
  refine ⟨_, _, _, _, execRender_ok hi hc (by decide) hb, s.finish.sent_trace _, execClear_eq hi hc,
    s.finish.sent_trace _, ?_⟩
  have hpass : renderFrames s.numDisplays 1 false buf = passFrames s.numDisplays buf := by simp [renderFrames]
  rw [Probe.frames_eq, Probe.frames_eq, hpass, passFrames_selects h8 hlen, clearFrames_selects h8]
  exact ⟨rfl, rfl, oneHot_nodup h8⟩

/-- Settles O55: outcome and frames are `hostOutcome`'s; CONSTRUCT writes nothing and reports on its operands. -/
theorem operationsHaveNoHistory : Obligations.OperationsHaveNoHistory := by
  intro i s s' t t' h3 hn he hs h h'
  by_cases hcon : ∀ d c l n, i ≠ .construct d c l n
  · obtain ⟨-, -, ⟨fs, r⟩, hout, rfl⟩ := exec_host h3 hcon h
    obtain ⟨-, -, o', hout', rfl⟩ := exec_host h3 hcon h'
    rw [hn, he, hs, hout'] at hout
    cases hout
    exact ⟨rfl, framesEvents fs, s.sent_trace fs, s'.sent_trace fs⟩
  · push Not at hcon
    obtain ⟨d, c, l, n, rfl⟩ := hcon
    obtain ⟨hresult, htrace⟩ := exec_construct_reports h
    obtain ⟨hresult', htrace'⟩ := exec_construct_reports h'
    refine ⟨hresult.trans hresult'.symm, [], ?_, ?_⟩
    · rw [htrace, List.append_nil]
    · rw [htrace', List.append_nil]

/-- Settles O56: a RENDER with clear and CLEAR end at the same frame. -/
theorem clearAlwaysWins : Obligations.ClearAlwaysWins := by
  intro q q' rc rc' st st' s t u v h1 ht hu hdone hv
  obtain ⟨-, hc, -⟩ := exec_render_next ht
  have hn := (exec_keeps hc ht).numDisplays
  obtain ⟨-, -, rfl⟩ := exec_clear_next hv
  obtain ⟨-, -, -, ⟨e, -, rfl⟩ | ⟨buf, -, rfl⟩⟩ := exec_render_next hu
  · cases hdone
  · rw [hn, State.sent_of_getLast (renderFrames_getLast_clear h1 rc' buf),
      State.sent_of_getLast (clearFrames_getLast h1)]
    exact ⟨rfl, rfl, rfl, rfl, rfl⟩

/-- What a frame with one position selected lights: that position, the segments whose bit is 0 (60_exceptions.md
R247). -/
theorem lit_frameOf_iff (b : Byte) {n q : Nat} (hq : q < n) (h8 : n ≤ 8) (p k : Nat) :
    lit (frameOf b (1#8 <<< q)) n p k = true ↔ p = q ∧ k < 8 ∧ b.getLsbD k = false := by
  rw [lit_frameOf b (by omega)]
  simp only [Bool.and_eq_true, decide_eq_true_eq, Bool.not_eq_true', and_assoc]
  exact ⟨fun ⟨_, hp, hk, hb⟩ => ⟨hp, hk, hb⟩, fun ⟨hp, hk, hb⟩ => ⟨hp ▸ hq, hp, hk, hb⟩⟩

/-- Settles O57: OUT holds the frame of the last byte. -/
theorem lastDigitStaysLit : Obligations.LastDigitStaysLit := by
  intro q rc st f b s t h8 hb h
  obtain ⟨hr, rfl⟩ := exec_render_ok hb h
  have hlen := (build_length hb).2
  have hsel := selectByte_last h8 hlen
  rw [List.length_append, List.length_singleton] at hlen hsel
  rw [State.sent_of_getLast (renderFrames_getLast_byte hr _ f b), hsel]
  exact lit_frameOf_iff b (by omega) h8

/-- The frame of a buffer byte (44_refresh_scheduler.md R193). -/
theorem passFrames_getElem? {n i : Nat} {buf : List Byte} {f : Frame} (h8 : n ≤ 8) (hlen : buf.length ≤ n)
    (h : (passFrames n buf)[i]? = some f) : ∃ v, buf[i]? = some v ∧ f = frameOf v (1#8 <<< (n - 1 - i)) := by
  rw [passFrames_eq h8 hlen, List.getElem?_mapIdx, Option.map_eq_some_iff] at h
  obtain ⟨v, hv, rfl⟩ := h
  exact ⟨v, hv, rfl⟩

/-- IMAGE at the position of a buffer byte is that byte (60_exceptions.md R248). -/
theorem image_position {n i : Nat} {buf : List Byte} (hlen : buf.length ≤ n) (hi : i < buf.length) :
    image n buf (n - 1 - i) = buf[i]? := by
  rw [image, if_pos (by omega), show n - 1 - (n - 1 - i) = i by omega]

/-- Settles O58: frame by frame, the position driven and its byte are those of IMAGE. -/
theorem passRealisesTheImage : Obligations.PassRealisesTheImage := by
  intro n buf h8 hlen
  refine ⟨passFrames_length n buf, fun i f hf => ?_, fun p hp => ⟨if_neg (by omega), fun f hf k => ?_⟩⟩
  · obtain ⟨v, hv, rfl⟩ := passFrames_getElem? h8 hlen hf
    have hi : i < buf.length := (List.getElem?_eq_some_iff.1 hv).1
    exact ⟨v, (image_position hlen hi).trans hv, lit_frameOf_iff v (by omega) h8⟩
  · obtain ⟨i, hi⟩ := List.mem_iff_getElem?.1 hf
    obtain ⟨v, hv, rfl⟩ := passFrames_getElem? h8 hlen hi
    have hi : i < buf.length := (List.getElem?_eq_some_iff.1 hv).1
    refine Bool.eq_false_iff.2 fun hlit => ?_
    have hp' := ((lit_frameOf_iff v (by omega) h8 p k).1 hlit).1
    omega

end Sys2Proof.Machine
end

section
/-! PROOF. TEST performs its script in order and adds nothing (spec/45_test.md R220 to R222). -/

namespace Sys2Proof.Machine

/-- From `s`, the frames `fs` have been sent and the block is idle in `t`; whatever else the operations left behind is
forgotten when TEST ends. -/
structure Performed (s t : State) (fs : List Frame) : Prop where
  idle : t.seqpos = .idle
  ended : ∀ r, t.ended r = (s.sent fs).ended r

theorem Performed.constructed {s t : State} {fs : List Frame} (h : Performed s t fs) : t.constructed = s.constructed :=
  (congrArg State.constructed (h.ended .done)).trans (s.sent_constructed fs)

theorem Performed.numDisplays {s t : State} {fs : List Frame} (h : Performed s t fs) : t.numDisplays = s.numDisplays :=
  (congrArg State.numDisplays (h.ended .done)).trans (s.sent_numDisplays fs)

theorem Performed.enc {s t : State} {fs : List Frame} (h : Performed s t fs) : t.enc = s.enc :=
  (congrArg State.enc (h.ended .done)).trans (s.sent_enc fs)

theorem Performed.trace {s t : State} {fs : List Frame} (h : Performed s t fs) : t.trace = s.trace ++ framesEvents fs :=
  (congrArg State.trace (h.ended .done)).trans (s.sent_trace fs)

/-- Sending frames on an idle block. -/
theorem Performed.of_sent {s : State} (hi : s.seqpos = .idle) (fs : List Frame) : Performed s (s.sent fs) fs :=
  ⟨(s.sent_seqpos fs).trans hi, fun _ => rfl⟩

/-- A host operation that ends after its frames. -/
theorem Performed.of_finish_sent (s : State) (fs : List Frame) : Performed s (s.finish.sent fs) fs := by
  refine ⟨s.finish.sent_seqpos fs, fun r => ?_⟩
  rw [← State.finish_sent]
  rfl

/-- One lot of frames after another. -/
theorem Performed.trans {s t u : State} {fs gs : List Frame} (h : Performed s t fs) (h' : Performed t u gs) :
    Performed s u (fs ++ gs) := by
  refine ⟨h'.idle, fun r => ?_⟩
  rw [h'.ended, State.ended_sent, h.ended, ← State.ended_sent, State.sent_append]

/-- A script operation that raises nothing sends its frames (45_test.md R220). -/
theorem exec_scriptOp {s : State} {op : ScriptOp} (hi : s.seqpos = .idle) (hc : s.constructed = true)
    (h : opErrorFree s.enc s.numDisplays op = true) :
    ∃ t, exec op.toInstr s = .next t ∧ Performed s t (opFrames s.enc s.numDisplays op) := by
  cases op with
  | setPort a m =>
    refine ⟨s.setPort a m, exec_setPort a m s, ?_⟩
    rw [State.setPort_spec, State.advance_iterate_idle 50 ((s.sent_seqpos _).trans hi)]
    exact .of_sent hi _
  | clear => exact ⟨_, execClear_eq hi hc, .of_finish_sent s _⟩
  | render q rc ca st =>
    obtain ⟨hr, hbuild⟩ := Bool.and_eq_true_iff.1 h
    cases hb : build s.enc q st s.numDisplays with
    | error e =>
      rw [hb] at hbuild
      cases hbuild
    | ok buf =>
      refine ⟨_, execRender_ok hi hc (Nat.one_le_iff_ne_zero.1 (of_decide_eq_true hr)) hb, ?_⟩
      rw [opFrames, hb]
      exact .of_finish_sent s _

/-- Script operations that raise nothing, performed one by one, send their frames in order (45_test.md R220). -/
theorem execAll_scriptOps {s : State} {ops : List ScriptOp} (hi : s.seqpos = .idle) (hc : s.constructed = true)
    (h : ∀ op ∈ ops, opErrorFree s.enc s.numDisplays op = true) :
    ∃ u, execAll (ops.map ScriptOp.toInstr) s = .next u ∧
      Performed s u (ops.flatMap (opFrames s.enc s.numDisplays)) := by
  induction ops generalizing s with
  | nil => exact ⟨s, rfl, .of_sent hi []⟩
  | cons op ops ih =>
    obtain ⟨hop, hops⟩ := List.forall_mem_cons.1 h
    obtain ⟨t, ht, hperf⟩ := exec_scriptOp hi hc hop
    rw [← hperf.enc, ← hperf.numDisplays] at hops
    obtain ⟨u, hu, hrest⟩ := ih hperf.idle (hperf.constructed.trans hc) hops
    rw [hperf.enc, hperf.numDisplays] at hrest
    refine ⟨u, ?_, hperf.trans hrest⟩
    rw [List.map_cons, execAll, ht, andThen_next, hu]

/-- TEST of a script that raises nothing sends its frames and ends (45_test.md R220). -/
theorem execTest_errorFree {s : State} {ops : List ScriptOp} (hi : s.seqpos = .idle) (hc : s.constructed = true)
    (hops : scriptFor s.enc s.scripts s.numDisplays = some ops)
    (h : ∀ op ∈ ops, opErrorFree s.enc s.numDisplays op = true) :
    execTest s = .next ((s.sent (ops.flatMap (opFrames s.enc s.numDisplays))).ended .done) := by
  rw [execTest_some hi hc hops, scriptOutcome_errorFree h]
  rfl

/-- A RENDER with redraw count 0 refuses the script it stands in (log 23). -/
theorem scriptOutcome_zero (enc : Memory) (n : Nat) (q : List Char) (ca : Bool) (st : Nat) (back : List ScriptOp) :
    scriptOutcome enc n (.render q 0 ca st :: back) = none := by
  rw [scriptOutcome, if_pos rfl]

/-- A RENDER whose build raises ends the script it stands in (log 23). -/
theorem scriptOutcome_error {enc : Memory} {n rc st : Nat} {q : List Char} {e : Error} (h1 : 1 ≤ rc)
    (hb : build enc q st n = .error e) (ca : Bool) (back : List ScriptOp) :
    scriptOutcome enc n (.render q rc ca st :: back) = some ([], .raised e) := by
  rw [scriptOutcome, if_neg (by omega), hb]

/-- Settles O59: performed one by one or by TEST, the operations send the same frames. -/
theorem testPerformsItsScript : Obligations.TestPerformsItsScript := by
  constructor
  · intro s ops hi hc hops hfree
    obtain ⟨u, hu, hperf⟩ := execAll_scriptOps hi hc hfree
    refine ⟨u, hu, ?_, hperf.trace⟩
    exact (execTest_errorFree hi hc hops hfree).trans (congrArg _ (hperf.ended .done).symm)
  · intro s front back q rc st ca hi hc hops hfree
    obtain ⟨u, hu, hperf⟩ := execAll_scriptOps hi hc hfree
    have htest := execTest_some hi hc hops
    rw [scriptOutcome_append _ hfree] at htest
    refine ⟨u, hu, ?_, fun e h1 hb => ?_⟩
    · rintro rfl
      rw [scriptOutcome_zero] at htest
      exact htest
    · rw [scriptOutcome_error h1 hb, Option.map_some, List.append_nil] at htest
      exact htest.trans (congrArg _ (hperf.ended (.raised e)).symm)

/-- TEST of a script of the outline completes and leaves the block idle (45_test.md R221, R222). -/
theorem execTest_conforming {s : State} {ops : List ScriptOp} (hi : s.seqpos = .idle) (hc : s.constructed = true)
    (hops : scriptFor s.enc s.scripts s.numDisplays = some ops) (h : ConformingScript s.enc s.numDisplays ops) :
    ∃ t, exec .test s = .next t ∧ t.result = .done ∧ t.seqpos = .idle ∧ t.render = none ∧ KeepsConfiguration s t := by
  obtain ⟨ph, hconf, rfl⟩ := h
  exact ⟨_, execTest_errorFree hi hc hops fun op hop => (ScriptPhases.conforms_ops hconf op hop).1, rfl, rfl, rfl,
    s.sent_ended_keeps _ .done⟩

/-- Settles O60: a script of the outline raises nothing, and under the invariant every script is of the outline. -/
theorem conformingTestRaisesNothing : Obligations.ConformingTestRaisesNothing := by
  refine ⟨fun s ops hi hc => execTest_conforming hi hc, fun s hinv hi hc hn => ?_⟩
  obtain ⟨ops, hops, hconf⟩ := scriptFor_of_conforms hinv.scripts hn
  exact execTest_conforming hi hc hops hconf

end Sys2Proof.Machine
end
